-- ==== Sys2Proof/Word.lean ====
section
/-! DEFINITION. The kinds of value the core computes on (00_scope.md R10 and section 5; 20_memory.md R51, R52):
bits and blocks of bits, real numbers, complex samples, streams. Plain data only; the arithmetic on them is in
Machine/Numeric.lean and the value of a real in Machine/Reals.lean. -/

namespace Sys2Proof

/-- `Bit` of 00_scope.md section 5.1: `true` is 1, `false` is 0. -/
abbrev Bit := Bool

/-- `BitVector` of 20_memory.md R51: a finite sequence of bits, element 0 first. -/
abbrev BitVector := List Bit

/-- A 4-bit data block, positions 1 to 4 (41_hamming.md R92). -/
structure Block4 where
  d1 : Bit
  d2 : Bit
  d3 : Bit
  d4 : Bit
deriving DecidableEq, Repr

/-- A 7-bit block, positions 1 to 7 (41_hamming.md R95). -/
structure Block7 where
  r1 : Bit
  r2 : Bit
  r3 : Bit
  r4 : Bit
  r5 : Bit
  r6 : Bit
  r7 : Bit
deriving DecidableEq, Repr

/-- The sign of a real number. -/
inductive Sign where
  | neg
  | zero
  | pos
deriving DecidableEq, Repr, Inhabited

/-- A real number of 00_scope.md R10, held as the closed expression that makes it: rationals, the circle constant,
the functions R10 names (`cos`, `sin`, `sqrt`, `tan`, `10^x`, `angle`; `exp(j·θ)` is a cosine and a sine), the
maximum AGC takes, the draws of the noise source (45_channel.md R191), and reals a host supplies without writing
them out. Plain data, so that two states can be compared and written out; its value is `RealExpr.val`
(Machine/Reals.lean). DESIGN CHOICE, log 1. -/
inductive RealExpr where
  /-- A rational number. -/
  | rat (q : ℚ)
  /-- The circle constant. -/
  | pi
  /-- Draw `i` of the noise source seeded with `seed`: `GAUSS(seed, i)`. -/
  | gauss (seed i : Nat)
  /-- A number the host presents without an expression for it, such as a sample of `transmitAndReceive`
  (47_boundaries.md R217): a real over the reference, a number of the format, perhaps not finite, under a
  finite-precision `NUM` (log 26). -/
  | given (k : Nat)
  | sum (a b : RealExpr)
  | prod (a b : RealExpr)
  | quot (a b : RealExpr)
  | root (a : RealExpr)
  | cosine (a : RealExpr)
  | sine (a : RealExpr)
  | tangent (a : RealExpr)
  /-- `10^a`. -/
  | tenTo (a : RealExpr)
  /-- `angle(re + j·im)` of 00_scope.md R11. -/
  | argOf (re im : RealExpr)
  /-- The larger of the two. -/
  | larger (a b : RealExpr)
deriving DecidableEq, Repr, Inhabited

/-- The number 0. -/
abbrev RealExpr.zero : RealExpr := .rat 0

/-- The number 1. -/
abbrev RealExpr.one : RealExpr := .rat 1

/-- A natural number as a real. -/
abbrev RealExpr.ofNat (n : Nat) : RealExpr := .rat (n : ℚ)

/-- A complex number of 00_scope.md section 5.1, `re + j·im`. -/
structure Cplx where
  re : RealExpr
  im : RealExpr
deriving DecidableEq, Repr, Inhabited

/-- The number 0 + 0j. -/
abbrev Cplx.zero : Cplx := ⟨.zero, .zero⟩

/-- The kind tag of a stream (20_memory.md R52). -/
inductive Kind where
  | real
  | cplx
deriving DecidableEq, Repr

/-- `Stream` of 20_memory.md R52: a kind and a finite sequence of complex samples. That a stream of kind REAL has
zero imaginary parts is `Stream.wellFormed` (WellFormed.lean). -/
structure Stream where
  kind : Kind
  samples : List Cplx
deriving DecidableEq, Repr

/-- The number of samples. -/
abbrev Stream.length (w : Stream) : Nat := w.samples.length

end Sys2Proof
end

