-- ==== Sys2Proof/Machine/Enclosure.lean ====
section
/-! DEFINITION. Rigorous enclosures of real expressions: integers `lo`, `hi` with `lo / 10^20 ≤ value ≤ hi / 10^20`.
The core compares reals (00_scope.md R12; 42_qpsk.md R128; 44_conditioner.md R161; the parameter domains of
60_exceptions.md R238); an enclosure that excludes 0 settles a comparison. Laws/Enclosure.lean proves that every
enclosure found holds the value. -/

namespace Sys2Proof

/-- `lo / 10^20 ≤ x ≤ hi / 10^20`. -/
structure Enclosure where
  lo : Int
  hi : Int
deriving DecidableEq, Repr

/-- The scale of an enclosure's two ends. -/
def Enclosure.scale : Nat := 100000000000000000000

/-- Division rounded up; the divisor is positive wherever it is used. -/
def Enclosure.ceilDiv (a b : Int) : Int := -((-a) / b)

/-- The integer `n`, exactly. -/
def Enclosure.ofInt (n : Int) : Enclosure := ⟨n * Enclosure.scale, n * Enclosure.scale⟩

def Enclosure.ofRat (q : ℚ) : Enclosure :=
  ⟨(q.num * Enclosure.scale) / (q.den : Int), Enclosure.ceilDiv (q.num * Enclosure.scale) q.den⟩

/-- The circle constant to 20 digits. -/
def Enclosure.circle : Enclosure := ⟨314159265358979323846, 314159265358979323847⟩

def Enclosure.add (x y : Enclosure) : Enclosure := ⟨x.lo + y.lo, x.hi + y.hi⟩

def Enclosure.neg (x : Enclosure) : Enclosure := ⟨-x.hi, -x.lo⟩

def Enclosure.sub (x y : Enclosure) : Enclosure := x.add y.neg

def Enclosure.mul (x y : Enclosure) : Enclosure :=
  ⟨min (min (x.lo * y.lo) (x.lo * y.hi)) (min (x.hi * y.lo) (x.hi * y.hi)) / Enclosure.scale,
   Enclosure.ceilDiv (max (max (x.lo * y.lo) (x.lo * y.hi)) (max (x.hi * y.lo) (x.hi * y.hi))) Enclosure.scale⟩

/-- Division by a positive whole number. -/
def Enclosure.divNat (x : Enclosure) (n : Nat) : Enclosure := ⟨x.lo / (n : Int), Enclosure.ceilDiv x.hi n⟩

/-- Widened by `e` on both sides. -/
def Enclosure.widen (x : Enclosure) (e : Int) : Enclosure := ⟨x.lo - e, x.hi + e⟩

/-- The reciprocal of a positive enclosure. -/
def Enclosure.invPos (x : Enclosure) : Enclosure :=
  ⟨(Enclosure.scale * Enclosure.scale : Nat) / x.hi, Enclosure.ceilDiv (Enclosure.scale * Enclosure.scale : Nat) x.lo⟩

/-- The reciprocal, where the enclosure excludes 0. -/
def Enclosure.inv (x : Enclosure) : Option Enclosure :=
  if 0 < x.lo then some x.invPos
  else if x.hi < 0 then some x.neg.invPos.neg
  else none

def Enclosure.max (x y : Enclosure) : Enclosure := ⟨Max.max x.lo y.lo, Max.max x.hi y.hi⟩

/-- The whole part of the square root of `n`, two bits of `n` a round. -/
def Enclosure.isqrt : Nat → Nat → Nat
  | 0, _ => 0
  | fuel + 1, n =>
    if n = 0 then 0
    else
      let r := 2 * Enclosure.isqrt fuel (n / 4)
      if (r + 1) * (r + 1) ≤ n then r + 1 else r

/-- The square root. The guess is checked, so that the enclosure does not rest on how it was found. -/
def Enclosure.sqrt (x : Enclosure) : Option Enclosure :=
  let n := x.lo.toNat * Enclosure.scale
  let m := x.hi.toNat * Enclosure.scale
  let a := Enclosure.isqrt (n.log2 + 1) n
  let b := Enclosure.isqrt (m.log2 + 1) m + 1
  if a * a ≤ n ∧ m ≤ b * b then some ⟨a, b⟩ else none

/-- How many halvings bring `x` into `[-1, 1]`. -/
def Enclosure.halvings (x : Enclosure) : Nat := (Max.max x.lo.natAbs x.hi.natAbs / Enclosure.scale).log2 + 2

/-- `n` further terms of the series of `exp(j·y)`: `(c, s)` is the sum so far, `(tc, ts)` the next term, number `k`. -/
def Enclosure.cisTerms (y : Enclosure) : Nat → Nat → Enclosure → Enclosure → Enclosure → Enclosure → Enclosure × Enclosure
  | 0, _, c, s, _, _ => (c, s)
  | n + 1, k, c, s, tc, ts =>
    Enclosure.cisTerms y n (k + 1) (c.add tc) (s.add ts) ((ts.mul y).neg.divNat (k + 1)) ((tc.mul y).divNat (k + 1))

/-- `exp(2·j·y)` from `exp(j·y)`, `n` times. -/
def Enclosure.cisDouble : Nat → Enclosure × Enclosure → Enclosure × Enclosure
  | 0, z => z
  | n + 1, z =>
    Enclosure.cisDouble n ((z.1.mul z.1).sub (z.2.mul z.2), (Enclosure.ofInt 2).mul (z.1.mul z.2))

/-- Cosine and sine. -/
def Enclosure.cis (x : Enclosure) : Option (Enclosure × Enclosure) :=
  let k := x.halvings
  let y := x.divNat (2 ^ k)
  if -(Enclosure.scale : Int) ≤ y.lo ∧ y.hi ≤ Enclosure.scale then
    let z := Enclosure.cisTerms y 24 0 (.ofInt 0) (.ofInt 0) (.ofInt 1) (.ofInt 0)
    some (Enclosure.cisDouble k (z.1.widen 1, z.2.widen 1))
  else none

def Enclosure.cos (x : Enclosure) : Option Enclosure := x.cis.map (·.1)

def Enclosure.sin (x : Enclosure) : Option Enclosure := x.cis.map (·.2)

def Enclosure.tan (x : Enclosure) : Option Enclosure :=
  x.cis.bind fun z => z.1.inv.map z.2.mul

/-- The whole part of the `b`-th root of `n`, bit by bit from bit `i - 1` down. -/
def Enclosure.rootBits (b n : Nat) : Nat → Nat → Nat
  | 0, r => r
  | i + 1, r => Enclosure.rootBits b n i (if (r + 2 ^ i) ^ b ≤ n then r + 2 ^ i else r)

/-- `10^(a/b)`, checked as in `sqrt`. -/
def Enclosure.tenRoot (a b : Nat) : Option Enclosure :=
  let n := 10 ^ a * Enclosure.scale ^ b
  let r := Enclosure.rootBits b n (n.log2 / b + 1) 0
  if 0 < b ∧ r ^ b ≤ n ∧ n ≤ (r + 1) ^ b then some ⟨r, r + 1⟩ else none

/-- `10^q`. -/
def Enclosure.tenTo (q : ℚ) : Option Enclosure :=
  if 0 ≤ q.num then Enclosure.tenRoot q.num.natAbs q.den
  else (Enclosure.tenRoot q.num.natAbs q.den).bind Enclosure.inv

/-- `n` rounds of correction of a guess `m` for the angle of `a + j·b`. Unchecked: `angle` checks its result. -/
def Enclosure.guessAngle (a b : Int) : Nat → Int → Int
  | 0, m => m
  | n + 1, m =>
    match Enclosure.cis ⟨m, m⟩ with
    | none => m
    | some (c, s) =>
      let re := a * c.lo + b * s.lo
      let im := b * c.lo - a * s.lo
      if re = 0 then m
      else
        let t := im * Enclosure.scale / re
        let t3 := t * t / Enclosure.scale * t / Enclosure.scale
        Enclosure.guessAngle a b n (m + t - t3 / 3)

/-- The angle of `x + j·y`: a guess `m`, checked by turning `x + j·y` back by `m` and bounding what is left. -/
def Enclosure.angle (x y : Enclosure) : Option Enclosure :=
  let a := (x.lo + x.hi) / 2
  let b := (y.lo + y.hi) / 2
  let start : Int :=
    if b.natAbs ≤ a.natAbs then
      if 0 < a then 0 else if 0 ≤ b then Enclosure.circle.lo else -Enclosure.circle.lo
    else if 0 < b then Enclosure.circle.lo / 2 else -(Enclosure.circle.lo / 2)
  let m := Enclosure.guessAngle a b 5 start
  (Enclosure.cis ⟨m, m⟩).bind fun z =>
    let re := (x.mul z.1).add (y.mul z.2)
    let im := (y.mul z.1).sub (x.mul z.2)
    if 0 < re.lo then
      let e := Enclosure.ceilDiv (Max.max im.lo.natAbs im.hi.natAbs * Enclosure.scale : Nat) re.lo
      if -Enclosure.circle.lo ≤ m - e ∧ m + e ≤ Enclosure.circle.lo then some ⟨m - e, m + e⟩ else none
    else none

/-- An enclosure of the expression's value, where one is found. Draws and reals given without an expression have
none. -/
def RealExpr.enclosure : RealExpr → Option Enclosure
  | .rat q => some (.ofRat q)
  | .pi => some .circle
  | .gauss _ _ => none
  | .given _ => none
  | .sum a b => a.enclosure.bind fun x => b.enclosure.map x.add
  | .prod a b => a.enclosure.bind fun x => b.enclosure.map x.mul
  | .quot a b => a.enclosure.bind fun x => b.enclosure.bind fun y => y.inv.map x.mul
  | .root a => a.enclosure.bind Enclosure.sqrt
  | .cosine a => a.enclosure.bind Enclosure.cos
  | .sine a => a.enclosure.bind Enclosure.sin
  | .tangent a => a.enclosure.bind Enclosure.tan
  | .tenTo (.rat q) => Enclosure.tenTo q
  | .tenTo _ => none
  | .argOf a b => a.enclosure.bind fun x => b.enclosure.bind x.angle
  | .larger a b => a.enclosure.bind fun x => b.enclosure.map x.max

end Sys2Proof
end

