-- ==== Sys2Proof/Config.lean ====
section
/-! DEFINITION. The parameters of 00_scope.md R9: the fixed ones as constants, the OPEN ones as uninterpreted
constants. MAXLEN and the choice of NUM are held in State (Machine/State.lean), so that every statement is about every
value of them. -/

namespace Sys2Proof

/-- `SEED0`, the seed after reset. 10_state.md R33 lets a model take Seed = ℕ and SEED0 = 0. DESIGN CHOICE, log 4. -/
def Config.seed0 : Nat := 0

/-- `LBW_DEFAULT`, the loop bandwidth the host's assembler supplies when the operand is omitted
(43_pll.md R141, 30_encoding.md R75). -/
def Config.lbwDefault : RealExpr := .rat (1 / 100)

/-- `DETECT`: whether the decoder reports uncorrectable blocks. Fixed to false (41_hamming.md R104). -/
def Config.detect : Bool := false

/-- `GAUSS : Seed × ℕ → ℝ`, an OPEN parameter of which only functionality is assumed (45_channel.md R191).
A free value, log 3. -/
opaque Config.gauss : Nat → Nat → ℝ

/-- The reals the host supplies without an expression for them: any real numbers (47_boundaries.md R217).
A free value, log 1. -/
opaque Config.given : Nat → ℝ

/-! ### The OPEN parameter `NUM` (00_scope.md R9, R10) -/

/-- "A record giving the format and a total function for each arithmetic operation and each named function, of which
the model may assume only that it depends on its operands alone" (00_scope.md R10). A finite number of the format is
named by any expression whose value it is; a non-finite one by an expression of which `finite` is false (log 26). -/
structure Numerics where
  /-- Whether the number named is a finite one (43_pll.md R148). -/
  finite : RealExpr → Bool
  /-- How a non-finite number compares with a constant: the sign of the difference, `neg` where it is neither above nor
  equal. -/
  orderOfNonFinite : RealExpr → ℚ → Sign
  /-- The number of the format for a real constant, draw or filter coefficient (44_conditioner.md R167). -/
  round : RealExpr → RealExpr
  add : RealExpr → RealExpr → RealExpr
  sub : RealExpr → RealExpr → RealExpr
  neg : RealExpr → RealExpr
  mul : RealExpr → RealExpr → RealExpr
  div : RealExpr → RealExpr → RealExpr
  /-- The sum of a list: the order of summation is the instance's (93_implementation_defined.md U17). -/
  sum : List RealExpr → RealExpr
  /-- The larger of two: the instance's, not an exact selection (DESIGN CHOICE, log 26). -/
  max : RealExpr → RealExpr → RealExpr
  sqrt : RealExpr → RealExpr
  cos : RealExpr → RealExpr
  sin : RealExpr → RealExpr
  /-- No operation of the core rounds with it: the filter's coefficients are roundings of the exact ones
  (44_conditioner.md R167). -/
  tan : RealExpr → RealExpr
  /-- `10^x`. -/
  exp10 : RealExpr → RealExpr
  /-- `exp(j·θ)` of a real `θ`, the form in which 00_scope.md section 5.1 has `exp`. -/
  expj : RealExpr → Cplx
  /-- `angle(z)` (00_scope.md R11). -/
  angle : Cplx → RealExpr
  /-- `|z|`. -/
  cabs : Cplx → RealExpr
  cadd : Cplx → Cplx → Cplx
  csub : Cplx → Cplx → Cplx
  cmul : Cplx → Cplx → Cplx
  cdiv : Cplx → Cplx → Cplx
  /-- The product of a real and a complex number. -/
  cscale : RealExpr → Cplx → Cplx
deriving Inhabited

/-- The finite-precision instances of `NUM`, numbered: uninterpreted. A free value, log 26. -/
opaque Config.finiteNum : Nat → Numerics

/-- Which `NUM` an instance has: the reference, exact arithmetic, or one of the finite-precision ones. -/
inductive NumFormat where
  | exact
  | finitePrecision (k : Nat)
deriving DecidableEq, Repr

end Sys2Proof
end

