-- ==== Sys2Proof/Machine/Reals.lean ====
section
/-! DEFINITION. The value of a real expression: the reference semantics of 00_scope.md R10, exact real and complex
numbers with the mathematical functions; and the exact comparisons that no evaluation settles. -/

namespace Sys2Proof

/-- The real number an expression stands for (00_scope.md R10, R11). `Complex.arg` is `angle` of R11: the principal
argument in `(−π, π]`, 0 at 0. An expression that names no real, a quotient by zero, the root of a negative number or
the tangent of an odd multiple of `π/2`, stands for 0 (DESIGN CHOICE, log 12). -/
noncomputable def RealExpr.val : RealExpr → ℝ
  | .rat q => (q : ℝ)
  | .pi => Real.pi
  | .gauss s i => Config.gauss s i
  | .given k => Config.given k
  | .sum a b => a.val + b.val
  | .prod a b => a.val * b.val
  | .quot a b => a.val / b.val
  | .root a => Real.sqrt a.val
  | .cosine a => Real.cos a.val
  | .sine a => Real.sin a.val
  | .tangent a => Real.tan a.val
  | .tenTo a => (10 : ℝ) ^ a.val
  | .argOf a b => Complex.arg ⟨a.val, b.val⟩
  | .larger a b => Max.max a.val b.val

/-- The complex number a sample stands for. -/
noncomputable def Cplx.val (z : Cplx) : ℂ := ⟨z.re.val, z.im.val⟩

/-- The sign of a real number. -/
noncomputable def Sign.ofReal (x : ℝ) : Sign :=
  if x < 0 then .neg else if x = 0 then .zero else .pos

/-- The natural number a real number is, if it is one. -/
noncomputable def natOfReal (x : ℝ) : Option Nat := if x = (⌊x⌋₊ : ℝ) then some ⌊x⌋₊ else none

/-! ### The comparisons exact arithmetic makes

Over the exact reals a comparison is a function of the value alone (00_scope.md R12, 42_qpsk.md R128), but no
procedure decides it for every expression. These two functions are said by their types, which leave each of them one
value: everything the spec says of a comparison is proved from there, and an evaluation that reaches one of them does
not end (log 2). -/

/-- The sign of the value. -/
def RealExpr.trueSign (t : RealExpr) : { s : Sign // s = Sign.ofReal t.val } := RealExpr.trueSign t
partial_fixpoint

/-- The natural number the value is, if it is one. -/
def RealExpr.trueNat (t : RealExpr) : { n : Option Nat // n = natOfReal t.val } := RealExpr.trueNat t
partial_fixpoint

end Sys2Proof
end

