-- ==== Sys2Proof/Machine/Numeric.lean ====
section
/-! DEFINITION. Arithmetic, the named functions and the comparisons on real expressions (00_scope.md R10 to R13), and
complex arithmetic over them (00_scope.md section 5.1). Each operation folds what exact arithmetic settles and
otherwise builds the expression; Laws/Numeric.lean proves that the value is always the exact one. At the end, the `NUM`
that makes of them, and the arithmetic of the units over any `NUM`. -/

namespace Sys2Proof

/-! ### Signs and comparisons -/

/-- The sign of a rational number. -/
def Sign.ofRat (q : ℚ) : Sign := if q.num < 0 then .neg else if q.num = 0 then .zero else .pos

/-- The sign of a product. -/
def Sign.times : Sign → Sign → Sign
  | .zero, _ => .zero
  | _, .zero => .zero
  | .pos, t => t
  | s, .pos => s
  | .neg, .neg => .pos

/-- The sign an enclosure settles. -/
def Enclosure.sign (x : Enclosure) : Option Sign :=
  if 0 < x.lo then some .pos
  else if x.hi < 0 then some .neg
  else if x.lo = 0 ∧ x.hi = 0 then some .zero
  else none

/-- The sign of an expression by exact rules: rationals, square roots, products, maxima. -/
def RealExpr.exactSign : RealExpr → Option Sign
  | .rat q => some (Sign.ofRat q)
  | .root a => a.exactSign.map fun s => if s = .pos then .pos else .zero
  | .prod a b => a.exactSign.bind fun s => b.exactSign.map s.times
  | .larger a b =>
    if a.exactSign = some .pos ∨ b.exactSign = some .pos then some .pos
    else a.exactSign.bind fun s => b.exactSign.map fun t => if s = .neg then t else s
  | _ => none

/-- The sign of an expression where exact rules or a rigorous enclosure settle it. -/
def RealExpr.settledSign (t : RealExpr) : Option Sign :=
  t.exactSign.or (t.enclosure.bind Enclosure.sign)

/-- The sign of the value, evaluated where it is settled (log 2). -/
def RealExpr.sign (t : RealExpr) : Sign := t.settledSign.getD t.trueSign.1

/-! ### Arithmetic -/

/-- `t` as a rational coefficient and the rest. -/
def RealExpr.split : RealExpr → ℚ × RealExpr
  | .prod (.rat q) c => (q, c)
  | t => (1, t)

/-- `p · t`. -/
def RealExpr.scale (p : ℚ) (t : RealExpr) : RealExpr :=
  match t with
  | .rat q => .rat (p * q)
  | t =>
    let r := p * t.split.1
    if r = 0 then .rat 0 else if r = 1 then t.split.2 else .prod (.rat r) t.split.2

/-- Whether two expressions are the same pi or the same root of a rational, so that their multiples add up. -/
def RealExpr.sameAtom : RealExpr → RealExpr → Bool
  | .pi, .pi => true
  | .root (.rat p), .root (.rat q) => decide (p = q)
  | _, _ => false

/-- `a + b`. -/
def RealExpr.add (a b : RealExpr) : RealExpr :=
  match a, b with
  | .rat p, .rat q => .rat (p + q)
  | a, b =>
    if a = .rat 0 then b
    else if b = .rat 0 then a
    else if a.split.2.sameAtom b.split.2 then RealExpr.scale (a.split.1 + b.split.1) a.split.2
    else .sum a b

/-- `−a`. -/
def RealExpr.neg (a : RealExpr) : RealExpr := a.scale (-1)

/-- `a − b`. -/
def RealExpr.sub (a b : RealExpr) : RealExpr := a.add b.neg

/-- The product of two expressions without rational coefficients; `√q · √q = q`. -/
def RealExpr.mulRest (a b : RealExpr) : RealExpr :=
  match a, b with
  | .root (.rat p), .root (.rat q) => if p = q ∧ 0 ≤ p.num then .rat p else .prod a b
  | a, b => .prod a b

/-- `a · b`. -/
def RealExpr.mul (a b : RealExpr) : RealExpr :=
  match a, b with
  | .rat p, b => b.scale p
  | a, .rat q => a.scale q
  | a, b => (RealExpr.mulRest a.split.2 b.split.2).scale (a.split.1 * b.split.1)

/-- `a / b`. -/
def RealExpr.div (a b : RealExpr) : RealExpr :=
  match a, b with
  | a, .rat q => a.scale q⁻¹
  | a, b => if a = .rat 0 then .rat 0 else .quot a b

/-- `a²`. -/
def RealExpr.sq (a : RealExpr) : RealExpr := a.mul a

/-- The sum of a list, from its first element on. -/
def RealExpr.sumList (l : List RealExpr) : RealExpr := l.foldl RealExpr.add .zero

/-! ### The named functions -/

/-- The square root of a rational: a rational where the square root is one. -/
def RealExpr.sqrtRat (q : ℚ) : RealExpr :=
  if q.num ≤ 0 then .rat 0
  else
    let n := q.num.natAbs * q.den
    let r := Enclosure.isqrt (n.log2 + 1) n
    if r * r = n then .rat ((r : ℚ) / q.den) else RealExpr.scale (1 / (q.den : ℚ)) (.root (.rat (n : ℚ)))

/-- `sqrt(a)`. -/
def RealExpr.sqrt : RealExpr → RealExpr
  | .rat q => RealExpr.sqrtRat q
  | a => .root a

/-- The rational `q` with `t = q·π`, where `t` is written so. -/
def RealExpr.piPart : RealExpr → Option ℚ
  | .rat q => if q = 0 then some 0 else none
  | .pi => some 1
  | .prod (.rat q) .pi => some q
  | _ => none

/-- The number of twelfths of a half turn in `t`, where `t` is a whole number of them. -/
def RealExpr.twelfths (t : RealExpr) : Option Int :=
  t.piPart.bind fun q => if (12 * q).den = 1 then some (12 * q).num else none

/-- The cosine of `k` twelfths of a half turn, for the `k` at which it is a rational or a single root. -/
def RealExpr.cosTable (k : Int) : Option RealExpr :=
  match k % 24 with
  | 0 => some (.rat 1)
  | 2 => some (.prod (.rat (1 / 2)) (.root (.rat 3)))
  | 3 => some (.prod (.rat (1 / 2)) (.root (.rat 2)))
  | 4 => some (.rat (1 / 2))
  | 6 => some (.rat 0)
  | 8 => some (.rat (-1 / 2))
  | 9 => some (.prod (.rat (-1 / 2)) (.root (.rat 2)))
  | 10 => some (.prod (.rat (-1 / 2)) (.root (.rat 3)))
  | 12 => some (.rat (-1))
  | 14 => some (.prod (.rat (-1 / 2)) (.root (.rat 3)))
  | 15 => some (.prod (.rat (-1 / 2)) (.root (.rat 2)))
  | 16 => some (.rat (-1 / 2))
  | 18 => some (.rat 0)
  | 20 => some (.rat (1 / 2))
  | 21 => some (.prod (.rat (1 / 2)) (.root (.rat 2)))
  | 22 => some (.prod (.rat (1 / 2)) (.root (.rat 3)))
  | _ => none

/-- `cos(t)`. -/
def RealExpr.cos (t : RealExpr) : RealExpr := (t.twelfths.bind RealExpr.cosTable).getD (.cosine t)

/-- `sin(t)`, a quarter turn behind the cosine. -/
def RealExpr.sin (t : RealExpr) : RealExpr :=
  (t.twelfths.bind fun k => RealExpr.cosTable (k - 6)).getD (.sine t)

/-- The tangent of `k` twelfths of a half turn, where it is an integer. -/
def RealExpr.tanTable (k : Int) : Option RealExpr :=
  match k % 12 with
  | 0 => some (.rat 0)
  | 3 => some (.rat 1)
  | 9 => some (.rat (-1))
  | _ => none

/-- `tan(t)`. -/
def RealExpr.tan (t : RealExpr) : RealExpr := (t.twelfths.bind RealExpr.tanTable).getD (.tangent t)

/-- `10^t`. -/
def RealExpr.exp10 : RealExpr → RealExpr
  | .rat q => if q.den = 1 then .rat ((10 : ℚ) ^ q.num) else .tenTo (.rat q)
  | t => .tenTo t

/-- The larger of two. -/
def RealExpr.max : RealExpr → RealExpr → RealExpr
  | .rat p, .rat q => .rat (Max.max p q)
  | a, b => .larger a b

/-- `angle(x + j·y)` (00_scope.md R11) on the axes and the rational diagonals, where signs are settled. -/
def RealExpr.angleTable (x y : RealExpr) : Option RealExpr :=
  if y = .rat 0 then
    match x.settledSign with
    | some .neg => some .pi
    | some _ => some (.rat 0)
    | none => none
  else if x = .rat 0 then
    match y.settledSign with
    | some .pos => some (RealExpr.scale (1 / 2) .pi)
    | some .neg => some (RealExpr.scale (-1 / 2) .pi)
    | _ => none
  else
    match x, y with
    | .rat p, .rat q =>
      if 0 < p.num ∧ q = p then some (RealExpr.scale (1 / 4) .pi)
      else if 0 < p.num ∧ q = -p then some (RealExpr.scale (-1 / 4) .pi)
      else if p.num < 0 ∧ q = -p then some (RealExpr.scale (3 / 4) .pi)
      else if p.num < 0 ∧ q = p then some (RealExpr.scale (-3 / 4) .pi)
      else none
    | _, _ => none

/-- `angle(x + j·y)`. -/
def RealExpr.angle (x y : RealExpr) : RealExpr := (RealExpr.angleTable x y).getD (.argOf x y)

/-- The natural number the value is, if it is one (30_encoding.md R74). -/
def RealExpr.nat? : RealExpr → Option Nat
  | .rat q => if q.den = 1 ∧ 0 ≤ q.num then some q.num.toNat else none
  | t => t.trueNat.1

/-! ### Complex arithmetic -/

/-- The real `x` as the complex number `x + 0j`. -/
def Cplx.ofReal (x : RealExpr) : Cplx := ⟨x, .zero⟩

def Cplx.add (z w : Cplx) : Cplx := ⟨z.re.add w.re, z.im.add w.im⟩

def Cplx.sub (z w : Cplx) : Cplx := ⟨z.re.sub w.re, z.im.sub w.im⟩

def Cplx.mul (z w : Cplx) : Cplx :=
  ⟨(z.re.mul w.re).sub (z.im.mul w.im), (z.re.mul w.im).add (z.im.mul w.re)⟩

/-- `g · z` for a real `g`. -/
def Cplx.scale (g : RealExpr) (z : Cplx) : Cplx := ⟨g.mul z.re, g.mul z.im⟩

/-- `|z|²`. -/
def Cplx.normSq (z : Cplx) : RealExpr := z.re.sq.add z.im.sq

/-- `|z|`. -/
def Cplx.abs (z : Cplx) : RealExpr := z.normSq.sqrt

/-- `z / w`. -/
def Cplx.div (z w : Cplx) : Cplx :=
  ⟨((z.re.mul w.re).add (z.im.mul w.im)).div w.normSq, ((z.im.mul w.re).sub (z.re.mul w.im)).div w.normSq⟩

/-- `exp(j·θ)`. -/
def Cplx.expj (θ : RealExpr) : Cplx := ⟨θ.cos, θ.sin⟩

/-! ### `NUM` -/

namespace Numerics

/-- The reference semantics: every number finite, every function exact (00_scope.md R10). -/
def reference : Numerics where
  finite := fun _ => true
  orderOfNonFinite := fun _ _ => .neg
  round := id
  add := RealExpr.add
  sub := RealExpr.sub
  neg := RealExpr.neg
  mul := RealExpr.mul
  div := RealExpr.div
  sum := RealExpr.sumList
  max := RealExpr.max
  sqrt := RealExpr.sqrt
  cos := RealExpr.cos
  sin := RealExpr.sin
  tan := RealExpr.tan
  exp10 := RealExpr.exp10
  expj := Cplx.expj
  angle := fun z => z.re.angle z.im
  cabs := Cplx.abs
  cadd := Cplx.add
  csub := Cplx.sub
  cmul := Cplx.mul
  cdiv := Cplx.div
  cscale := Cplx.scale

variable (M : Numerics)

/-- What a comparison with 0 finds of a number of the format: the sign of its value where it is finite, so that `−0` is
0 (42_qpsk.md R128). -/
def sign (x : RealExpr) : Sign := if M.finite x then x.sign else M.orderOfNonFinite x 0

/-- `0 < x`. -/
def isPos (x : RealExpr) : Bool := decide (M.sign x = .pos)

/-- `x = 0`. -/
def isZero (x : RealExpr) : Bool := decide (M.sign x = .zero)

/-- `x < 1`. -/
def isBelowOne (x : RealExpr) : Bool :=
  decide ((if M.finite x then (x.sub .one).sign else M.orderOfNonFinite x 1) = .neg)

/-- The hard decision `dec` (00_scope.md R12, 42_qpsk.md R128): 1 if `x ≥ 0`, a zero correlation deciding 1. -/
def dec (x : RealExpr) : Bit := decide (M.sign x ≠ .neg)

/-- The number of the format for a rational constant, or for a natural number that enters the arithmetic: a count or an
index is exact (00_scope.md R10) and rounded where it meets a real (DESIGN CHOICE, log 26). -/
def const (q : ℚ) : RealExpr := M.round (.rat q)

/-- The natural number an operand is, if it is one (30_encoding.md R74): written out, it is exact and no number of the
format (00_scope.md R10; log 26); otherwise a finite number of the format whose value is natural. -/
def nat? (x : RealExpr) : Option Nat :=
  match x with
  | .rat q => (RealExpr.rat q).nat?
  | t => if M.finite t then t.nat? else none

/-- `2π`, the product of its two constants (log 26). -/
def twoPi : RealExpr := M.mul (M.const 2) (M.round .pi)

/-- The rail amplitude `amp` (00_scope.md R13): +1 for 1, −1 for 0. -/
def amp (b : Bit) : RealExpr := M.const (if b then 1 else -1)

/-- `Σ_{k<n} f k`. -/
def sumRange (n : Nat) (f : Nat → RealExpr) : RealExpr := M.sum ((List.range n).map f)

end Numerics

/-- The functions of a choice of `NUM`. -/
def NumFormat.num : NumFormat → Numerics
  | .exact => .reference
  | .finitePrecision k => Config.finiteNum k

end Sys2Proof
end

