-- ==== Sys2Proof/Syntax.lean ====
section
/-! DEFINITION. The 17 operations with their typed operands (30_encoding.md R73, R74), and the command as the host
presents it: an operation code and raw operand values beside it (30_encoding.md R70). -/

namespace Sys2Proof

/-- A command of the core, operation and operands together, one constructor per row of the operation table
(30_encoding.md R73; operand shapes R74). -/
inductive Instr where
  /-- Encode a bit vector (41_hamming.md R101). -/
  | henc (data : BitVector)
  /-- Decode a bit vector (41_hamming.md R103). -/
  | hdec (encoded : BitVector)
  /-- Encode one block (41_hamming.md R100). -/
  | hencb (d : BitVector)
  /-- Decode one block (41_hamming.md R102). -/
  | hdecb (r : BitVector)
  /-- Modulate (42_qpsk.md R123). -/
  | qmod (encoded : BitVector) (Tb fc : RealExpr) (N : Nat)
  /-- Demodulate (42_qpsk.md R127). -/
  | qdem (received : Stream) (referenceCos referenceSin : List RealExpr) (numBits N : Nat)
  /-- Run the loop over a stream (43_pll.md R145). -/
  | pllrun (signal : Stream) (fs loopBandwidth : RealExpr)
  /-- Advance the loop by one sample (43_pll.md R144). -/
  | plladv (sample : Cplx) (fs loopBandwidth : RealExpr)
  /-- Reset the loop for a new stream (43_pll.md R142). -/
  | pllrst
  /-- Normalise the peak (44_conditioner.md R161). -/
  | agc (signal : Stream) (targetLevel : RealExpr)
  /-- Filter a whole stream (44_conditioner.md R170). -/
  | lpf (signal : Stream) (cutoffFreq fs : RealExpr) (order : Nat)
  /-- Design the filter and clear its history (44_conditioner.md R168). -/
  | lpfcfg (cutoffFreq fs : RealExpr) (order : Nat)
  /-- Filter one sample (44_conditioner.md R169). -/
  | lpfadv (sample : Cplx)
  /-- Add noise (45_channel.md R193). -/
  | awgn (signal : Stream) (snrDb : RealExpr)
  /-- Seed the noise source (45_channel.md R192). -/
  | rngseed (seed : Nat)
  /-- BER against SNR (46_ber.md R203). -/
  | bersweep (encoded originalBits : BitVector) (snrRange : List RealExpr) (Tb fc : RealExpr) (N : Nat)
  /-- Count bit errors (46_ber.md R201). -/
  | bercmp (originalBits decodedBits : BitVector)
deriving DecidableEq, Repr

/-- A value as it travels with a command or a response (30_encoding.md R70; types 20_memory.md R51). Raw: the digits
of a bit vector may be any numbers and a scalar any real, until they are checked (Machine/Operands.lean).
Natural numbers, rationals and reals are one constructor, since each is a real. -/
inductive Value where
  /-- The digits of a `BitVector`. -/
  | bits (digits : List Nat)
  | stream (w : Stream)
  /-- `RealVector`. -/
  | reals (xs : List RealExpr)
  /-- `PointList`: constellation points `(I, Q)`. -/
  | points (ps : List (Int × Int))
  /-- `CurveList`: pairs `(snr_db, ber)`. -/
  | curve (cs : List (RealExpr × ℚ))
  /-- The error positions of 41_hamming.md R107. -/
  | positions (ps : List Nat)
  /-- A scalar: a real, a natural number, a seed, a bit error rate. -/
  | scalar (x : RealExpr)
  /-- A complex sample. -/
  | sample (z : Cplx)
deriving DecidableEq, Repr

/-- A command as the host presents it (30_encoding.md R70, R71): the 8-bit operation code and the operand values
beside it. -/
structure Command where
  op : BitVec 8
  operands : List Value
deriving DecidableEq, Repr

/-- Why a pair of operation code and operand values is no command of the core (60_exceptions.md R238 F1, F2). -/
inductive DecodeError where
  /-- F1: the code is none of the 17 (30_encoding.md R76). -/
  | reservedCode
  /-- F2: wrong number of operands or a value of another type (30_encoding.md R74). -/
  | wrongShape
  /-- F2: a bit that is not 0 or 1. -/
  | notABit
  /-- F2: a non-integer where `N`, `order`, `num_bits` or the seed is expected. -/
  | notNatural
  /-- F2: a REAL stream with a nonzero imaginary part (20_memory.md R52). -/
  | imaginaryInReal
deriving DecidableEq, Repr

end Sys2Proof
end

