-- ==== Sys2Proof/WellFormed.lean ====
section
/-! DEFINITION. What a command must satisfy beyond its types (60_exceptions.md R238 F2): a stream of kind REAL has
imaginary part 0 in every sample (20_memory.md R52). That bits are 0 or 1, and that `N`, `order`, `num_bits` and the
seed are natural numbers, is part of `Instr`'s types; the raw values are checked in Machine/Operands.lean. -/

namespace Sys2Proof

/-- 20_memory.md R52: kind REAL means every element has imaginary part 0; kind CPLX puts no constraint. That the parts
are finite numbers of the instance's format is tested with row F8 (`accept`; log 25). -/
def Stream.wellFormed (w : Stream) : Bool :=
  match w.kind with
  | .real => w.samples.all fun z => decide (z.im.sign = .zero)
  | .cplx => true

/-- A well-formed command: every stream operand is well formed. -/
def Instr.wellFormed : Instr → Bool
  | .henc _ => true
  | .hdec _ => true
  | .hencb _ => true
  | .hdecb _ => true
  | .qmod _ _ _ _ => true
  | .qdem received _ _ _ _ => received.wellFormed
  | .pllrun signal _ _ => signal.wellFormed
  | .plladv _ _ _ => true
  | .pllrst => true
  | .agc signal _ => signal.wellFormed
  | .lpf signal _ _ _ => signal.wellFormed
  | .lpfcfg _ _ _ => true
  | .lpfadv _ => true
  | .awgn signal _ => signal.wellFormed
  | .rngseed _ => true
  | .bersweep _ _ _ _ _ _ => true
  | .bercmp _ _ => true

end Sys2Proof
end

