-- ==== Sys2Proof/Machine/Operands.lean ====
section
/-! DEFINITION. The operand forms of 30_encoding.md R74: what each type of operand accepts of a raw value, and the
value a typed operand is. A wrong form is named (60_exceptions.md R238 F2). -/

namespace Sys2Proof

/-- A bit as a digit. -/
def Bit.digit (b : Bit) : Nat := if b then 1 else 0

/-- A digit as a bit, if it is one. -/
def digitBit (n : Nat) : Option Bit := if n = 0 then some false else if n = 1 then some true else none

/-- The digits of a bit vector. -/
def BitVector.digits (v : BitVector) : List Nat := v.map Bit.digit

/-- The bits of a list of digits, if all are 0 or 1. -/
def digitBits : List Nat → Option BitVector
  | [] => some []
  | n :: ns => (digitBit n).bind fun b => (digitBits ns).map (b :: ·)

/-- Operand of type `BitVector`. -/
def Value.toBits : Value → Except DecodeError BitVector
  | .bits ds =>
    match digitBits ds with
    | some v => .ok v
    | none => .error .notABit
  | _ => .error .wrongShape

/-- Operand of type `Stream`, either kind. -/
def Value.toStream : Value → Except DecodeError Stream
  | .stream w => if w.wellFormed then .ok w else .error .imaginaryInReal
  | _ => .error .wrongShape

/-- Operand of type `RealVector`. -/
def Value.toReals : Value → Except DecodeError (List RealExpr)
  | .reals xs => .ok xs
  | _ => .error .wrongShape

/-- Operand of type real. -/
def Value.toReal : Value → Except DecodeError RealExpr
  | .scalar x => .ok x
  | _ => .error .wrongShape

/-- Operand of type natural number, or seed, of an instance with `NUM` `M` (60_exceptions.md R238 F2). -/
def Value.toNat (M : Numerics) : Value → Except DecodeError Nat
  | .scalar x =>
    match M.nat? x with
    | some n => .ok n
    | none => .error .notNatural
  | _ => .error .wrongShape

/-- Operand of type complex number. A real is one (DESIGN CHOICE, log 10). -/
def Value.toSample : Value → Except DecodeError Cplx
  | .sample z => .ok z
  | .scalar x => .ok (Cplx.ofReal x)
  | _ => .error .wrongShape

/-- A bit vector as a value. -/
def Value.ofBits (v : BitVector) : Value := .bits v.digits

/-- A natural number as a value. -/
def Value.ofNat (n : Nat) : Value := .scalar (.ofNat n)

/-- The number of elements of a buffer, 0 for a scalar: what MAXLEN bounds (20_memory.md R53). -/
def Value.bufferLength : Value → Nat
  | .bits ds => ds.length
  | .stream w => w.length
  | .reals xs => xs.length
  | .points ps => ps.length
  | .curve cs => cs.length
  | .positions ps => ps.length
  | .scalar _ => 0
  | .sample _ => 0

/-- The numbers of a stream: both parts of every sample, of either kind (43_pll.md R148). -/
def Stream.numbers (w : Stream) : List RealExpr := w.samples.flatMap fun z => [z.re, z.im]

/-- The samples and real parameters of a command: what must be finite under a `NUM` with non-finite values
(60_exceptions.md R238 F8). -/
def Instr.numbers : Instr → List RealExpr
  | .henc _ => []
  | .hdec _ => []
  | .hencb _ => []
  | .hdecb _ => []
  | .qmod _ tb fc _ => [tb, fc]
  | .qdem w rc rs _ _ => w.numbers ++ rc ++ rs
  | .pllrun w fs lbw => w.numbers ++ [fs, lbw]
  | .plladv x fs lbw => [x.re, x.im, fs, lbw]
  | .pllrst => []
  | .agc w x => w.numbers ++ [x]
  | .lpf w c fs _ => w.numbers ++ [c, fs]
  | .lpfcfg c fs _ => [c, fs]
  | .lpfadv x => [x.re, x.im]
  | .awgn w x => w.numbers ++ [x]
  | .rngseed _ => []
  | .bersweep _ _ snrs tb fc _ => snrs ++ [tb, fc]
  | .bercmp _ _ => []

/-- A result stream: one of kind REAL carries real parts only, so that a REAL stream stays REAL under every `NUM`
(20_memory.md R52, 44_conditioner.md R172). -/
def Stream.make (kind : Kind) (samples : List Cplx) : Stream :=
  match kind with
  | .real => ⟨.real, samples.map fun z => Cplx.ofReal z.re⟩
  | .cplx => ⟨.cplx, samples⟩

end Sys2Proof
end

