-- ==== Sys2Proof/Decode.lean ====
section
/-! DEFINITION. Decoding of a command as the host presents it (30_encoding.md R70 to R76): total, every rejection
named; and the encoder. -/

namespace Sys2Proof

/-- The field `unit = op[7:4]` (30_encoding.md R72). -/
def opUnit (op : BitVec 8) : BitVec 4 := op.extractLsb' 4 4

/-- The field `fn = op[3:0]` (30_encoding.md R72). -/
def opFn (op : BitVec 8) : BitVec 4 := op.extractLsb' 0 4

/-- HENC, HDEC, HENCB, HDECB: format B, one bit vector. -/
def decodeBits (mk : BitVector → Instr) : List Value → Except DecodeError Instr
  | [v] => do return mk (← v.toBits)
  | _ => .error .wrongShape

/-- AGC, AWGN: format S1, a stream and a real. -/
def decodeStreamReal (mk : Stream → RealExpr → Instr) : List Value → Except DecodeError Instr
  | [w, x] => do return mk (← w.toStream) (← x.toReal)
  | _ => .error .wrongShape

/-- QMOD: format MOD. -/
def decodeQmod (M : Numerics) : List Value → Except DecodeError Instr
  | [e, tb, fc, n] => do return .qmod (← e.toBits) (← tb.toReal) (← fc.toReal) (← n.toNat M)
  | _ => .error .wrongShape

/-- QDEM: format DEM. -/
def decodeQdem (M : Numerics) : List Value → Except DecodeError Instr
  | [w, rc, rs, nb, n] => do
    return .qdem (← w.toStream) (← rc.toReals) (← rs.toReals) (← nb.toNat M) (← n.toNat M)
  | _ => .error .wrongShape

/-- PLLRUN: format S2. -/
def decodePllrun : List Value → Except DecodeError Instr
  | [w, fs, lbw] => do return .pllrun (← w.toStream) (← fs.toReal) (← lbw.toReal)
  | _ => .error .wrongShape

/-- PLLADV: format Z2. -/
def decodePlladv : List Value → Except DecodeError Instr
  | [x, fs, lbw] => do return .plladv (← x.toSample) (← fs.toReal) (← lbw.toReal)
  | _ => .error .wrongShape

/-- PLLRST: format N, no operand. -/
def decodePllrst : List Value → Except DecodeError Instr
  | [] => .ok .pllrst
  | _ => .error .wrongShape

/-- LPF: format S3. -/
def decodeLpf (M : Numerics) : List Value → Except DecodeError Instr
  | [w, c, fs, n] => do return .lpf (← w.toStream) (← c.toReal) (← fs.toReal) (← n.toNat M)
  | _ => .error .wrongShape

/-- LPFCFG: format C3. -/
def decodeLpfcfg (M : Numerics) : List Value → Except DecodeError Instr
  | [c, fs, n] => do return .lpfcfg (← c.toReal) (← fs.toReal) (← n.toNat M)
  | _ => .error .wrongShape

/-- LPFADV: format Z0. -/
def decodeLpfadv : List Value → Except DecodeError Instr
  | [x] => do return .lpfadv (← x.toSample)
  | _ => .error .wrongShape

/-- RNGSEED: format SEED. -/
def decodeRngseed (M : Numerics) : List Value → Except DecodeError Instr
  | [x] => do return .rngseed (← x.toNat M)
  | _ => .error .wrongShape

/-- BERSWEEP: format SWEEP. -/
def decodeBersweep (M : Numerics) : List Value → Except DecodeError Instr
  | [e, o, r, tb, fc, n] => do
    return .bersweep (← e.toBits) (← o.toBits) (← r.toReals) (← tb.toReal) (← fc.toReal) (← n.toNat M)
  | _ => .error .wrongShape

/-- BERCMP: format BB. -/
def decodeBercmp : List Value → Except DecodeError Instr
  | [o, d] => do return .bercmp (← o.toBits) (← d.toBits)
  | _ => .error .wrongShape

/-- The operation map by unit and function (30_encoding.md R72, R73); every other code is reserved (R76). Whether an
operand is a natural number depends on the `NUM` of the instance (R74). -/
def decode (M : Numerics) (c : Command) : Except DecodeError Instr :=
  match (opUnit c.op).toNat, (opFn c.op).toNat with
  | 1, 0 => decodeBits .henc c.operands
  | 1, 1 => decodeBits .hdec c.operands
  | 1, 2 => decodeBits .hencb c.operands
  | 1, 3 => decodeBits .hdecb c.operands
  | 2, 0 => decodeQmod M c.operands
  | 2, 1 => decodeQdem M c.operands
  | 3, 0 => decodePllrun c.operands
  | 3, 1 => decodePlladv c.operands
  | 3, 2 => decodePllrst c.operands
  | 4, 0 => decodeStreamReal .agc c.operands
  | 4, 1 => decodeLpf M c.operands
  | 4, 2 => decodeLpfcfg M c.operands
  | 4, 3 => decodeLpfadv c.operands
  | 5, 0 => decodeStreamReal .awgn c.operands
  | 5, 1 => decodeRngseed M c.operands
  | 6, 0 => decodeBersweep M c.operands
  | 6, 1 => decodeBercmp c.operands
  | _, _ => .error .reservedCode

/-- The operation code of an instruction, from the table of 30_encoding.md R73. -/
def Instr.opcode : Instr → BitVec 8
  | .henc _ => 0x10#8
  | .hdec _ => 0x11#8
  | .hencb _ => 0x12#8
  | .hdecb _ => 0x13#8
  | .qmod _ _ _ _ => 0x20#8
  | .qdem _ _ _ _ _ => 0x21#8
  | .pllrun _ _ _ => 0x30#8
  | .plladv _ _ _ => 0x31#8
  | .pllrst => 0x32#8
  | .agc _ _ => 0x40#8
  | .lpf _ _ _ _ => 0x41#8
  | .lpfcfg _ _ _ => 0x42#8
  | .lpfadv _ => 0x43#8
  | .awgn _ _ => 0x50#8
  | .rngseed _ => 0x51#8
  | .bersweep _ _ _ _ _ _ => 0x60#8
  | .bercmp _ _ => 0x61#8

/-- The operand values of an instruction, in the order of 30_encoding.md R74. -/
def Instr.operands : Instr → List Value
  | .henc data => [.ofBits data]
  | .hdec encoded => [.ofBits encoded]
  | .hencb d => [.ofBits d]
  | .hdecb r => [.ofBits r]
  | .qmod e tb fc n => [.ofBits e, .scalar tb, .scalar fc, .ofNat n]
  | .qdem w rc rs nb n => [.stream w, .reals rc, .reals rs, .ofNat nb, .ofNat n]
  | .pllrun w fs lbw => [.stream w, .scalar fs, .scalar lbw]
  | .plladv x fs lbw => [.sample x, .scalar fs, .scalar lbw]
  | .pllrst => []
  | .agc w x => [.stream w, .scalar x]
  | .lpf w c fs n => [.stream w, .scalar c, .scalar fs, .ofNat n]
  | .lpfcfg c fs n => [.scalar c, .scalar fs, .ofNat n]
  | .lpfadv x => [.sample x]
  | .awgn w x => [.stream w, .scalar x]
  | .rngseed n => [.ofNat n]
  | .bersweep e o r tb fc n => [.ofBits e, .ofBits o, .reals r, .scalar tb, .scalar fc, .ofNat n]
  | .bercmp o d => [.ofBits o, .ofBits d]

/-- The command of an instruction. -/
def encode (i : Instr) : Command := ⟨i.opcode, i.operands⟩

/-- The smallest operands of an operation code's shape that lie in the operation's domain: empty buffers and zeros
where it admits them. An operation code carries no operand bits (30_encoding.md R71), so a bare code is completed with
these (DESIGN CHOICE, log 9). A reserved code gets none. -/
def smallestOperands (op : BitVec 8) : List Value :=
  match (opUnit op).toNat, (opFn op).toNat with
  | 1, 0 => (Instr.henc []).operands
  | 1, 1 => (Instr.hdec []).operands
  | 1, 2 => (Instr.hencb (List.replicate 4 false)).operands
  | 1, 3 => (Instr.hdecb (List.replicate 7 false)).operands
  | 2, 0 => (Instr.qmod [] .one .zero 1).operands
  | 2, 1 => (Instr.qdem ⟨.real, []⟩ [.zero] [.zero] 0 1).operands
  | 3, 0 => (Instr.pllrun ⟨.real, []⟩ .one .zero).operands
  | 3, 1 => (Instr.plladv .zero .one .zero).operands
  | 3, 2 => Instr.pllrst.operands
  | 4, 0 => (Instr.agc ⟨.real, [⟨.one, .zero⟩]⟩ .zero).operands
  | 4, 1 => (Instr.lpf ⟨.real, []⟩ (.rat (1 / 4)) .one 1).operands
  | 4, 2 => (Instr.lpfcfg (.rat (1 / 4)) .one 1).operands
  | 4, 3 => (Instr.lpfadv .zero).operands
  | 5, 0 => (Instr.awgn ⟨.real, []⟩ .zero).operands
  | 5, 1 => (Instr.rngseed 0).operands
  | 6, 0 => (Instr.bersweep (List.replicate 14 false) [false] [] .one .zero 1).operands
  | 6, 1 => (Instr.bercmp [false] [false]).operands
  | _, _ => []

/-- The command of a bare operation code. -/
def commandOfWord (w : Nat) : Command := ⟨BitVec.ofNat 8 w, smallestOperands (BitVec.ofNat 8 w)⟩

/-- The instruction decoded from a bare operation code: one 8-bit word, one length (30_encoding.md R71), by the
reference. -/
def decodeTableWord (nbits w : Nat) : Option Instr :=
  if nbits = 8 then (decode .reference (commandOfWord w)).toOption else none

end Sys2Proof
end

