-- ==== Sys2Proof/Machine/State.lean ====
section
/-! DEFINITION. The whole state: the eleven registers of 10_state.md R24 in their three groups, what the host holds of
the run in progress (30_encoding.md R80), and the instance's bound on buffer lengths; the reasons a step can stop; the
state after reset. -/

namespace Sys2Proof.Machine

/-- The status of a response (60_exceptions.md R230). -/
inductive Status where
  | ok
  | formatError
  | degenerateSignalError
  /-- Reserved; no operation ends in it (41_hamming.md R104, 60_exceptions.md R233). -/
  | uncorrectableBlockError
deriving DecidableEq, Repr

/-- The diagnostic `info` of `raise <Error>(info)` (60_exceptions.md R234), seen by no later command. -/
inductive ErrorInfo where
  /-- The offending length: of the block, the vector, `num_bits`, or the received stream. -/
  | length (n : Nat)
  /-- QDEM: a reference whose length is not `N` (42_qpsk.md R127). -/
  | referenceLength
  /-- BERCMP, BERSWEEP: an empty original (46_ber.md R202). -/
  | emptyOriginal
  /-- BERCMP, BERSWEEP: a decoded vector shorter than the original (46_ber.md R202). -/
  | decodedTooShort
  /-- BERSWEEP: an odd encoded length (46_ber.md R203). -/
  | oddEncodedLength
  /-- BERSWEEP: encoded bits that are not whole codewords (46_ber.md R203). -/
  | notWholeCodewords
  /-- AGC: an empty signal (44_conditioner.md R164). -/
  | emptySignal
  /-- AGC: every sample is zero (44_conditioner.md R161). -/
  | zeroAmplitude
deriving DecidableEq, Repr

/-- A response (30_encoding.md R70): the status, the results, present only with `OK`, and the diagnostic of an
error. -/
structure Response where
  status : Status
  results : List Value
  info : Option ErrorInfo
deriving DecidableEq, Repr

/-- The PLL group (10_state.md R24 to R27). -/
structure Pll where
  /-- `PLL.PHASE`, radians, never wrapped (R26). -/
  phase : RealExpr
  /-- `PLL.INTEG`, radians per second. -/
  integ : RealExpr
  /-- `PLL.FREQ`, the last sample's `freq_estimate` (R27). -/
  freq : RealExpr
deriving DecidableEq, Repr

/-- The LPF group (10_state.md R24, R28 to R30). -/
structure Lpf where
  /-- `LPF.CFGD`. -/
  cfgd : Bool
  /-- `LPF.ORD`. -/
  ord : Nat
  /-- `LPF.B`, the coefficients `b_0 .. b_n`. -/
  b : List RealExpr
  /-- `LPF.A`, the coefficients `a_1 .. a_n`. -/
  a : List RealExpr
  /-- `LPF.XH`, `XH[k−1]` the input `k` samples back. -/
  xh : List Cplx
  /-- `LPF.YH`, `YH[k−1]` the output `k` samples back. -/
  yh : List Cplx
deriving DecidableEq, Repr

/-- The RNG group (10_state.md R24, R31 to R33). -/
structure Rng where
  /-- `RNG.SEED`. -/
  seed : Nat
  /-- `RNG.COUNT`, the draws consumed since the last seeding. -/
  count : Nat
deriving DecidableEq, Repr

/-- An operand as the host writes it: a value, or the name of an earlier result (30_encoding.md R79). -/
inductive Arg where
  | lit (v : Value)
  | name (n : Nat)
deriving DecidableEq, Repr

/-- One command of the host's list, `MNEMONIC operand, .. -> result, ..` (30_encoding.md R79, R80). Host variables are
numbered. -/
structure HostCommand where
  op : BitVec 8
  operands : List Arg
  results : List Nat
deriving DecidableEq, Repr

/-- What the host holds of its run (30_encoding.md R80). MODEL's own fields, log 8: none of it is core state
(10_state.md R21 to R23). -/
structure HostRun where
  /-- The finite list of commands. -/
  program : List HostCommand
  /-- `pc`, the index of the next command (10_state.md R21). -/
  pc : Nat
  /-- The bound names, latest first (47_boundaries.md R224). -/
  names : List (Nat × Value)
  /-- The last response. -/
  response : Option Response
  /-- The error status that ended the run. -/
  stopped : Option Status
deriving DecidableEq, Repr

/-- The state of the machine and of the host's run. -/
structure State where
  pll : Pll
  lpf : Lpf
  rng : Rng
  host : HostRun
  /-- MAXLEN (20_memory.md R53): the longest buffer, or none if unbounded. A parameter of the instance, written by no
  step; held here so that statements are about every value of it (log 5). -/
  maxLen : Option Nat
  /-- Which `NUM` (00_scope.md R10) the instance has. A parameter of the instance, written by no step; held here so that
  statements are about every value of it (log 26). -/
  num : NumFormat
deriving DecidableEq, Repr

/-- The machine never stops with a fault: an error is a response, after which the core is ready for the next command
(60_exceptions.md R237, R249), and nothing is stuck or hangs (R249). No constructor; log 15. -/
inductive Fault where
deriving DecidableEq, Repr

/-- Why a command has no meaning (60_exceptions.md R238). A refused command has no successor state: safe, since
nothing can be proved of what follows it. -/
inductive Refusal where
  /-- Raised by `exec` for an instruction without a meaning. Safe. -/
  | notModelled (mnemonic : String)
  /-- F1 and F2, raised by `step` when the host's command decodes to no instruction. Safe. -/
  | undecodable (e : DecodeError)
  /-- Raised by `step` when a command names a host variable that is not bound: no value is presented, so F2. Safe. -/
  | unboundName (n : Nat)
  /-- F3, raised by every meaning with a buffer longer than MAXLEN among its operands or results. Safe. -/
  | overMaxLen
  /-- F4, raised by QMOD, QDEM, BERSWEEP outside `Tb > 0`, `N ≥ 1` (42_qpsk.md R131, 46_ber.md R203). Safe. -/
  | modulationDomain
  /-- F5, raised by PLLADV, PLLRUN with a sample rate that is not positive (43_pll.md R146). Safe. -/
  | sampleRateDomain
  /-- F6, raised by LPFCFG, LPF outside the filter's parameter domain (44_conditioner.md R171). Safe. -/
  | filterDomain
  /-- F7, raised by LPFADV before any LPFCFG or LPF (44_conditioner.md R169). Safe. -/
  | filterNotConfigured
  /-- F8, raised under a finite-precision `NUM` by every meaning with a non-finite sample or real parameter among its
  operands (43_pll.md R148, 44_conditioner.md R165, R173, 45_channel.md R193). Safe. -/
  | nonFinite
deriving DecidableEq, Repr

/-- What a step answers. -/
abbrev StepResult := Host.Outcome State Fault Refusal

/-- The reset values of 10_state.md R38 and 70_reset_and_hazards.md R260; the host's run is empty with `pc = 0` and no
error recorded (R262; log 8, log 24), lengths are unbounded and arithmetic is exact,
as in the reference (00_scope.md R9, R10; log 5, log 26). -/
def State.reset : State where
  pll := ⟨.zero, .zero, .zero⟩
  lpf := ⟨false, 0, [], [], [], []⟩
  rng := ⟨Config.seed0, 0⟩
  host := ⟨[], 0, [], none, none⟩
  maxLen := none
  num := .exact

end Sys2Proof.Machine
end

