-- ==== Sys2Proof/Machine/Flags.lean ====
section
/-! DEFINITION. The core has no flags, condition codes or predicate registers; the only outcome indicator is the status
of each response (10_state.md R22). Its numeric codes (60_exceptions.md R230) stand here. -/

namespace Sys2Proof.Machine

/-- The code of a status (60_exceptions.md R230). -/
def Status.code : Status → Nat
  | .ok => 0
  | .formatError => 1
  | .degenerateSignalError => 2
  | .uncorrectableBlockError => 3

end Sys2Proof.Machine
end

