-- ==== Sys2Proof/Machine/Ops.lean ====
section
/-! DEFINITION. The operations every meaning is made of: ending a command with results, ending it with an error status,
the checks every command starts with, the writes to the register groups. -/

namespace Sys2Proof.Machine

/-- The registers with another response in the host's hands. -/
def State.withResponse (s : State) (r : Response) : State := { s with host := { s.host with response := some r } }

/-- The PLL group written. -/
def State.withPll (s : State) (p : Pll) : State := { s with pll := p }

/-- The LPF group written. -/
def State.withLpf (s : State) (l : Lpf) : State := { s with lpf := l }

/-- `RNG.COUNT` written. -/
def State.withCount (s : State) (c : Nat) : State := { s with rng := { s.rng with count := c } }

/-- `RNG.SEED` and `RNG.COUNT` written. -/
def State.withRng (s : State) (r : Rng) : State := { s with rng := r }

/-- Whether a buffer of one of these lengths exceeds MAXLEN (20_memory.md R53). -/
def State.exceeds (s : State) (lengths : List Nat) : Bool :=
  match s.maxLen with
  | none => false
  | some m => lengths.any fun n => decide (m < n)

/-- The buffer lengths of a list of values. -/
def bufferLengths (vs : List Value) : List Nat := vs.map Value.bufferLength

/-- `respond OK, results` (30_encoding.md R70) from the state the command leaves; a result longer than MAXLEN is
refused (60_exceptions.md R238 F3). -/
def respond (s : State) (results : List Value) : StepResult :=
  if s.exceeds (bufferLengths results) then .refused .overMaxLen
  else .next (s.withResponse ⟨.ok, results, none⟩)

/-- `raise <Error>(info)` (60_exceptions.md R235, R237): the command ends with the error status, no result and every
register as it was. Nothing is saved and control goes nowhere, so there is no return beside it (R237). -/
def raise (s : State) (status : Status) (info : ErrorInfo) : StepResult :=
  .next (s.withResponse ⟨status, [], some info⟩)

/-- The arithmetic of the instance. -/
def State.arith (s : State) : Numerics := s.num.num

/-- A command whose operand buffers are within MAXLEN (60_exceptions.md R238 F3) and whose samples and real parameters
are finite numbers (F8) goes on; both are decided before any work (R239). A finite operand is taken as it stands, neither
rounded to the format nor refused (DESIGN CHOICE, log 26). -/
def accept (s : State) (i : Instr) (k : StepResult) : StepResult :=
  if s.exceeds (bufferLengths i.operands) then .refused .overMaxLen
  else if i.numbers.all s.arith.finite then k
  else .refused .nonFinite

end Sys2Proof.Machine
end

