-- ==== Sys2Proof/Machine/Channel.lean ====
section
/-! DEFINITION. Unit 5, ChannelSimulator (45_channel.md): AWGN and RNGSEED over the RNG group. -/

namespace Sys2Proof

/-- `noise_std(snr_db) = sqrt(1/(2·10^(snr_db/10)))` (45_channel.md R194). -/
def noiseStd (M : Numerics) (snrDb : RealExpr) : RealExpr :=
  M.sqrt (M.div (M.const 1) (M.mul (M.const 2) (M.exp10 (M.div snrDb (M.const 10)))))

/-- The draws a stream consumes (45_channel.md R195). -/
def drawsFor (w : Stream) : Nat :=
  match w.kind with
  | .real => w.length
  | .cplx => 2 * w.length

/-- `σ·GAUSS(seed, i)` (45_channel.md R193). -/
def scaledDraw (M : Numerics) (sigma : RealExpr) (seed i : Nat) : RealExpr := M.mul sigma (M.round (.gauss seed i))

/-- Sample `i` with its noise, the draws counted from `c` under `seed` (45_channel.md R193, R195). -/
def noisySample (M : Numerics) (kind : Kind) (sigma : RealExpr) (seed c : Nat) (z : Cplx) (i : Nat) : Cplx :=
  match kind with
  | .real => ⟨M.add z.re (scaledDraw M sigma seed (c + i)), z.im⟩
  | .cplx => M.cadd z ⟨scaledDraw M sigma seed (c + 2 * i), scaledDraw M sigma seed (c + 2 * i + 1)⟩

/-- The noisy stream (45_channel.md R193). -/
def addNoise (M : Numerics) (w : Stream) (snrDb : RealExpr) (seed c : Nat) : Stream :=
  .make w.kind (w.samples.mapIdx fun i z => noisySample M w.kind (noiseStd M snrDb) seed c z i)

namespace Machine

/-- AWGN (45_channel.md R193). -/
def execAwgn (signal : Stream) (snrDb : RealExpr) (s : State) : StepResult :=
  accept s (.awgn signal snrDb) <|
  respond (s.withCount (s.rng.count + drawsFor signal))
    [.stream (addNoise s.arith signal snrDb s.rng.seed s.rng.count)]

/-- RNGSEED (45_channel.md R192). -/
def execRngseed (seed : Nat) (s : State) : StepResult :=
  accept s (.rngseed seed) <| respond (s.withRng ⟨seed, 0⟩) []

end Machine

end Sys2Proof
end

