-- ==== Sys2Proof/Machine/Hamming.lean ====
section
/-! DEFINITION. Unit 1, HammingCodec (41_hamming.md): the (7,4) code and HENCB, HDECB, HENC, HDEC. Bit-exact, no
state. -/

namespace Sys2Proof

/-- The generator matrix `G`, row by row (41_hamming.md R91). -/
def generatorMatrix : List (List Bit) :=
  [[true, false, false, false, false, true, true],
   [false, true, false, false, true, false, true],
   [false, false, true, false, true, true, false],
   [false, false, false, true, true, true, true]]

/-- The parity-check matrix `H`, row by row (41_hamming.md R93). -/
def parityCheckMatrix : List (List Bit) :=
  [[false, false, false, true, true, true, true],
   [false, true, true, false, false, true, true],
   [true, false, true, false, true, false, true]]

/-- The bits of a block, position 1 first. -/
def Block4.toBits (d : Block4) : BitVector := [d.d1, d.d2, d.d3, d.d4]

/-- The bits of a block, position 1 first. -/
def Block7.toBits (r : Block7) : BitVector := [r.r1, r.r2, r.r3, r.r4, r.r5, r.r6, r.r7]

/-- Block encoding `encb` (41_hamming.md R92): the data bits, then the three parity bits. -/
def encb (d : Block4) : Block7 where
  r1 := d.d1
  r2 := d.d2
  r3 := d.d3
  r4 := d.d4
  r5 := d.d2 ^^ d.d3 ^^ d.d4
  r6 := d.d1 ^^ d.d3 ^^ d.d4
  r7 := d.d1 ^^ d.d2 ^^ d.d4

/-- The syndrome `s = H·r`, `(s0, s1, s2)` (41_hamming.md R95). -/
def syndrome (r : Block7) : Bit × Bit × Bit :=
  (r.r4 ^^ r.r5 ^^ r.r6 ^^ r.r7, r.r2 ^^ r.r3 ^^ r.r6 ^^ r.r7, r.r1 ^^ r.r3 ^^ r.r5 ^^ r.r7)

/-- The syndrome read as a 1-indexed position, 0 for no error; `s0` is the most significant (41_hamming.md R95). -/
def synpos (r : Block7) : Nat :=
  4 * (syndrome r).1.digit + 2 * (syndrome r).2.1.digit + (syndrome r).2.2.digit

/-- The block with the bit at position `p` complemented; unchanged for a `p` that is no position. -/
def flipAt (r : Block7) (p : Nat) : Block7 :=
  match p with
  | 1 => { r with r1 := !r.r1 }
  | 2 => { r with r2 := !r.r2 }
  | 3 => { r with r3 := !r.r3 }
  | 4 => { r with r4 := !r.r4 }
  | 5 => { r with r5 := !r.r5 }
  | 6 => { r with r6 := !r.r6 }
  | 7 => { r with r7 := !r.r7 }
  | _ => r

/-- Correction `fix` (41_hamming.md R96). -/
def fixBlock (r : Block7) : Block7 := flipAt r (synpos r)

/-- The data positions of a block. -/
def dataOf (r : Block7) : Block4 := ⟨r.r1, r.r2, r.r3, r.r4⟩

/-- Block decoding `decb` (41_hamming.md R97): the corrected data and the position named by the syndrome. -/
def decb (r : Block7) : Block4 × Nat := (dataOf (fixBlock r), synpos r)

/-- Padded on the right with zero bits to a multiple of 4 (41_hamming.md R101). -/
def padTo4 (v : BitVector) : BitVector := v ++ List.replicate ((4 - v.length % 4) % 4) false

/-- Partition into 4-bit blocks, in order. A rest shorter than a block does not occur after padding. -/
def blocks4 : BitVector → List Block4
  | d1 :: d2 :: d3 :: d4 :: rest => ⟨d1, d2, d3, d4⟩ :: blocks4 rest
  | _ => []

/-- Partition into 7-bit blocks, in order. A rest shorter than a block does not occur after HDEC's length check. -/
def blocks7 : BitVector → List Block7
  | r1 :: r2 :: r3 :: r4 :: r5 :: r6 :: r7 :: rest => ⟨r1, r2, r3, r4, r5, r6, r7⟩ :: blocks7 rest
  | _ => []

/-- The encoded vector of HENC (41_hamming.md R101). -/
def hammingEncode (data : BitVector) : BitVector := (blocks4 (padTo4 data)).flatMap fun d => (encb d).toBits

/-- The decoded vector of HDEC (41_hamming.md R103), for whole codewords. -/
def hammingDecode (encoded : BitVector) : BitVector := (blocks7 encoded).flatMap fun r => (decb r).1.toBits

/-- The position of each block of HDEC (41_hamming.md R103, R107). -/
def hammingPositions (encoded : BitVector) : List Nat := (blocks7 encoded).map fun r => (decb r).2

/-- `pack4` of 30_encoding.md R77: print notation, position 1 most significant. -/
def pack4 (d : Block4) : Nat := d.toBits.foldl (fun n b => 2 * n + b.digit) 0

/-- `pack7` of 30_encoding.md R77. -/
def pack7 (r : Block7) : Nat := r.toBits.foldl (fun n b => 2 * n + b.digit) 0

/-- The parity-bit indices of an encoded vector of length `n` (41_hamming.md R107). -/
def parityIndices (n : Nat) : List Nat := (List.range n).filter fun i => decide (4 ≤ i % 7)

namespace Machine

/-- HENC (41_hamming.md R101): pads, partitions, encodes; no error case. -/
def execHenc (data : BitVector) (s : State) : StepResult :=
  accept s (.henc data) <| respond s [.ofBits (hammingEncode data)]

/-- HDEC (41_hamming.md R103): FormatError before any block is decoded when the length is not a multiple of 7. -/
def execHdec (encoded : BitVector) (s : State) : StepResult :=
  accept s (.hdec encoded) <|
  if encoded.length % 7 ≠ 0 then raise s .formatError (.length encoded.length)
  else respond s [.ofBits (hammingDecode encoded), .positions (hammingPositions encoded)]

/-- HENCB (41_hamming.md R100): one block, FormatError for any other length. -/
def execHencb (d : BitVector) (s : State) : StepResult :=
  accept s (.hencb d) <|
  match d with
  | [d1, d2, d3, d4] => respond s [.ofBits (encb ⟨d1, d2, d3, d4⟩).toBits]
  | d => raise s .formatError (.length d.length)

/-- HDECB (41_hamming.md R102): one block, FormatError for any other length. -/
def execHdecb (r : BitVector) (s : State) : StepResult :=
  accept s (.hdecb r) <|
  match r with
  | [r1, r2, r3, r4, r5, r6, r7] =>
    respond s [.ofBits (decb ⟨r1, r2, r3, r4, r5, r6, r7⟩).1.toBits,
      .ofNat (decb ⟨r1, r2, r3, r4, r5, r6, r7⟩).2]
  | r => raise s .formatError (.length r.length)

end Machine

end Sys2Proof
end

