-- ==== Sys2Proof/Machine/Qpsk.lean ====
section
/-! DEFINITION. Unit 2, QPSKWaveform (42_qpsk.md): QMOD and QDEM. No state. -/

namespace Sys2Proof

/-- The bit pairs of an encoded vector, in order (42_qpsk.md R121). -/
def symbolPairs : BitVector → List (Bit × Bit)
  | b0 :: b1 :: rest => (b0, b1) :: symbolPairs rest
  | _ => []

/-- A constellation coordinate, +1 or −1, unscaled (42_qpsk.md R121, R122). -/
def railPoint (b : Bit) : Int := if b then 1 else -1

section
variable (M : Numerics)

/-- The local sample instant `t_k = k·Tb/N` (42_qpsk.md R122), `k` and `N` rounded to the format (DESIGN CHOICE, log 26). -/
def sampleInstant (Tb : RealExpr) (N k : Nat) : RealExpr := M.div (M.mul (M.const k) Tb) (M.const N)

/-- The carrier argument `2π·fc·t_k` (42_qpsk.md R122, R125). -/
def carrierArg (Tb fc : RealExpr) (N k : Nat) : RealExpr := M.mul (M.mul M.twoPi fc) (sampleInstant M Tb N k)

/-- The amplitude scale `A = sqrt(2/Tb)` (42_qpsk.md R122). -/
def amplitudeScale (Tb : RealExpr) : RealExpr := M.sqrt (M.div (M.const 2) Tb)

/-- Sample `k` of the symbol of bits `(b0, b1)`: `A·(I·cos(2π·fc·t) + Q·sin(2π·fc·t))` (42_qpsk.md R123). -/
def symbolSample (Tb fc : RealExpr) (N : Nat) (b : Bit × Bit) (k : Nat) : RealExpr :=
  M.mul (amplitudeScale M Tb)
    (M.add (M.mul (M.amp b.1) (M.cos (carrierArg M Tb fc N k))) (M.mul (M.amp b.2) (M.sin (carrierArg M Tb fc N k))))

/-- The samples of QMOD, kind REAL (42_qpsk.md R123). -/
def modulate (encoded : BitVector) (Tb fc : RealExpr) (N : Nat) : Stream :=
  ⟨.real, (symbolPairs encoded).flatMap fun b =>
    (List.range N).map fun k => Cplx.ofReal (symbolSample M Tb fc N b k)⟩

/-- The global time axis of `K` symbols: `m·Tb + t_k` (42_qpsk.md R122), `m` rounded to the format (DESIGN CHOICE, log
26). -/
def timeAxis (K : Nat) (Tb : RealExpr) (N : Nat) : List RealExpr :=
  (List.range K).flatMap fun m =>
    (List.range N).map fun k => M.add (M.mul (M.const m) Tb) (sampleInstant M Tb N k)

/-- The matching cosine reference (42_qpsk.md R125). -/
def matchingCos (Tb fc : RealExpr) (N : Nat) : List RealExpr :=
  (List.range N).map fun k => M.cos (carrierArg M Tb fc N k)

/-- The matching sine reference (42_qpsk.md R125). -/
def matchingSin (Tb fc : RealExpr) (N : Nat) : List RealExpr :=
  (List.range N).map fun k => M.sin (carrierArg M Tb fc N k)

/-- Correlation of symbol `m` with a reference (42_qpsk.md R126): real parts only. -/
def correlation (received : List Cplx) (reference : List RealExpr) (N m : Nat) : RealExpr :=
  M.sumRange N fun k => M.mul (received.getD (m * N + k) .zero).re (reference.getD k .zero)

/-- The decisions of `K` symbols, I-rail bit first (42_qpsk.md R127, R128). -/
def demodulate (received : List Cplx) (referenceCos referenceSin : List RealExpr) (N K : Nat) : BitVector :=
  (List.range K).flatMap fun m =>
    [M.dec (correlation M received referenceCos N m), M.dec (correlation M received referenceSin N m)]

/-- The parameter domain of modulation: `Tb > 0` and `N ≥ 1` (42_qpsk.md R131). -/
def modulationDomain (Tb : RealExpr) (N : Nat) : Bool := M.isPos Tb && decide (1 ≤ N)

end

/-- The constellation points (42_qpsk.md R121, R123). -/
def constellation (encoded : BitVector) : List (Int × Int) :=
  (symbolPairs encoded).map fun b => (railPoint b.1, railPoint b.2)

namespace Machine

/-- QMOD (42_qpsk.md R123). -/
def execQmod (encoded : BitVector) (Tb fc : RealExpr) (N : Nat) (s : State) : StepResult :=
  accept s (.qmod encoded Tb fc N) <|
  if modulationDomain s.arith Tb N = false then .refused .modulationDomain
  else if encoded.length % 2 ≠ 0 then raise s .formatError (.length encoded.length)
  else
    respond s [.stream (modulate s.arith encoded Tb fc N), .reals (timeAxis s.arith (encoded.length / 2) Tb N),
      .points (constellation encoded)]

/-- QDEM (42_qpsk.md R127): the checks in the order of 60_exceptions.md R231. -/
def execQdem (received : Stream) (referenceCos referenceSin : List RealExpr) (numBits N : Nat) (s : State) :
    StepResult :=
  accept s (.qdem received referenceCos referenceSin numBits N) <|
  if N = 0 then .refused .modulationDomain
  else if numBits % 2 ≠ 0 then raise s .formatError (.length numBits)
  else if referenceCos.length ≠ N ∨ referenceSin.length ≠ N then raise s .formatError .referenceLength
  else if received.length < numBits / 2 * N then raise s .formatError (.length received.length)
  else respond s [.ofBits (demodulate s.arith received.samples referenceCos referenceSin N (numBits / 2))]

end Machine

end Sys2Proof
end

