-- ==== Sys2Proof/Machine/BerSweep.lean ====
section
/-! DEFINITION. Unit 6, BERSweepEngine (46_ber.md): BERCMP and BERSWEEP. -/

namespace Sys2Proof

/-- The number of positions `i < len(original)` at which the vectors differ (46_ber.md R201), for a decoded vector
that is long enough. -/
def bitErrors : BitVector → BitVector → Nat
  | o :: os, d :: ds => (if o ≠ d then 1 else 0) + bitErrors os ds
  | _, _ => 0

/-- `ber = errors / len(original)`, an exact rational (46_ber.md R201). -/
def bitErrorRate (original decoded : BitVector) : ℚ := (bitErrors original decoded : ℚ) / original.length

/-- One sweep point: AWGN, QDEM, HDEC, BERCMP on the clean waveform `w` (46_ber.md R203, R205), the draws counted
from `c`. -/
def sweepPoint (M : Numerics) (w : Stream) (refc refs : List RealExpr) (N numBits : Nat) (original : BitVector) (seed c : Nat)
    (snrDb : RealExpr) : RealExpr × ℚ :=
  (snrDb, bitErrorRate original
    (hammingDecode (demodulate M (addNoise M w snrDb seed c).samples refc refs N (numBits / 2))))

/-- The points in input order, each with fresh draws (46_ber.md R203, R206). -/
def sweepCurve (M : Numerics) (w : Stream) (refc refs : List RealExpr) (N numBits : Nat) (original : BitVector) (seed : Nat) :
    Nat → List RealExpr → List (RealExpr × ℚ)
  | _, [] => []
  | c, x :: xs =>
    sweepPoint M w refc refs N numBits original seed c x ::
      sweepCurve M w refc refs N numBits original seed (c + drawsFor w) xs

namespace Machine

/-- BERSWEEP (46_ber.md R203): the checks first, in the order of 60_exceptions.md R231 (46_ber.md R204), one
modulation, then the points. -/
def execBersweep (encoded originalBits : BitVector) (snrRange : List RealExpr) (Tb fc : RealExpr) (N : Nat)
    (s : State) : StepResult :=
  accept s (.bersweep encoded originalBits snrRange Tb fc N) <|
  if modulationDomain s.arith Tb N = false then .refused .modulationDomain
  else if encoded.length % 2 ≠ 0 then raise s .formatError .oddEncodedLength
  else if encoded.length % 7 ≠ 0 then raise s .formatError .notWholeCodewords
  else if originalBits.length = 0 then raise s .formatError .emptyOriginal
  else if 4 * encoded.length / 7 < originalBits.length then raise s .formatError .decodedTooShort
  else
    let w := modulate s.arith encoded Tb fc N
    respond (s.withCount (s.rng.count + snrRange.length * drawsFor w))
      [.curve (sweepCurve s.arith w (matchingCos s.arith Tb fc N) (matchingSin s.arith Tb fc N) N encoded.length
        originalBits s.rng.seed s.rng.count snrRange)]

/-- BERCMP (46_ber.md R201, R202). -/
def execBercmp (originalBits decodedBits : BitVector) (s : State) : StepResult :=
  accept s (.bercmp originalBits decodedBits) <|
  if originalBits.length = 0 then raise s .formatError .emptyOriginal
  else if decodedBits.length < originalBits.length then raise s .formatError .decodedTooShort
  else
    respond s [.ofNat (bitErrors originalBits decodedBits), .scalar (.rat (bitErrorRate originalBits decodedBits))]

end Machine

end Sys2Proof
end

