-- ==== Sys2Proof/Machine/CarrierRecovery.lean ====
section
/-! DEFINITION. Unit 3, CarrierRecovery (43_pll.md): PLLRST, PLLADV, PLLRUN over the PLL group. -/

namespace Sys2Proof

section
variable (M : Numerics)

/-- `Kp = 2π·loop_bandwidth` (43_pll.md R141), multiplied from left to right (log 26). -/
def gainKp (loopBandwidth : RealExpr) : RealExpr := M.mul M.twoPi loopBandwidth

/-- `Ki = Kp²/4` (43_pll.md R141). -/
def gainKi (loopBandwidth : RealExpr) : RealExpr :=
  M.div (M.mul (gainKp M loopBandwidth) (gainKp M loopBandwidth)) (M.const 4)

/-- `x · exp(−j·phase)`, the oscillator and mixer (43_pll.md R140, R143). -/
def derotate (x : Cplx) (phase : RealExpr) : Cplx := M.cmul x (M.expj (M.neg phase))

end

namespace Machine

section
variable (M : Numerics)

/-- `phase_error`, measured with the old phase (43_pll.md R143). -/
def phaseError (x : Cplx) (p : Pll) : RealExpr := M.angle (derotate M x p.phase)

/-- The registers after one sample, the assignments in the source's order (43_pll.md R143). -/
def pllNext (x : Cplx) (fs loopBandwidth : RealExpr) (p : Pll) : Pll :=
  let e := phaseError M x p
  let integ := M.add p.integ (M.mul (gainKi M loopBandwidth) e)
  let freq := M.add integ (M.mul (gainKp M loopBandwidth) e)
  ⟨M.add p.phase (M.div freq fs), integ, freq⟩

/-- The output sample, turned back by the phase after this sample's update (43_pll.md R143). -/
def pllOutput (x : Cplx) (fs loopBandwidth : RealExpr) (p : Pll) : Cplx :=
  derotate M x (pllNext M x fs loopBandwidth p).phase

/-- The loop over a stream, strictly ascending: the outputs and the registers left (43_pll.md R145). -/
def pllLoop (fs loopBandwidth : RealExpr) : List Cplx → Pll → List Cplx × Pll
  | [], p => ([], p)
  | x :: xs, p =>
    let r := pllLoop fs loopBandwidth xs (pllNext M x fs loopBandwidth p)
    (pllOutput M x fs loopBandwidth p :: r.1, r.2)

end

/-- PLLRUN (43_pll.md R145): the loop is not reset, the result's kind is CPLX. -/
def execPllrun (signal : Stream) (fs loopBandwidth : RealExpr) (s : State) : StepResult :=
  accept s (.pllrun signal fs loopBandwidth) <|
  if s.arith.isPos fs = false then .refused .sampleRateDomain
  else
    let r := pllLoop s.arith fs loopBandwidth signal.samples s.pll
    respond (s.withPll r.2) [.stream (.make .cplx r.1), .scalar r.2.freq]

/-- PLLADV (43_pll.md R144). -/
def execPlladv (sample : Cplx) (fs loopBandwidth : RealExpr) (s : State) : StepResult :=
  accept s (.plladv sample fs loopBandwidth) <|
  if s.arith.isPos fs = false then .refused .sampleRateDomain
  else
    let p := pllNext s.arith sample fs loopBandwidth s.pll
    respond (s.withPll p) [.sample (pllOutput s.arith sample fs loopBandwidth s.pll), .scalar p.freq]

/-- PLLRST (43_pll.md R142). -/
def execPllrst (s : State) : StepResult :=
  accept s .pllrst <| respond (s.withPll ⟨.zero, .zero, .zero⟩) []

end Machine

end Sys2Proof
end

