-- ==== Sys2Proof/Machine/Conditioner.lean ====
section
/-! DEFINITION. Unit 4, SignalConditioner (44_conditioner.md): AGC, and the Butterworth low-pass filter with LPFCFG,
LPFADV, LPF over the LPF group. -/

namespace Sys2Proof

/-- `max |signal[i]|` of a nonempty signal (44_conditioner.md R161), the instance's `max` taken from the first sample on
(DESIGN CHOICE, log 26). -/
def peak (M : Numerics) (first : Cplx) (rest : List Cplx) : RealExpr :=
  rest.foldl (fun m z => M.max m (M.cabs z)) (M.cabs first)

/-! ### The Butterworth design (44_conditioner.md R167), over the exact numbers -/

/-- The pre-warped analog cutoff `Ωc = tan(π·Wn/2)`. -/
def warpedCutoff (Wn : RealExpr) : RealExpr := ((RealExpr.pi.mul Wn).div (.rat 2)).tan

/-- The analog pole `s_k = Ωc·exp(j·π·(2k + n + 1)/(2n))`. -/
def analogPole (n : Nat) (Wn : RealExpr) (k : Nat) : Cplx :=
  Cplx.scale (warpedCutoff Wn)
    (Cplx.expj (RealExpr.scale ((2 * k + n + 1 : ℚ) / (2 * n)) .pi))

/-- The digital pole `z_k = (1 + s_k)/(1 − s_k)`. -/
def digitalPole (n : Nat) (Wn : RealExpr) (k : Nat) : Cplx :=
  let s := analogPole n Wn k
  let one := Cplx.ofReal .one
  (one.add s).div (one.sub s)

/-- The polynomial `p·(1 − z·x)`, coefficients ascending, for `p = c :: rest`: each coefficient minus `z` times the one
before it. -/
def timesRootFactor (z : Cplx) : Cplx → List Cplx → List Cplx
  | before, [] => [Cplx.zero.sub (z.mul before)]
  | before, c :: cs => (c.sub (z.mul before)) :: timesRootFactor z c cs

/-- The coefficients of `Π_{k=0..m−1} (1 − z_k·x)` after the constant 1, ascending. -/
def denominator (n : Nat) (Wn : RealExpr) : Nat → List Cplx
  | 0 => []
  | m + 1 => timesRootFactor (digitalPole n Wn m) (Cplx.ofReal .one) (denominator n Wn m)

/-- `a_1 .. a_n`, exact; the coefficients come out real, so the real parts are taken (log 13). -/
def butterA (n : Nat) (Wn : RealExpr) : List RealExpr := (denominator n Wn n).map (·.re)

/-- `g = (1 + a_1 + .. + a_n)/2^n`. -/
def butterGain (n : Nat) (Wn : RealExpr) : RealExpr :=
  ((butterA n Wn).foldl RealExpr.add .one).div (.rat (2 ^ n))

/-- `b_i = g·C(n, i)`, `i = 0 .. n`, exact. -/
def butterB (n : Nat) (Wn : RealExpr) : List RealExpr :=
  (List.range (n + 1)).map fun i => (butterGain n Wn).mul (.ofNat (n.choose i))

/-- The normalised cutoff `Wn = cutoff_freq/(fs/2)` (44_conditioner.md R168). -/
def normalisedCutoff (M : Numerics) (cutoffFreq fs : RealExpr) : RealExpr := M.div cutoffFreq (M.div fs (M.const 2))

/-- The parameter domain of the filter: `fs > 0`, `order ≥ 1`, `0 < Wn < 1` (44_conditioner.md R168, R171). -/
def filterDomain (M : Numerics) (cutoffFreq fs : RealExpr) (order : Nat) : Bool :=
  M.isPos fs && decide (1 ≤ order) && M.isPos (normalisedCutoff M cutoffFreq fs) &&
    M.isBelowOne (normalisedCutoff M cutoffFreq fs)

namespace Machine

section
variable (M : Numerics)

/-- The LPF group after LPFCFG: designed and cleared (44_conditioner.md R168); the coefficients are the format's
roundings of the exact ones (R167). -/
def designFilter (cutoffFreq fs : RealExpr) (order : Nat) : Lpf where
  cfgd := true
  ord := order
  b := (butterB order (normalisedCutoff M cutoffFreq fs)).map M.round
  a := (butterA order (normalisedCutoff M cutoffFreq fs)).map M.round
  xh := List.replicate order Cplx.zero
  yh := List.replicate order Cplx.zero

/-- One part of the output of one sample, the direct-form difference equation (44_conditioner.md R169), with `part` the
real or the imaginary part: the coefficients are real, so the two are filtered alike (R172). Outside the invariant of
10_state.md R29 a missing entry counts as 0 (log 11). -/
def filterPart (part : Cplx → RealExpr) (l : Lpf) (x : Cplx) : RealExpr :=
  M.sub
    (M.add (M.mul (l.b.getD 0 .zero) (part x))
      (M.sumRange l.ord fun k => M.mul (l.b.getD (k + 1) .zero) (part (l.xh.getD k .zero))))
    (M.sumRange l.ord fun k => M.mul (l.a.getD k .zero) (part (l.yh.getD k .zero)))

/-- The output of one sample (44_conditioner.md R169). -/
def filterOutput (l : Lpf) (x : Cplx) : Cplx := ⟨filterPart M Cplx.re l x, filterPart M Cplx.im l x⟩

/-- The LPF group after one sample: the newest input and output shifted in (44_conditioner.md R169). -/
def filterNext (l : Lpf) (x : Cplx) : Lpf :=
  { l with
    xh := x :: l.xh.take (l.ord - 1)
    yh := filterOutput M l x :: l.yh.take (l.ord - 1) }

/-- The filter over a stream, strictly ascending: the outputs and the registers left (44_conditioner.md R170). -/
def filterLoop : List Cplx → Lpf → List Cplx × Lpf
  | [], l => ([], l)
  | x :: xs, l =>
    let r := filterLoop xs (filterNext M l x)
    (filterOutput M l x :: r.1, r.2)

end

/-- AGC (44_conditioner.md R161, R164). -/
def execAgc (signal : Stream) (targetLevel : RealExpr) (s : State) : StepResult :=
  accept s (.agc signal targetLevel) <|
  match signal.samples with
  | [] => raise s .degenerateSignalError .emptySignal
  | z :: zs =>
    if s.arith.isZero (peak s.arith z zs) then raise s .degenerateSignalError .zeroAmplitude
    else
      respond s [.stream (.make signal.kind
        ((z :: zs).map (s.arith.cscale (s.arith.div targetLevel (peak s.arith z zs)))))]

/-- LPF (44_conditioner.md R170): LPFCFG, then LPFADV for each sample. -/
def execLpf (signal : Stream) (cutoffFreq fs : RealExpr) (order : Nat) (s : State) : StepResult :=
  accept s (.lpf signal cutoffFreq fs order) <|
  if filterDomain s.arith cutoffFreq fs order = false then .refused .filterDomain
  else
    let r := filterLoop s.arith signal.samples (designFilter s.arith cutoffFreq fs order)
    respond (s.withLpf r.2) [.stream (.make signal.kind r.1)]

/-- LPFCFG (44_conditioner.md R168). -/
def execLpfcfg (cutoffFreq fs : RealExpr) (order : Nat) (s : State) : StepResult :=
  accept s (.lpfcfg cutoffFreq fs order) <|
  if filterDomain s.arith cutoffFreq fs order = false then .refused .filterDomain
  else respond (s.withLpf (designFilter s.arith cutoffFreq fs order)) []

/-- LPFADV (44_conditioner.md R169). -/
def execLpfadv (sample : Cplx) (s : State) : StepResult :=
  accept s (.lpfadv sample) <|
  if s.lpf.cfgd = false then .refused .filterNotConfigured
  else respond (s.withLpf (filterNext s.arith s.lpf sample)) [.sample (filterOutput s.arith s.lpf sample)]

end Machine

end Sys2Proof
end

