-- ==== Sys2Proof/Machine/Dispatch.lean ====
section
/-! DEFINITION. The meaning of every instruction: one arm per row of the operation table (30_encoding.md R73). -/

namespace Sys2Proof.Machine

def exec (i : Instr) (s : State) : Host.Outcome State Fault Refusal :=
  match i with
  | .henc data => Sys2Proof.Machine.execHenc data s
  | .hdec encoded => Sys2Proof.Machine.execHdec encoded s
  | .hencb d => Sys2Proof.Machine.execHencb d s
  | .hdecb r => Sys2Proof.Machine.execHdecb r s
  | .qmod encoded Tb fc N => Sys2Proof.Machine.execQmod encoded Tb fc N s
  | .qdem received refc refs numBits N => Sys2Proof.Machine.execQdem received refc refs numBits N s
  | .pllrun signal fs lbw => Sys2Proof.Machine.execPllrun signal fs lbw s
  | .plladv sample fs lbw => Sys2Proof.Machine.execPlladv sample fs lbw s
  | .pllrst => Sys2Proof.Machine.execPllrst s
  | .agc signal target => Sys2Proof.Machine.execAgc signal target s
  | .lpf signal cutoff fs order => Sys2Proof.Machine.execLpf signal cutoff fs order s
  | .lpfcfg cutoff fs order => Sys2Proof.Machine.execLpfcfg cutoff fs order s
  | .lpfadv sample => Sys2Proof.Machine.execLpfadv sample s
  | .awgn signal snr => Sys2Proof.Machine.execAwgn signal snr s
  | .rngseed seed => Sys2Proof.Machine.execRngseed seed s
  | .bersweep encoded original snrs Tb fc N => Sys2Proof.Machine.execBersweep encoded original snrs Tb fc N s
  | .bercmp original decoded => Sys2Proof.Machine.execBercmp original decoded s

end Sys2Proof.Machine
end

