-- ==== Sys2Proof/Machine/HostSide.lean ====
section
/-! DEFINITION. The host's side of the interface: which command the run presents next and what becomes of its response
(30_encoding.md R79, R80), the assembler's default (R75), the text codec (47_boundaries.md R215, R216) and the named
command sequences (47_boundaries.md R221 to R223). -/

namespace Sys2Proof.Machine

/-! ### The run of 30_encoding.md R80 -/

/-- Whether the run has ended: in error, or at the end of the list (30_encoding.md R80). -/
def HostRun.ended (h : HostRun) : Bool := h.stopped.isSome || decide (h.program.length ≤ h.pc)

/-- The run ended normally (30_encoding.md R80). -/
def HostRun.endedNormally (h : HostRun) : Bool := h.stopped.isNone && decide (h.program.length ≤ h.pc)

/-- The value bound to a name, the latest binding first. -/
def lookupName (n : Nat) : List (Nat × Value) → Option Value
  | [] => none
  | (m, v) :: rest => if m = n then some v else lookupName n rest

/-- The value of one operand. -/
def HostRun.argValue (h : HostRun) : Arg → Except Refusal Value
  | .lit v => .ok v
  | .name n =>
    match lookupName n h.names with
    | some v => .ok v
    | none => .error (.unboundName n)

/-- The values of the operands, in order. -/
def HostRun.argValues (h : HostRun) : List Arg → Except Refusal (List Value)
  | [] => .ok []
  | a :: as => do return (← h.argValue a) :: (← h.argValues as)

/-- The command at `pc`, or none once the run has ended. -/
def HostRun.nextCommand (h : HostRun) : Option HostCommand :=
  if h.ended then none else h.program[h.pc]?

/-- The instruction a host command presents, with the names of its operands replaced by their values. The names are
looked up before the command is decoded, so an unbound one is named first (DESIGN CHOICE, log 22). -/
def HostRun.present (h : HostRun) (M : Numerics) (c : HostCommand) : Except Refusal Instr :=
  match h.argValues c.operands with
  | .error r => .error r
  | .ok vs =>
    match decode M ⟨c.op, vs⟩ with
    | .error e => .error (.undecodable e)
    | .ok i => .ok i

/-- The names after `bind results to the command's result names` (30_encoding.md R80), one after another in order, a
later binding hiding an earlier one: of a name written twice the last result stands. Results without a name are
dropped, and names without a result stay as they were (DESIGN CHOICE, log 10). -/
def bindNames : List Nat → List Value → List (Nat × Value) → List (Nat × Value)
  | n :: ns, v :: vs, bound => bindNames ns vs ((n, v) :: bound)
  | _, _, bound => bound

/-- The host's part after the response (30_encoding.md R80): with `OK` the results are bound to the command's result
names and `pc` moves on; with an error status the run stops at `pc`. -/
def State.takeResponse (s : State) (c : HostCommand) : State :=
  match s.host.response with
  | none => s
  | some r =>
    match r.status with
    | .ok => { s with host := { s.host with names := bindNames c.results r.results s.host.names, pc := s.host.pc + 1 } }
    | e => { s with host := { s.host with stopped := some e } }

/-- A run of the list `program` about to start: nothing bound, no response, `pc = 0` (30_encoding.md R80,
70_reset_and_hazards.md R262). The registers keep their values: a second run inherits only the register groups
(47_boundaries.md R224). -/
def State.startRun (s : State) (program : List HostCommand) : State :=
  { s with host := ⟨program, 0, [], none, none⟩ }

/-- A host command of literal operands. -/
def hostCommand (c : Command) (results : List Nat) : HostCommand := ⟨c.op, c.operands.map .lit, results⟩

/-- `loop_bandwidth` supplied when the host's text omits it from PLLRUN or PLLADV (30_encoding.md R75). -/
def assemble (c : HostCommand) : HostCommand :=
  if (c.op = 0x30#8 ∨ c.op = 0x31#8) ∧ c.operands.length = 2 then
    { c with operands := c.operands ++ [.lit (.scalar Config.lbwDefault)] }
  else c

/-! ### The text codec, host functions without an operation code (47_boundaries.md R215, R216) -/

/-- The 8 bits of a character code, most significant first: `bit q of c = floor(c/2^q) mod 2`. A code is 0 to 255
(47_boundaries.md R216); of a greater number the rule says nothing, and its low 8 bits come out (DESIGN CHOICE, log
23). -/
def charBits (c : Nat) : BitVector := [7, 6, 5, 4, 3, 2, 1, 0].map fun q => decide (c / 2 ^ q % 2 = 1)

/-- `textToBits` on the codes of a string (47_boundaries.md R215). -/
def textToBits (codes : List Nat) : BitVector := codes.flatMap charBits

/-- `bitsToText`, the exact inverse, on vectors whose length is a multiple of 8 (47_boundaries.md R216). -/
def bitsToText : BitVector → List Nat
  | b7 :: b6 :: b5 :: b4 :: b3 :: b2 :: b1 :: b0 :: rest =>
    [b7, b6, b5, b4, b3, b2, b1, b0].foldl (fun n b => 2 * n + b.digit) 0 :: bitsToText rest
  | _ => []

/-! ### The named command sequences (30_encoding.md R81). Host names are numbers of this model's choosing (log 8). -/

/-- `TXCHAIN data, Tb, fc, N -> encoded, w, time, points` (47_boundaries.md R221): names 0, 1, 2, 3. -/
def txChain (data : BitVector) (Tb fc : RealExpr) (N : Nat) : List HostCommand :=
  [⟨0x10#8, [.lit (.ofBits data)], [0]⟩,
   ⟨0x20#8, [.name 0, .lit (.scalar Tb), .lit (.scalar fc), .lit (.ofNat N)], [1, 2, 3]⟩]

/-- `RXCHAIN` (47_boundaries.md R222) on the stream `r`: r1, r2, r3, freq_estimate, bits, decoded, positions are names
4, 5, 6, 7, 8, 9, 10. -/
def rxChain (r : Arg) (targetLevel cutoffFreq fs : RealExpr) (order : Nat) (loopBandwidth : RealExpr)
    (refc refs : List RealExpr) (numBits N : Nat) : List HostCommand :=
  [⟨0x40#8, [r, .lit (.scalar targetLevel)], [4]⟩,
   ⟨0x41#8, [.name 4, .lit (.scalar cutoffFreq), .lit (.scalar fs), .lit (.ofNat order)], [5]⟩,
   ⟨0x32#8, [], []⟩,
   ⟨0x30#8, [.name 5, .lit (.scalar fs), .lit (.scalar loopBandwidth)], [6, 7]⟩,
   ⟨0x21#8, [.name 6, .lit (.reals refc), .lit (.reals refs), .lit (.ofNat numBits), .lit (.ofNat N)], [8]⟩,
   ⟨0x11#8, [.name 8], [9, 10]⟩]

/-- `LOOPBACK data, Tb, fc, N -> decoded, errors, ber` (47_boundaries.md R223): encoded, w, time, points, bits, decoded,
positions, errors, ber are names 0, 1, 2, 3, 4, 5, 6, 7, 8; the references are those of 42_qpsk.md R125. -/
def loopback (M : Numerics) (data : BitVector) (Tb fc : RealExpr) (N : Nat) : List HostCommand :=
  txChain data Tb fc N ++
  [⟨0x21#8, [.name 1, .lit (.reals (matchingCos M Tb fc N)), .lit (.reals (matchingSin M Tb fc N)),
      .lit (.ofNat (7 * ((data.length + 3) / 4))), .lit (.ofNat N)], [4]⟩,
   ⟨0x11#8, [.name 4], [5, 6]⟩,
   ⟨0x61#8, [.lit (.ofBits data), .name 5], [7, 8]⟩]

end Sys2Proof.Machine
end

