-- ==== Sys2Proof/Machine/Step.lean ====
section
/-! DEFINITION. One step: the command at the host's `pc` is presented, performed, and its response taken
(30_encoding.md R80). Once the run has ended the core is idle and keeps its registers (60_exceptions.md R248). -/

namespace Sys2Proof.Machine

def step (s : State) : Host.Outcome State Fault Refusal :=
  match s.host.nextCommand with
  | none => .next s
  | some c =>
    match s.host.present s.arith c with
    | .error r => .refused r
    | .ok i =>
      match exec i s with
      | .next t => .next (t.takeResponse c)
      | .fault f => .fault f
      | .refused r => .refused r

/-- The state with the bare operation code `w` as its whole program, completed by the smallest operands of its shape
(log 9), and the run about to start: the next step presents exactly that command. -/
def State.withFetchWord (s : State) (nbits w : Nat) : State :=
  s.startRun (if nbits = 8 then [hostCommand (commandOfWord w) []] else [])

end Sys2Proof.Machine
end

