-- ==== Sys2Proof/Safety.lean ====
section
/-! DEFINITION. The terms claims are stated in: when an operand fits, the shape of
the registers, what an error may be caused by, and the rules of the signal units over the real and complex numbers. -/

namespace Sys2Proof

/-- The values of a list of reals. -/
noncomputable def valsOf (l : List RealExpr) : List ℝ := l.map RealExpr.val

/-- The values of a list of samples. -/
noncomputable def samplesOf (l : List Cplx) : List ℂ := l.map Cplx.val

/-! ### The modulator over the reals (42_qpsk.md R121 to R123) -/

/-- `amp` of 00_scope.md R13. -/
def ampReal (b : Bit) : ℝ := if b then 1 else -1

/-- The local sample instant `t_k = k·Tb/N`. -/
noncomputable def instantReal (Tb : ℝ) (N k : Nat) : ℝ := (k : ℝ) * Tb / N

/-- `A·(I·cos(2π·fc·t_k) + Q·sin(2π·fc·t_k))` with `A = sqrt(2/Tb)`. -/
noncomputable def symbolReal (Tb fc : ℝ) (N : Nat) (b0 b1 : Bit) (k : Nat) : ℝ :=
  Real.sqrt (2 / Tb) *
    (ampReal b0 * Real.cos (2 * Real.pi * fc * instantReal Tb N k) +
      ampReal b1 * Real.sin (2 * Real.pi * fc * instantReal Tb N k))

/-- `Σ_{k<N} Re(r[m·N + k])·ref[k]` (42_qpsk.md R126). -/
noncomputable def correlationReal (r : List ℂ) (ref : List ℝ) (N m : Nat) : ℝ :=
  ∑ k ∈ Finset.range N, (r.getD (m * N + k) 0).re * ref.getD k 0

/-! ### The loop over the reals (43_pll.md R141, R143) -/

/-- The values of the PLL group. -/
structure PllReal where
  phase : ℝ
  integ : ℝ
  freq : ℝ

/-- The values of the PLL group. -/
noncomputable def Machine.Pll.val (p : Machine.Pll) : PllReal := ⟨p.phase.val, p.integ.val, p.freq.val⟩

/-- `phase_error = angle(x·exp(−j·PHASE))`. -/
noncomputable def phaseErrorReal (x : ℂ) (p : PllReal) : ℝ := Complex.arg (x * Complex.exp (-(p.phase * Complex.I)))

/-- The registers after one sample: `Kp = 2π·loop_bandwidth`, `Ki = Kp²/4`, the integrator first, the frequency from
the new integrator, the phase from the new frequency. -/
noncomputable def pllStepReal (fs lbw : ℝ) (x : ℂ) (p : PllReal) : PllReal where
  integ := p.integ + (2 * Real.pi * lbw) ^ 2 / 4 * phaseErrorReal x p
  freq := (p.integ + (2 * Real.pi * lbw) ^ 2 / 4 * phaseErrorReal x p) + 2 * Real.pi * lbw * phaseErrorReal x p
  phase := p.phase +
    ((p.integ + (2 * Real.pi * lbw) ^ 2 / 4 * phaseErrorReal x p) + 2 * Real.pi * lbw * phaseErrorReal x p) / fs

/-- The output sample, turned by the new phase. -/
noncomputable def pllOutReal (fs lbw : ℝ) (x : ℂ) (p : PllReal) : ℂ :=
  x * Complex.exp (-((pllStepReal fs lbw x p).phase * Complex.I))

/-- The loop over a stream: outputs, and the registers left. -/
noncomputable def pllRunReal (fs lbw : ℝ) : List ℂ → PllReal → List ℂ × PllReal
  | [], p => ([], p)
  | x :: xs, p =>
    (pllOutReal fs lbw x p :: (pllRunReal fs lbw xs (pllStepReal fs lbw x p)).1,
      (pllRunReal fs lbw xs (pllStepReal fs lbw x p)).2)

/-! ### The filter design over the complex numbers (44_conditioner.md R167) -/

/-- The digital pole `z_k = (1 + s_k)/(1 − s_k)` with `s_k = tan(π·Wn/2)·exp(j·π·(2k + n + 1)/(2n))`. -/
noncomputable def butterPole (n : Nat) (Wn : ℝ) (k : Nat) : ℂ :=
  (1 + Real.tan (Real.pi * Wn / 2) * Complex.exp ((Real.pi * (2 * k + n + 1) / (2 * n) : ℝ) * Complex.I)) /
    (1 - Real.tan (Real.pi * Wn / 2) * Complex.exp ((Real.pi * (2 * k + n + 1) / (2 * n) : ℝ) * Complex.I))

/-- `Π_{k=0..n−1} (1 − z_k·x)`. -/
noncomputable def butterPoly (n : Nat) (Wn : ℝ) : Polynomial ℂ :=
  ∏ k ∈ Finset.range n, (1 - Polynomial.C (butterPole n Wn k) * Polynomial.X)

/-- `a_i`, the real part of the coefficient of `x^i`. -/
noncomputable def butterAReal (n : Nat) (Wn : ℝ) (i : Nat) : ℝ := ((butterPoly n Wn).coeff i).re

/-- `g = (1 + a_1 + .. + a_n)/2^n`. -/
noncomputable def butterGainReal (n : Nat) (Wn : ℝ) : ℝ :=
  (1 + ∑ i ∈ Finset.range n, butterAReal n Wn (i + 1)) / 2 ^ n

/-! ### Bits -/

/-- The bits of a list of bits flipped where the pattern has a one. -/
def flipBits (v e : BitVector) : BitVector := List.zipWith xor v e

/-- The number of ones. -/
def weight (e : BitVector) : Nat := e.countP id

/-- `⌈n/4⌉`. -/
def ceilQuarter (n : Nat) : Nat := (n + 3) / 4

/-! ### The operation map (30_encoding.md R73) -/

/-- The 17 operation codes. -/
def tableCodes : List (BitVec 8) :=
  [0x10#8, 0x11#8, 0x12#8, 0x13#8, 0x20#8, 0x21#8, 0x30#8, 0x31#8, 0x32#8, 0x40#8, 0x41#8, 0x42#8, 0x43#8, 0x50#8,
   0x51#8, 0x60#8, 0x61#8]

/-- The vector-matrix product over GF(2): bit `p` is the sum of `d[i]·M[i][p]`. -/
def gfProduct (d : BitVector) (M : List (List Bit)) (columns : Nat) : BitVector :=
  (List.range columns).map fun p => ((d.zip M).map fun e => e.1 && e.2.getD p false).foldl xor false

/-- The matrix-vector product over GF(2): bit `i` is the sum of `M[i][p]·r[p]`. -/
def gfApply (M : List (List Bit)) (r : BitVector) : BitVector :=
  M.map fun row => ((row.zip r).map fun e => e.1 && e.2).foldl xor false

/-- Block `m` of width `w` of a vector. -/
def blockOf (v : BitVector) (w m : Nat) : BitVector := (v.drop (w * m)).take w

/-- The sum of two 7-bit words. -/
def addBlocks (r e : Block7) : Block7 :=
  ⟨r.r1 ^^ e.r1, r.r2 ^^ e.r2, r.r3 ^^ e.r3, r.r4 ^^ e.r4, r.r5 ^^ e.r5, r.r6 ^^ e.r6, r.r7 ^^ e.r7⟩

/-- The sum of two data blocks. -/
def addData (d e : Block4) : Block4 := ⟨d.d1 ^^ e.d1, d.d2 ^^ e.d2, d.d3 ^^ e.d3, d.d4 ^^ e.d4⟩

/-- The bitwise exclusive or of the position numbers of the ones of a word (41_hamming.md R106). -/
def positionXor (e : Block7) : Nat :=
  (if e.r1 then 1 else 0) ^^^ (if e.r2 then 2 else 0) ^^^ (if e.r3 then 3 else 0) ^^^ (if e.r4 then 4 else 0) ^^^
    (if e.r5 then 5 else 0) ^^^ (if e.r6 then 6 else 0) ^^^ (if e.r7 then 7 else 0)

/-- The Hamming distance of two words. -/
def distance (r e : Block7) : Nat := (addBlocks r e).toBits.countP id

/-! ### The operand types (30_encoding.md R74) -/

/-- The types of operand. -/
inductive OperandType where
  | bitVector
  | stream
  | realVector
  | real
  | natural
  | sample
deriving DecidableEq, Repr

/-- The operand types of each operation code, in order (30_encoding.md R73, R74; the seed is a natural number, log 4).
-/
def operandTable : List (BitVec 8 × List OperandType) :=
  [(0x10#8, [.bitVector]), (0x11#8, [.bitVector]), (0x12#8, [.bitVector]), (0x13#8, [.bitVector]),
   (0x20#8, [.bitVector, .real, .real, .natural]),
   (0x21#8, [.stream, .realVector, .realVector, .natural, .natural]),
   (0x30#8, [.stream, .real, .real]), (0x31#8, [.sample, .real, .real]), (0x32#8, []),
   (0x40#8, [.stream, .real]), (0x41#8, [.stream, .real, .real, .natural]), (0x42#8, [.real, .real, .natural]),
   (0x43#8, [.sample]), (0x50#8, [.stream, .real]), (0x51#8, [.natural]),
   (0x60#8, [.bitVector, .bitVector, .realVector, .real, .real, .natural]), (0x61#8, [.bitVector, .bitVector])]

/-- The value is one of the type, under `NUM` `M`: bits are 0 or 1, a natural number is one by value, written out or a
finite number of the format, a stream of kind REAL has imaginary
parts of value 0 (20_memory.md R52), a real is a sample too (log 10). -/
def Value.Has (M : Numerics) : Value → OperandType → Prop
  | .bits ds, .bitVector => ∀ d ∈ ds, d < 2
  | .stream w, .stream => w.kind = .real → ∀ z ∈ w.samples, z.im.val = 0
  | .reals _, .realVector => True
  | .scalar _, .real => True
  | .scalar x, .natural => ∃ n : Nat, x.val = n ∧ (x = .ofNat n ∨ M.finite x = true)
  | .scalar _, .sample => True
  | .sample _, .sample => True
  | _, _ => False

/-- The name under which a value that is not one of the type is rejected (60_exceptions.md R238 F2). -/
def Value.rejection : Value → OperandType → DecodeError
  | .bits _, .bitVector => .notABit
  | .stream _, .stream => .imaginaryInReal
  | .scalar _, .natural => .notNatural
  | _, _ => .wrongShape

/-! ### The reference carriers (42_qpsk.md R125, R129) -/

/-- `refc[k] = cos(2π·fc·t_k)`. -/
noncomputable def refCosReal (Tb fc : ℝ) (N k : Nat) : ℝ := Real.cos (2 * Real.pi * fc * instantReal Tb N k)

/-- `refs[k] = sin(2π·fc·t_k)`. -/
noncomputable def refSinReal (Tb fc : ℝ) (N k : Nat) : ℝ := Real.sin (2 * Real.pi * fc * instantReal Tb N k)

/-- `Scc > |Scs|` and `Sss > |Scs|`. -/
def carriersSeparate (Tb fc : ℝ) (N : Nat) : Prop :=
  |∑ k ∈ Finset.range N, refCosReal Tb fc N k * refSinReal Tb fc N k| < ∑ k ∈ Finset.range N, refCosReal Tb fc N k ^ 2 ∧
    |∑ k ∈ Finset.range N, refCosReal Tb fc N k * refSinReal Tb fc N k| < ∑ k ∈ Finset.range N, refSinReal Tb fc N k ^ 2

/-- `noise_std(snr_db) = sqrt(1/(2·10^(snr_db/10)))` (45_channel.md R194). -/
noncomputable def noiseStdReal (snrDb : ℝ) : ℝ := Real.sqrt (1 / (2 * (10 : ℝ) ^ (snrDb / 10)))

namespace Machine

/-- A buffer of `n` elements is within MAXLEN (20_memory.md R53). -/
def State.Fits (s : State) (n : Nat) : Prop := ∀ m, s.maxLen = some m → n ≤ m

/-- Every operand buffer of the instruction is within MAXLEN. -/
def State.OperandsFit (s : State) (i : Instr) : Prop := ∀ v ∈ i.operands, s.Fits v.bufferLength

/-- `respond OK` with these results from the state `s`. -/
def State.answered (s : State) (results : List Value) : State := s.withResponse ⟨.ok, results, none⟩

/-- The response of error `status` from the state `s`. -/
def State.failed (s : State) (status : Status) (info : ErrorInfo) : State := s.withResponse ⟨status, [], some info⟩

/-- The instance has the reference `NUM`, exact arithmetic (00_scope.md R10). -/
def State.IsReference (s : State) : Prop := s.num = .exact

/-- Every sample and real parameter of the command is a finite number of the format (60_exceptions.md R238 F8). -/
def State.OperandsFinite (s : State) (i : Instr) : Prop := ∀ x ∈ i.numbers, s.arith.finite x = true

/-- The eleven registers agree. -/
def SameRegisters (s t : State) : Prop := s.pll = t.pll ∧ s.lpf = t.lpf ∧ s.rng = t.rng

/-- The shape of the LPF group (10_state.md R29). -/
def Lpf.Shape (l : Lpf) : Prop :=
  if l.cfgd then
    1 ≤ l.ord ∧ l.b.length = l.ord + 1 ∧ l.a.length = l.ord ∧ l.xh.length = l.ord ∧ l.yh.length = l.ord
  else l.ord = 0 ∧ l.b = [] ∧ l.a = [] ∧ l.xh = [] ∧ l.yh = []

/-- A response as the model makes it: never status 3, no result with an error (60_exceptions.md R233, R235); a diagnostic
with every error and none with `OK`, by the model's choice (R234, log 7). -/
def Response.Proper (r : Response) : Prop :=
  r.status ≠ .uncorrectableBlockError ∧ (r.status ≠ .ok → r.results = [] ∧ r.info.isSome) ∧
    (r.status = .ok → r.info = none)

/-- The host's run as 30_encoding.md R80 keeps it: `pc` within the list, a stopped run stopped by an error status, a
stop at a command of the list, the last response proper. -/
def HostRun.Shape (h : HostRun) : Prop :=
  h.pc ≤ h.program.length ∧ (∀ e, h.stopped = some e → e ≠ .ok ∧ e ≠ .uncorrectableBlockError ∧ h.pc < h.program.length) ∧
    ∀ r, h.response = some r → r.Proper

/-- The invariant of every step. -/
def State.Inv (s : State) : Prop := s.lpf.Shape ∧ s.host.Shape

/-- The first `FormatError` cause of a command, in the order of 60_exceptions.md R231; none for a command that never
ends in it. -/
def formatCause : Instr → Option ErrorInfo
  | .hdec e => if e.length % 7 ≠ 0 then some (.length e.length) else none
  | .qmod e _ _ _ => if e.length % 2 ≠ 0 then some (.length e.length) else none
  | .hencb d => if d.length ≠ 4 then some (.length d.length) else none
  | .hdecb r => if r.length ≠ 7 then some (.length r.length) else none
  | .qdem w rc rs nb n =>
    if nb % 2 ≠ 0 then some (.length nb)
    else if rc.length ≠ n ∨ rs.length ≠ n then some .referenceLength
    else if w.samples.length < nb / 2 * n then some (.length w.samples.length)
    else none
  | .bercmp o d =>
    if o.length = 0 then some .emptyOriginal
    else if d.length < o.length then some .decodedTooShort
    else none
  | .bersweep e o _ _ _ _ =>
    if e.length % 2 ≠ 0 then some .oddEncodedLength
    else if e.length % 7 ≠ 0 then some .notWholeCodewords
    else if o.length = 0 then some .emptyOriginal
    else if 4 * e.length / 7 < o.length then some .decodedTooShort
    else none
  | .henc _ => none
  | .pllrun _ _ _ => none
  | .plladv _ _ _ => none
  | .pllrst => none
  | .agc _ _ => none
  | .lpf _ _ _ _ => none
  | .lpfcfg _ _ _ => none
  | .lpfadv _ => none
  | .awgn _ _ => none
  | .rngseed _ => none

/-- The `DegenerateSignalError` cause of a command (60_exceptions.md R232). -/
def degenerateCause (i : Instr) (s : State) : Option ErrorInfo :=
  match i with
  | .agc w _ =>
    match w.samples with
    | [] => some .emptySignal
    | z :: zs => if s.arith.isZero (peak s.arith z zs) then some .zeroAmplitude else none
  | _ => none

/-- The refusal of a command outside its parameter domain, rows F4 to F7 of 60_exceptions.md R238; none inside. -/
def parameterRefusal (i : Instr) (s : State) : Option Refusal :=
  match i with
  | .qmod _ tb _ n => if modulationDomain s.arith tb n = true then none else some .modulationDomain
  | .bersweep _ _ _ tb _ n => if modulationDomain s.arith tb n = true then none else some .modulationDomain
  | .qdem _ _ _ _ n => if 1 ≤ n then none else some .modulationDomain
  | .plladv _ fs _ => if s.arith.isPos fs = true then none else some .sampleRateDomain
  | .pllrun _ fs _ => if s.arith.isPos fs = true then none else some .sampleRateDomain
  | .lpf _ c fs n => if filterDomain s.arith c fs n = true then none else some .filterDomain
  | .lpfcfg c fs n => if filterDomain s.arith c fs n = true then none else some .filterDomain
  | .lpfadv _ => if s.lpf.cfgd = true then none else some .filterNotConfigured
  | _ => none

/-- The refusal of a command, rows F4 to F8 of 60_exceptions.md R238, F8 first (log 22); none inside the domain. -/
def domainRefusal (i : Instr) (s : State) : Option Refusal :=
  if i.numbers.all s.arith.finite = true then parameterRefusal i s else some .nonFinite

/-- The operations that write each register group (10_state.md R35). -/
def writesPll : Instr → Bool
  | .pllrst => true
  | .plladv _ _ _ => true
  | .pllrun _ _ _ => true
  | _ => false

/-- The operations that write the LPF group (10_state.md R35). -/
def writesLpf : Instr → Bool
  | .lpfcfg _ _ _ => true
  | .lpfadv _ => true
  | .lpf _ _ _ _ => true
  | _ => false

/-- The operations that write the RNG group (10_state.md R35). -/
def writesRng : Instr → Bool
  | .rngseed _ => true
  | .awgn _ _ => true
  | .bersweep _ _ _ _ _ _ => true
  | _ => false

/-- The operations that read the PLL group (10_state.md R35). -/
def readsPll : Instr → Bool
  | .plladv _ _ _ => true
  | .pllrun _ _ _ => true
  | _ => false

/-- The operations that read the LPF group before they write it (10_state.md R35 lists LPF too, which reads what it has
just written). -/
def readsLpf : Instr → Bool
  | .lpfadv _ => true
  | _ => false

/-- The operations that read the RNG group (10_state.md R35). -/
def readsRng : Instr → Bool
  | .awgn _ _ => true
  | .bersweep _ _ _ _ _ _ => true
  | _ => false

/-- The response a command leaves, if it completes. -/
def responseOf : StepResult → Option Response
  | .next t => t.host.response
  | .fault _ => none
  | .refused _ => none

/-- The results of a command that completes with `OK`. -/
def resultsOf (o : StepResult) : Option (List Value) :=
  match responseOf o with
  | some r => if r.status = .ok then some r.results else none
  | none => none

/-- Commands performed one after another, each of them answering `OK`: their results in order and the state left. -/
def runAll : List Instr → State → Option (List (List Value) × State)
  | [], s => some ([], s)
  | i :: is, s =>
    match exec i s with
    | .next t =>
      match resultsOf (.next t) with
      | some vs => (runAll is t).map fun r => (vs :: r.1, r.2)
      | none => none
    | .fault _ => none
    | .refused _ => none

/-- The written-out expansion of BERSWEEP's loop (46_ber.md R203): AWGN, QDEM, HDEC, BERCMP for each SNR value, each as
a command of its own; none unless every command answers `OK`. -/
def sweepByCommands (w : Stream) (refc refs : List RealExpr) (numBits N : Nat) (original : BitVector) :
    List RealExpr → State → Option (List (RealExpr × ℚ) × State)
  | [], s => some ([], s)
  | x :: xs, s => do
    let (noise, s1) ← runAll [.awgn w x] s
    let [[.stream noisy]] := noise | none
    let (decided, s2) ← runAll [.qdem noisy refc refs numBits N] s1
    let [[.bits ds]] := decided | none
    let bits ← digitBits ds
    let (decoding, s3) ← runAll [.hdec bits] s2
    let [[.bits es, .positions _]] := decoding | none
    let decoded ← digitBits es
    let (comparison, s4) ← runAll [.bercmp original decoded] s3
    let [[_, .scalar (.rat ber)]] := comparison | none
    let (curve, t) ← sweepByCommands w refc refs numBits N original xs s4
    return ((x, ber) :: curve, t)

end Machine

end Sys2Proof
end

