-- ==== Sys2Proof/Certificates/Slice0/Obligations.lean ====
section
/-! DEFINITION. The statements for the provers. Each docstring names the rules of spec/ a statement formalises; titles
and bases stand in OBLIGATIONS.json. Values are compared in the real and complex numbers (`RealExpr.val`, `Cplx.val`),
and statements about them are about the reference `NUM`, exact arithmetic (`State.IsReference`, 00_scope.md R10); the
others hold under every `NUM` (log 26). -/

open Sys2Proof Sys2Proof.Machine

/-! ### Encoding -/

/-- Decoding the command of a well-formed instruction gives the instruction back, at every value of every operand, under
every `NUM` (30_encoding.md R70 to R74). -/
def Obligations.DecodeEncode : Prop :=
  ∀ (M : Numerics) (i : Instr), i.wellFormed = true → decode M (encode i) = .ok i

/-- What is decoded is well formed, has the command's code and as many operands (30_encoding.md R73, R74). Well formed
means that a REAL stream has imaginary parts 0 (20_memory.md R52; 60_exceptions.md R238 F2); that this is tested at
decoding is the model's choice, log 25. -/
def Obligations.DecodedIsOfTheCommand : Prop :=
  ∀ (M : Numerics) (c : Command) (i : Instr), decode M c = .ok i →
    i.wellFormed = true ∧ i.opcode = c.op ∧ i.operands.length = c.operands.length

/-- Every code outside the table is rejected as reserved with any operands, and there are 239 of them
(30_encoding.md R73, R76). -/
def Obligations.ReservedCodesRejected : Prop :=
  (∀ (M : Numerics) (op : BitVec 8) (vs : List Value), op ∉ tableCodes → decode M ⟨op, vs⟩ = .error .reservedCode) ∧
    ((List.range 256).filter fun n => decide (BitVec.ofNat 8 n ∉ tableCodes)).length = 239

/-- A wrong number of operands is a wrong shape for every operation (30_encoding.md R74; 60_exceptions.md R238 F2). -/
def Obligations.OperandCountChecked : Prop :=
  ∀ (M : Numerics) (i : Instr) (vs : List Value), vs.length ≠ i.operands.length → decode M ⟨i.opcode, vs⟩ = .error .wrongShape

/-- Every operand of every operation is checked against its type: a command with the right number of operands is
decoded where each of them is one of its type, and otherwise rejected under the name of its first fault: a bit that is
not 0 or 1, a number that is no natural number (under a finite-precision `NUM`, one that is not finite is none) for `N`, `order`, `num_bits` or the seed, a REAL stream with a nonzero
imaginary part, or another shape (30_encoding.md R74; 20_memory.md R52; 60_exceptions.md R238 F2). By the model's
choice the seed is a natural number (log 4), a real is a sample (log 10), the test of imaginary parts stands at
decoding (log 25), a natural number written out is no number of the format (log 26) and the first operand at fault gives the name (log 22). -/
def Obligations.OperandTypesChecked : Prop :=
  ∀ (M : Numerics), ∀ row ∈ operandTable, ∀ vs : List Value, vs.length = row.2.length →
    ((∀ (k : Nat) (v : Value) (ty : OperandType), vs[k]? = some v → row.2[k]? = some ty → v.Has M ty) →
      ∃ i, decode M ⟨row.1, vs⟩ = .ok i) ∧
      ∀ (k : Nat) (v : Value) (ty : OperandType), vs[k]? = some v → row.2[k]? = some ty → ¬v.Has M ty →
        (∀ (j : Nat) (v' : Value) (ty' : OperandType), j < k → vs[j]? = some v' → row.2[j]? = some ty' → v'.Has M ty') →
          decode M ⟨row.1, vs⟩ = .error (v.rejection ty)

/-- Six operation codes decode to the instructions of the table, and a reserved code and a 16-bit word do not
(30_encoding.md R71, R72, R73, R76). A bare code is completed with the smallest operands: the model's choice, log 9. -/
def Obligations.TableWordsDecode : Prop :=
  decodeTableWord 8 0x10 = some (.henc []) ∧ decodeTableWord 8 0x20 = some (.qmod [] .one .zero 1) ∧
    decodeTableWord 8 0x32 = some .pllrst ∧ decodeTableWord 8 0x43 = some (.lpfadv .zero) ∧
    decodeTableWord 8 0x51 = some (.rngseed 0) ∧ decodeTableWord 8 0x61 = some (.bercmp [false] [false]) ∧
    decodeTableWord 8 0x14 = none ∧ decodeTableWord 16 0x10 = none

/-! ### The step -/

/-- Where the command at `pc` decodes to an instruction, the step is that instruction's meaning, followed by the host's
taking of the response (30_encoding.md R80). That the host's list stands in the state is the model's choice, log 8. -/
def Obligations.StepRunsDecodedInstruction : Prop :=
  ∀ (s : State) (c : HostCommand) (vs : List Value) (i : Instr),
    s.host.stopped = none → s.host.program[s.host.pc]? = some c → s.host.argValues c.operands = .ok vs →
    decode s.arith ⟨c.op, vs⟩ = .ok i →
      (∀ t, exec i s = .next t → step s = .next (t.takeResponse c)) ∧
        ∀ r, exec i s = .refused r → step s = .refused r

/-- After `OK` the results are bound to the command's result names and `pc` advances by 1; the registers are those the
command left (30_encoding.md R80). The pairing of names with results is the model's choice, log 10. -/
def Obligations.StepAfterOk : Prop :=
  ∀ (s t : State) (c : HostCommand) (vs results : List Value) (i : Instr),
    s.host.stopped = none → s.host.program[s.host.pc]? = some c → s.host.argValues c.operands = .ok vs →
    decode s.arith ⟨c.op, vs⟩ = .ok i → exec i s = .next t → t.host.response = some ⟨.ok, results, none⟩ →
      ∃ u, step s = .next u ∧ SameRegisters u t ∧ u.maxLen = s.maxLen ∧ u.num = s.num ∧
        u.host = ⟨s.host.program, s.host.pc + 1, bindNames c.results results s.host.names,
          some ⟨.ok, results, none⟩, none⟩

/-- After an error status there is no result, every register is as before the command, and the run has ended at it
(60_exceptions.md R235). That an error is a next state is a reading (log 6), and what the host's fields hold, and that
a step after the end changes nothing, are the model's choices (log 8, log 24). -/
def Obligations.StepAfterError : Prop :=
  ∀ (s t : State) (c : HostCommand) (vs : List Value) (i : Instr) (r : Response),
    s.host.stopped = none → s.host.program[s.host.pc]? = some c → s.host.argValues c.operands = .ok vs →
    decode s.arith ⟨c.op, vs⟩ = .ok i → exec i s = .next t → t.host.response = some r → r.status ≠ .ok →
      r.results = [] ∧ ∃ u, step s = .next u ∧ SameRegisters u s ∧ u.maxLen = s.maxLen ∧ u.num = s.num ∧
        u.host = ⟨s.host.program, s.host.pc, s.host.names, some r, some r.status⟩ ∧ step u = .next u

/-- A command that decodes to no instruction, or names an unbound variable, is refused (60_exceptions.md R238 F1, F2).
The refusal of an unbound name is the model's choice, log 8. -/
def Obligations.StepRefusesUndecodable : Prop :=
  ∀ (s : State) (c : HostCommand), s.host.stopped = none → s.host.program[s.host.pc]? = some c →
    (∀ r, s.host.argValues c.operands = .error r → step s = .refused r) ∧
      ∀ vs e, s.host.argValues c.operands = .ok vs → decode s.arith ⟨c.op, vs⟩ = .error e → step s = .refused (.undecodable e)

/-- Once the run has ended the core is idle and keeps everything (60_exceptions.md R248). The spec's run has no step
after its end (30_encoding.md R80): that such a step answers the same state is the model's choice, log 8. -/
def Obligations.StepIdleAfterEnd : Prop :=
  ∀ s : State, s.host.stopped ≠ none ∨ s.host.program.length ≤ s.host.pc → step s = .next s

/-- After reset the PLL group is 0, the filter is unconfigured and empty, the seed is `SEED0` and no draw is consumed
(10_state.md R38). -/
def Obligations.ResetValues : Prop :=
  State.reset.pll.phase = .zero ∧ State.reset.pll.integ = .zero ∧ State.reset.pll.freq = .zero ∧
    State.reset.lpf.cfgd = false ∧ State.reset.lpf.ord = 0 ∧ State.reset.lpf.b = [] ∧ State.reset.lpf.a = [] ∧
    State.reset.lpf.xh = [] ∧ State.reset.lpf.yh = [] ∧ State.reset.rng.seed = Config.seed0 ∧
    State.reset.rng.count = 0

/-- The reset state meets `State.Inv` (10_state.md R29, R38). The run is empty at reset by the model's choice, log 8. -/
def Obligations.ResetMeetsInvariant : Prop := State.reset.Inv

/-- Every step keeps `State.Inv`: a configured filter has order at least 1 and registers of the lengths of its order, an
unconfigured one is empty (10_state.md R29); the host's `pc` stays within its list, only an error status stops a run, an
error response carries no result, and `UncorrectableBlockError` never occurs (30_encoding.md R80; 60_exceptions.md R233,
R235). That the run is state, and that an error response carries its diagnostic and an `OK` response none, are the
model's choices, log 8 and log 7. -/
def Obligations.StepKeepsInvariant : Prop :=
  ∀ s t : State, s.Inv → step s = .next t → t.Inv

/-! ### Errors and refusals -/

/-- Inside its domain and without an error cause, every operation completes with `OK` where lengths are unbounded
(60_exceptions.md R231, R232, R238, R240). -/
def Obligations.EveryOperationCompletes : Prop :=
  ∀ (i : Instr) (s : State), s.maxLen = none → domainRefusal i s = none → formatCause i = none →
    degenerateCause i s = none → ∃ t vs, exec i s = .next t ∧ t.host.response = some ⟨.ok, vs, none⟩

/-- A command with an error cause ends in that error, with nothing changed but the response (60_exceptions.md R231,
R232, R235). The diagnostic in the response is the model's choice, log 7, and the error as a next state a reading, log
6. -/
def Obligations.ErrorCausesRaise : Prop :=
  ∀ (i : Instr) (s : State) (n : ErrorInfo), s.OperandsFit i → domainRefusal i s = none →
    (formatCause i = some n → exec i s = .next (s.failed .formatError n)) ∧
      (degenerateCause i s = some n → exec i s = .next (s.failed .degenerateSignalError n))

/-- Every response is `OK` without an error cause, or an error with its cause; `UncorrectableBlockError` is never
raised (60_exceptions.md R230 to R233); an error changes nothing but the response (R235). The diagnostic in the
response is the model's choice, log 7. -/
def Obligations.StatusHasItsCause : Prop :=
  ∀ (i : Instr) (s t : State), exec i s = .next t →
    (∃ vs, t.host.response = some ⟨.ok, vs, none⟩ ∧ formatCause i = none ∧ degenerateCause i s = none) ∨
      (∃ n, formatCause i = some n ∧ t = s.failed .formatError n) ∨
      (∃ n, degenerateCause i s = some n ∧ t = s.failed .degenerateSignalError n)

/-- A command is refused for an operand or a result longer than MAXLEN or outside its domain, before any error check,
and for nothing else; no result exceeds MAXLEN (20_memory.md R53; 60_exceptions.md R236, R238 F3 to F8, R239). That
MAXLEN is tested first and bounds operands and results only are the model's choices, log 5 and log 22. -/
def Obligations.RefusalCauses : Prop :=
  ∀ (i : Instr) (s : State),
    (¬s.OperandsFit i → exec i s = .refused .overMaxLen) ∧
      (s.OperandsFit i → ∀ r, domainRefusal i s = some r → exec i s = .refused r) ∧
      (∀ r, exec i s = .refused r →
        (¬s.OperandsFit i ∧ r = .overMaxLen) ∨ (s.OperandsFit i ∧ domainRefusal i s = some r) ∨
          (s.OperandsFit i ∧ domainRefusal i s = none ∧ r = .overMaxLen ∧
            ∃ t vs, exec i { s with maxLen := none } = .next t ∧ t.host.response = some ⟨.ok, vs, none⟩ ∧
              ∃ v ∈ vs, ¬s.Fits v.bufferLength)) ∧
      ∀ t vs, exec i s = .next t → t.host.response = some ⟨.ok, vs, none⟩ → ∀ v ∈ vs, s.Fits v.bufferLength

/-- The domains over the real numbers: a symbol duration, sample rate or normalised cutoff outside its bounds is
refused, for every such number (42_qpsk.md R131, 43_pll.md R146, 44_conditioner.md R171; of BERSWEEP 46_ber.md R203 and
60_exceptions.md R238 F4). -/
def Obligations.RefusalsOverTheReals : Prop :=
  ∀ s : State, s.IsReference → s.maxLen = none →
    (∀ (e o : BitVector) (xs : List RealExpr) (Tb fc : RealExpr) (N : Nat), Tb.val ≤ 0 ∨ N = 0 →
      exec (.qmod e Tb fc N) s = .refused .modulationDomain ∧
        exec (.bersweep e o xs Tb fc N) s = .refused .modulationDomain) ∧
    (∀ (w : Stream) (rc rs : List RealExpr) (nb : Nat), exec (.qdem w rc rs nb 0) s = .refused .modulationDomain) ∧
    (∀ (x : Cplx) (w : Stream) (fs lbw : RealExpr), fs.val ≤ 0 →
      exec (.plladv x fs lbw) s = .refused .sampleRateDomain ∧
        exec (.pllrun w fs lbw) s = .refused .sampleRateDomain) ∧
    ∀ (w : Stream) (c fs : RealExpr) (n : Nat),
      fs.val ≤ 0 ∨ n = 0 ∨ c.val / (fs.val / 2) ≤ 0 ∨ 1 ≤ c.val / (fs.val / 2) →
        exec (.lpfcfg c fs n) s = .refused .filterDomain ∧ exec (.lpf w c fs n) s = .refused .filterDomain

/-- A non-finite sample or real parameter is refused before any work, and nothing else is refused so; under the
reference every number is finite (43_pll.md R148, 44_conditioner.md R165 and R173, 60_exceptions.md R238 F8). That a
non-finite number is named before F4 to F7 is the model's choice, log 22; which numbers of a command count, and that
nothing arising inside it is refused so, is a reading, log 18. A finite-precision `NUM` being uninterpreted, no concrete
operand can be shown to be non-finite (log 26). -/
def Obligations.NonFiniteRefused : Prop :=
  ∀ (i : Instr) (s : State), s.OperandsFit i →
    (exec i s = .refused .nonFinite ↔ ∃ x ∈ i.numbers, s.arith.finite x = false) ∧
      (s.IsReference → exec i s ≠ .refused .nonFinite)

/-! ### The register groups -/

/-- An operation changes only the groups it writes, and of the rest of the state only the response
(10_state.md R34, R35). -/
def Obligations.GroupsWritten : Prop :=
  ∀ (i : Instr) (s t : State), exec i s = .next t →
    (writesPll i = false → t.pll = s.pll) ∧ (writesLpf i = false → t.lpf = s.lpf) ∧
      (writesRng i = false → t.rng = s.rng) ∧ t.maxLen = s.maxLen ∧ t.num = s.num ∧
      t.host.program = s.host.program ∧ t.host.pc = s.host.pc ∧ t.host.names = s.host.names ∧
      t.host.stopped = s.host.stopped

/-- What an operation answers, and what it leaves in the groups it writes, depends only on its operands and on the
groups it reads (10_state.md R34, R35; 45_channel.md R196). R35 lists LPF as a reader of the LPF group: it starts each
time from a cleared filter (10_state.md R30, 44_conditioner.md R170), so it depends on nothing the group held before.
-/
def Obligations.GroupsRead : Prop :=
  ∀ (i : Instr) (s s' : State), s.maxLen = s'.maxLen → s.num = s'.num → (readsPll i = true → s.pll = s'.pll) →
    (readsLpf i = true → s.lpf = s'.lpf) → (readsRng i = true → s.rng = s'.rng) →
      responseOf (exec i s) = responseOf (exec i s') ∧ (∀ r, exec i s = .refused r ↔ exec i s' = .refused r) ∧
        ∀ t t', exec i s = .next t → exec i s' = .next t' →
          (writesPll i = true → t.pll = t'.pll) ∧ (writesLpf i = true → t.lpf = t'.lpf) ∧
            (writesRng i = true → t.rng = t'.rng)

/-- Between seedings the seed stands and the count of draws only grows (10_state.md R32, R33). -/
def Obligations.DrawCountGrows : Prop :=
  ∀ (i : Instr) (s t : State), (∀ n, i ≠ .rngseed n) → exec i s = .next t →
    t.rng.seed = s.rng.seed ∧ s.rng.count ≤ t.rng.count

/-! ### Unit 1, HammingCodec -/

/-- HENCB on a block: the data bits, then the three parity bits; nothing else changes (41_hamming.md R92, R100). -/
def Obligations.EncodeBlock : Prop :=
  ∀ (s : State) (d1 d2 d3 d4 : Bit), s.Fits 7 →
    exec (.hencb [d1, d2, d3, d4]) s =
      .next (s.answered [.ofBits [d1, d2, d3, d4, d2 ^^ d3 ^^ d4, d1 ^^ d3 ^^ d4, d1 ^^ d2 ^^ d4]])

/-- HDECB on a block: the position the syndrome names is flipped, the first four bits and the position are returned;
nothing else changes (41_hamming.md R95 to R97, R102). -/
def Obligations.DecodeBlock : Prop :=
  ∀ (s : State) (r : Block7), s.Fits 7 →
    exec (.hdecb r.toBits) s =
      .next (s.answered [.ofBits ((if synpos r = 0 then r.toBits else r.toBits.modify (synpos r - 1) not).take 4),
        .ofNat (synpos r)])

/-- HENC: `7·⌈L/4⌉` bits, block `m` the codeword of data bits `4m .. 4m+3`, bits beyond the data counting as zero;
nothing else changes (41_hamming.md R101). -/
def Obligations.EncodeVector : Prop :=
  ∀ (s : State) (data : BitVector), s.Fits (7 * ceilQuarter data.length) →
    ∃ e : BitVector, exec (.henc data) s = .next (s.answered [.ofBits e]) ∧ e.length = 7 * ceilQuarter data.length ∧
      ∀ m, m < ceilQuarter data.length →
        blockOf e 7 m = (encb ⟨data.getD (4 * m) false, data.getD (4 * m + 1) false, data.getD (4 * m + 2) false,
          data.getD (4 * m + 3) false⟩).toBits

/-- HDEC on whole codewords: block `m` of the results is the decoding of block `m`; nothing else changes
(41_hamming.md R97, R103). -/
def Obligations.DecodeVector : Prop :=
  ∀ (s : State) (encoded : BitVector), encoded.length % 7 = 0 → s.Fits encoded.length →
    ∃ (d : BitVector) (ps : List Nat), exec (.hdec encoded) s = .next (s.answered [.ofBits d, .positions ps]) ∧
      d.length = 4 * (encoded.length / 7) ∧ ps.length = encoded.length / 7 ∧
      ∀ (m : Nat) (r : Block7), m < encoded.length / 7 → blockOf encoded 7 m = r.toBits →
        blockOf d 4 m = (decb r).1.toBits ∧ ps[m]? = some (decb r).2

/-- Encoding is the product with `G`, the syndrome the product with `H`; column `p` of `H` reads `p`; the codewords are
the null space of `H` and differ pairwise in at least three places (41_hamming.md R91 to R95). -/
def Obligations.CodeMatrices : Prop :=
  (∀ d : Block4, (encb d).toBits = gfProduct d.toBits generatorMatrix 7) ∧
  (∀ r : Block7, gfApply parityCheckMatrix r.toBits = [(syndrome r).1, (syndrome r).2.1, (syndrome r).2.2] ∧
    (gfApply parityCheckMatrix r.toBits = [false, false, false] ↔ ∃ d, r = encb d)) ∧
  (∀ p < 7, (parityCheckMatrix.map fun row => row.getD p false).foldl (fun n b => 2 * n + b.digit) 0 = p + 1) ∧
  ∀ d e : Block4, d ≠ e → 3 ≤ distance (encb d) (encb e)

/-- Every single error is corrected, and a clean codeword decodes to its data (41_hamming.md R98). -/
def Obligations.SingleErrorCorrected : Prop :=
  ∀ d : Block4, decb (encb d) = (d, 0) ∧
    ∀ p, 1 ≤ p → p ≤ 7 → synpos (flipAt (encb d) p) = p ∧ decb (flipAt (encb d) p) = (d, p)

/-- Two errors at `i` and `j` make the decoder flip the third position `i XOR j`; the result is another codeword, its
data are always wrong, and which bits are wrong depends on `i` and `j` alone (41_hamming.md R99). -/
def Obligations.DoubleErrorMiscorrected : Prop :=
  ∀ (d : Block4) (i j : Nat), 1 ≤ i → i ≤ 7 → 1 ≤ j → j ≤ 7 → i ≠ j →
    let r := flipAt (flipAt (encb d) i) j
    let k := i ^^^ j
    synpos r = k ∧ k ≠ i ∧ k ≠ j ∧ 1 ≤ k ∧ k ≤ 7 ∧ fixBlock r = flipAt (flipAt (flipAt (encb d) i) j) k ∧
      (∃ c, fixBlock r = encb c) ∧ (decb r).1 ≠ d ∧
      addData d (decb r).1 =
        dataOf (flipAt (flipAt (flipAt ⟨false, false, false, false, false, false, false⟩ i) j) k)

/-- Any error pattern: the syndrome is the exclusive or of the error positions, the decoder flips that position, the
result is the one codeword within distance 1, and the data are right exactly for at most one error
(41_hamming.md R106). -/
def Obligations.AnyErrorPattern : Prop :=
  ∀ (d : Block4) (e : Block7),
    let r := addBlocks (encb d) e
    synpos r = positionXor e ∧ fixBlock r = flipAt r (positionXor e) ∧
      (∃ c, fixBlock r = encb c ∧ distance r (encb c) ≤ 1 ∧ ∀ c', distance r (encb c') ≤ 1 → c' = c) ∧
      ((decb r).1 = d ↔ weight e.toBits ≤ 1)

/-- The encoder and the syndrome are linear, and the decoder behaves alike around every codeword
(41_hamming.md R108). -/
def Obligations.CodeIsLinear : Prop :=
  (∀ d e : Block4, encb (addData d e) = addBlocks (encb d) (encb e)) ∧
  (∀ r e : Block7, syndrome (addBlocks r e) =
    ((syndrome r).1 ^^ (syndrome e).1, (syndrome r).2.1 ^^ (syndrome e).2.1, (syndrome r).2.2 ^^ (syndrome e).2.2)) ∧
  ∀ (d : Block4) (e : Block7), fixBlock (addBlocks (encb d) e) = addBlocks (encb d) (fixBlock e)

/-- Encoding any vector, flipping at most one bit in each 7-bit block and decoding gives the vector back, followed by
zeros (41_hamming.md R105; 20_memory.md R58). -/
def Obligations.HammingRoundTrip : Prop :=
  ∀ (s : State) (v errors : BitVector), s.Fits (7 * ceilQuarter v.length) →
    errors.length = 7 * ceilQuarter v.length →
    (∀ m, m < ceilQuarter v.length → weight (blockOf errors 7 m) ≤ 1) →
      ∃ (e d : BitVector) (ps : List Nat), exec (.henc v) s = .next (s.answered [.ofBits e]) ∧
        exec (.hdec (flipBits e errors)) s = .next (s.answered [.ofBits d, .positions ps]) ∧
        d = v ++ List.replicate (4 * ceilQuarter v.length - v.length) false

/-! ### Unit 2, QPSKWaveform -/

/-- QMOD over the reals: `N` samples a symbol, the carrier's time restarting in each, the amplitude scaled by
`sqrt(2/Tb)`, the time axis global, the points unscaled; nothing else changes (42_qpsk.md R121 to R123). -/
def Obligations.ModulatorSynthesis : Prop :=
  ∀ (s : State) (e : BitVector) (Tb fc : RealExpr) (N : Nat), s.IsReference → 0 < Tb.val → 1 ≤ N →
    e.length % 2 = 0 → s.Fits e.length → s.Fits (e.length / 2 * N) →
      ∃ (w : Stream) (time : List RealExpr) (points : List (Int × Int)),
        exec (.qmod e Tb fc N) s = .next (s.answered [.stream w, .reals time, .points points]) ∧
        w.kind = .real ∧ w.samples.length = e.length / 2 * N ∧ time.length = e.length / 2 * N ∧
        points.length = e.length / 2 ∧
        ∀ m, m < e.length / 2 →
          points[m]? = some (if e.getD (2 * m) false then 1 else -1, if e.getD (2 * m + 1) false then 1 else -1) ∧
          ∀ k, k < N →
            (w.samples.getD (m * N + k) .zero).val =
              symbolReal Tb.val fc.val N (e.getD (2 * m) false) (e.getD (2 * m + 1) false) k ∧
            (time.getD (m * N + k) .zero).val = m * Tb.val + instantReal Tb.val N k

/-- QDEM over the reals: each bit is the sign test on its correlation, zero deciding 1; nothing else changes
(42_qpsk.md R126 to R128). -/
def Obligations.DemodulatorDecisions : Prop :=
  ∀ (s : State) (w : Stream) (refc refs : List RealExpr) (numBits N : Nat), s.IsReference → 1 ≤ N → numBits % 2 = 0 →
    refc.length = N → refs.length = N → numBits / 2 * N ≤ w.samples.length →
    s.OperandsFit (.qdem w refc refs numBits N) → s.Fits numBits →
      ∃ bits : BitVector, exec (.qdem w refc refs numBits N) s = .next (s.answered [.ofBits bits]) ∧
        bits.length = numBits ∧
        ∀ m, m < numBits / 2 →
          (bits.getD (2 * m) false = true ↔ 0 ≤ correlationReal (samplesOf w.samples) (valsOf refc) N m) ∧
          (bits.getD (2 * m + 1) false = true ↔ 0 ≤ correlationReal (samplesOf w.samples) (valsOf refs) N m)

/-- QDEM under every `NUM`: each bit is the sign test on the computed correlation where that is a finite number, a
computed zero of either sign deciding 1; nothing else changes (42_qpsk.md R127, R128; what is computed is the
instance's, log 26). -/
def Obligations.DecisionsAsComputed : Prop :=
  ∀ (s : State) (w : Stream) (refc refs : List RealExpr) (numBits N : Nat), 1 ≤ N → numBits % 2 = 0 →
    refc.length = N → refs.length = N → numBits / 2 * N ≤ w.samples.length →
    s.OperandsFit (.qdem w refc refs numBits N) → s.OperandsFinite (.qdem w refc refs numBits N) → s.Fits numBits →
      ∃ bits : BitVector, exec (.qdem w refc refs numBits N) s = .next (s.answered [.ofBits bits]) ∧
        bits.length = numBits ∧
        ∀ m, m < numBits / 2 →
          (s.arith.finite (correlation s.arith w.samples refc N m) = true →
            (bits.getD (2 * m) false = true ↔ 0 ≤ (correlation s.arith w.samples refc N m).val)) ∧
          (s.arith.finite (correlation s.arith w.samples refs N m) = true →
            (bits.getD (2 * m + 1) false = true ↔ 0 ≤ (correlation s.arith w.samples refs N m).val))

/-- A positive scale of the stream or of either reference changes no answer of QDEM (42_qpsk.md R130). -/
def Obligations.DemodulatorScaleInvariant : Prop :=
  ∀ (s : State) (kind : Kind) (xs : List Cplx) (refc refs : List RealExpr) (numBits N : Nat) (c d f : RealExpr),
    s.IsReference → 0 < c.val → 0 < d.val → 0 < f.val →
      exec (.qdem ⟨kind, xs.map (Cplx.scale c)⟩ (refc.map (RealExpr.mul d)) (refs.map (RealExpr.mul f)) numBits N) s =
        exec (.qdem ⟨kind, xs⟩ refc refs numBits N) s

/-- Demodulating QMOD's own output with the matching references gives back every even-length vector if and only if
`Scc > |Scs|` and `Sss > |Scs|`; for that it suffices that `fc·Tb` is an integer `p` and `N` does not divide `2p`
(42_qpsk.md R129). -/
def Obligations.NoiselessRoundTrip : Prop :=
  ∀ (s : State) (Tb fc : RealExpr) (N : Nat), s.IsReference → s.maxLen = none → 0 < Tb.val → 1 ≤ N →
    ((∀ e : BitVector, e.length % 2 = 0 →
      ∃ (w : Stream) (time : List RealExpr) (points : List (Int × Int)),
        exec (.qmod e Tb fc N) s = .next (s.answered [.stream w, .reals time, .points points]) ∧
        exec (.qdem w (matchingCos .reference Tb fc N) (matchingSin .reference Tb fc N) e.length N) s =
          .next (s.answered [.ofBits e])) ↔
      carriersSeparate Tb.val fc.val N) ∧
    ∀ p : Int, fc.val * Tb.val = p → ¬(N : Int) ∣ 2 * p → carriersSeparate Tb.val fc.val N

/-! ### Unit 3, CarrierRecovery -/

/-- PLLRST sets the three registers to 0, touches no other group, and answers `OK` (43_pll.md R142). -/
def Obligations.LoopReset : Prop :=
  Instr.pllrst.opcode = 0x32#8 ∧
    ∀ s : State, exec .pllrst s = .next ((s.withPll ⟨.zero, .zero, .zero⟩).answered [])

/-- PLLADV over the reals: the five assignments of the update in their order; nothing else changes
(43_pll.md R141, R143, R144). -/
def Obligations.LoopAdvance : Prop :=
  ∀ (s : State) (x : Cplx) (fs lbw : RealExpr), s.IsReference → 0 < fs.val →
    ∃ (p : Pll) (y : Cplx),
      exec (.plladv x fs lbw) s = .next ((s.withPll p).answered [.sample y, .scalar p.freq]) ∧
      p.val = pllStepReal fs.val lbw.val x.val s.pll.val ∧ y.val = pllOutReal fs.val lbw.val x.val s.pll.val

/-- PLLRUN over the reals: the update for each sample in ascending order from the registers as they are, a stream of
kind CPLX whose samples keep their magnitudes, the last frequency; nothing else changes (43_pll.md R143, R145). -/
def Obligations.LoopRun : Prop :=
  ∀ (s : State) (w : Stream) (fs lbw : RealExpr), s.IsReference → 0 < fs.val → s.Fits w.samples.length →
    ∃ (p : Pll) (out : List Cplx),
      exec (.pllrun w fs lbw) s = .next ((s.withPll p).answered [.stream ⟨.cplx, out⟩, .scalar p.freq]) ∧
      samplesOf out = (pllRunReal fs.val lbw.val (samplesOf w.samples) s.pll.val).1 ∧
      p.val = (pllRunReal fs.val lbw.val (samplesOf w.samples) s.pll.val).2 ∧
      out.map (fun y => ‖y.val‖) = w.samples.map fun x => ‖x.val‖

/-- PLLRUN is one PLLADV for each sample, in order, under every `NUM` (43_pll.md R145; 30_encoding.md R81). -/
def Obligations.LoopRunIsAdvances : Prop :=
  ∀ (s : State) (w : Stream) (fs lbw : RealExpr), domainRefusal (.pllrun w fs lbw) s = none →
    (∀ x ∈ w.samples, domainRefusal (.plladv x fs lbw) s = none) → s.Fits w.samples.length →
    ∃ (answers : List (List Value)) (u : State) (out : List Cplx),
      runAll (w.samples.map fun x => .plladv x fs lbw) s = some (answers, u) ∧
      answers.map List.head? = out.map (fun y => some (.sample y)) ∧
      exec (.pllrun w fs lbw) s = .next ((s.withPll u.pll).answered [.stream ⟨.cplx, out⟩, .scalar u.pll.freq])

/-- A stream run in two pieces gives the samples and the state of one run over the whole, under every `NUM`
(43_pll.md R145). -/
def Obligations.LoopRunSplits : Prop :=
  ∀ (s : State) (kind : Kind) (xs ys : List Cplx) (fs lbw : RealExpr),
    domainRefusal (.pllrun ⟨kind, xs ++ ys⟩ fs lbw) s = none → s.Fits (xs.length + ys.length) →
      ∃ (t1 t2 : State) (o1 o2 : List Cplx),
        exec (.pllrun ⟨kind, xs⟩ fs lbw) s = .next t1 ∧ exec (.pllrun ⟨kind, ys⟩ fs lbw) t1 = .next t2 ∧
        t1.host.response = some ⟨.ok, [.stream ⟨.cplx, o1⟩, .scalar t1.pll.freq], none⟩ ∧
        t2.host.response = some ⟨.ok, [.stream ⟨.cplx, o2⟩, .scalar t2.pll.freq], none⟩ ∧
        exec (.pllrun ⟨kind, xs ++ ys⟩ fs lbw) s =
          .next ((s.withPll t2.pll).answered [.stream ⟨.cplx, o1 ++ o2⟩, .scalar t2.pll.freq])

/-- A zero sample, or a zero loop bandwidth, keeps the integrator, makes the frequency equal to it, and advances the
phase by it over the sample rate (43_pll.md R146). -/
def Obligations.LoopCoasts : Prop :=
  ∀ (s : State) (x : Cplx) (fs lbw : RealExpr), s.IsReference → 0 < fs.val → x.val = 0 ∨ lbw.val = 0 →
    ∃ (p : Pll) (y : Cplx),
      exec (.plladv x fs lbw) s = .next ((s.withPll p).answered [.sample y, .scalar p.freq]) ∧
      p.integ.val = s.pll.integ.val ∧ p.freq.val = s.pll.integ.val ∧
      p.phase.val = s.pll.phase.val + s.pll.integ.val / fs.val

/-- From a loop at 0, the first update on a sample `exp(j·φ)` with `−π < φ ≤ π` leaves the integrator at `Ki·φ`, the
frequency at `(Ki + Kp)·φ` and the phase at `(Ki + Kp)·φ/fs`, and answers `exp(j·(φ − (Ki + Kp)·φ/fs))`
(43_pll.md R149). -/
def Obligations.LoopPureOffset : Prop :=
  ∀ (s : State) (x : Cplx) (fs lbw : RealExpr) (φ : ℝ), s.IsReference → 0 < fs.val → s.pll.val = ⟨0, 0, 0⟩ →
    -Real.pi < φ → φ ≤ Real.pi → x.val = Complex.exp (φ * Complex.I) →
      ∃ (p : Pll) (y : Cplx),
        exec (.plladv x fs lbw) s = .next ((s.withPll p).answered [.sample y, .scalar p.freq]) ∧
        p.integ.val = (2 * Real.pi * lbw.val) ^ 2 / 4 * φ ∧
        p.freq.val = ((2 * Real.pi * lbw.val) ^ 2 / 4 + 2 * Real.pi * lbw.val) * φ ∧
        p.phase.val = ((2 * Real.pi * lbw.val) ^ 2 / 4 + 2 * Real.pi * lbw.val) * φ / fs.val ∧
        y.val = Complex.exp ((φ - ((2 * Real.pi * lbw.val) ^ 2 / 4 + 2 * Real.pi * lbw.val) * φ / fs.val : ℝ) *
          Complex.I)

/-! ### Unit 4, SignalConditioner -/

/-- AGC: an empty signal and a signal whose every sample is zero are degenerate (44_conditioner.md R161, R164;
60_exceptions.md R232); any other is scaled by the target over its greatest magnitude; nothing else changes. The
diagnostic in the error response is the model's choice, log 7. -/
def Obligations.GainNormalises : Prop :=
  ∀ (s : State) (kind : Kind) (xs : List Cplx) (target : RealExpr), s.IsReference → s.Fits xs.length →
    (⟨kind, xs⟩ : Stream).wellFormed = true →
    (xs = [] → exec (.agc ⟨kind, xs⟩ target) s = .next (s.failed .degenerateSignalError .emptySignal)) ∧
    (xs ≠ [] → (∀ x ∈ xs, x.val = 0) →
      exec (.agc ⟨kind, xs⟩ target) s = .next (s.failed .degenerateSignalError .zeroAmplitude)) ∧
    ((∃ x ∈ xs, x.val ≠ 0) → ∃ (out : List Cplx) (mx : ℝ),
      exec (.agc ⟨kind, xs⟩ target) s = .next (s.answered [.stream ⟨kind, out⟩]) ∧ 0 < mx ∧
      (∀ x ∈ xs, ‖x.val‖ ≤ mx) ∧ (∃ x ∈ xs, ‖x.val‖ = mx) ∧
      samplesOf out = xs.map fun x => ((target.val / mx : ℝ) : ℂ) * x.val)

/-- The greatest magnitude after AGC is `|target_level|`, attained where the signal's is, and a positive target keeps
every argument (44_conditioner.md R162). -/
def Obligations.GainPeak : Prop :=
  ∀ (s : State) (kind : Kind) (xs : List Cplx) (target : RealExpr), s.IsReference → s.Fits xs.length →
    (⟨kind, xs⟩ : Stream).wellFormed = true → (∃ x ∈ xs, x.val ≠ 0) →
      ∃ out : List Cplx, exec (.agc ⟨kind, xs⟩ target) s = .next (s.answered [.stream ⟨kind, out⟩]) ∧
        out.length = xs.length ∧ (∀ y ∈ out, ‖y.val‖ ≤ |target.val|) ∧ (∃ y ∈ out, ‖y.val‖ = |target.val|) ∧
        (∀ k, k < xs.length → (∀ x ∈ xs, ‖x.val‖ ≤ ‖(xs.getD k .zero).val‖) →
          ‖(out.getD k .zero).val‖ = |target.val|) ∧
        (0 < target.val → ∀ k, k < xs.length →
          Complex.arg (out.getD k .zero).val = Complex.arg (xs.getD k .zero).val)

/-- LPFCFG stores the Butterworth coefficients made from the poles by the bilinear transform with pre-warping, the real
parts of the denominator's coefficients (log 13) and the gain times the binomials, and clears the histories; no other
group changes (44_conditioner.md R167, R168). -/
def Obligations.FilterDesign : Prop :=
  ∀ (s : State) (c fs : RealExpr) (n : Nat), s.IsReference → 0 < fs.val → 1 ≤ n → 0 < c.val / (fs.val / 2) →
    c.val / (fs.val / 2) < 1 → ∃ l : Lpf,
      exec (.lpfcfg c fs n) s = .next ((s.withLpf l).answered []) ∧ l.cfgd = true ∧ l.ord = n ∧
      valsOf l.a = (List.range n).map (fun i => butterAReal n (c.val / (fs.val / 2)) (i + 1)) ∧
      valsOf l.b = (List.range (n + 1)).map (fun i => butterGainReal n (c.val / (fs.val / 2)) * n.choose i) ∧
      l.xh = List.replicate n .zero ∧ l.yh = List.replicate n .zero

/-- The designed coefficients come out real, the sum of the `b_i` is 1 plus the sum of the `a_i`, and every digital
pole lies strictly inside the unit circle (44_conditioner.md R167, R176). -/
def Obligations.FilterDesignIsSound : Prop :=
  ∀ (s : State) (c fs : RealExpr) (n : Nat), s.IsReference → 0 < fs.val → 1 ≤ n → 0 < c.val / (fs.val / 2) →
    c.val / (fs.val / 2) < 1 →
      (∃ l : Lpf, exec (.lpfcfg c fs n) s = .next ((s.withLpf l).answered []) ∧
        (valsOf l.b).sum = 1 + (valsOf l.a).sum) ∧
      (∀ z ∈ denominator n (normalisedCutoff .reference c fs) n, z.val.im = 0) ∧
      ∀ k, k < n → ‖(digitalPole n (normalisedCutoff .reference c fs) k).val‖ < 1

/-- With `Ω = tan(π·Wn/2)` the coefficients LPFCFG stores have the closed forms of orders 1 and 2, and at `Wn = 1/2`
those of order 3 are `1/6, 1/2, 1/2, 1/6` and `0, 1/3, 0` (44_conditioner.md R174). -/
def Obligations.FilterClosedForms : Prop :=
  ∀ (s : State) (c fs : RealExpr) (Wn Ω : ℝ), s.IsReference → 0 < fs.val → Wn = c.val / (fs.val / 2) → 0 < Wn → Wn < 1 →
    Ω = Real.tan (Real.pi * Wn / 2) →
      (∃ l : Lpf, exec (.lpfcfg c fs 1) s = .next ((s.withLpf l).answered []) ∧
        valsOf l.b = [Ω / (1 + Ω), Ω / (1 + Ω)] ∧ valsOf l.a = [(Ω - 1) / (Ω + 1)]) ∧
      (∃ l : Lpf, exec (.lpfcfg c fs 2) s = .next ((s.withLpf l).answered []) ∧
        valsOf l.b = [Ω ^ 2 / (1 + √2 * Ω + Ω ^ 2), 2 * Ω ^ 2 / (1 + √2 * Ω + Ω ^ 2), Ω ^ 2 / (1 + √2 * Ω + Ω ^ 2)] ∧
        valsOf l.a = [2 * (Ω ^ 2 - 1) / (1 + √2 * Ω + Ω ^ 2), (1 - √2 * Ω + Ω ^ 2) / (1 + √2 * Ω + Ω ^ 2)]) ∧
      (Wn = 1 / 2 → ∃ l : Lpf, exec (.lpfcfg c fs 3) s = .next ((s.withLpf l).answered []) ∧
        valsOf l.b = [1 / 6, 1 / 2, 1 / 2, 1 / 6] ∧ valsOf l.a = [0, 1 / 3, 0])

/-- LPFADV: the difference equation over the stored histories, into which the newest input and output are shifted; the
design and every other group stay (44_conditioner.md R169). Outside the invariant of 10_state.md R29 a missing entry
counts as 0 by the model's choice, log 11. -/
def Obligations.FilterAdvance : Prop :=
  ∀ (s : State) (x : Cplx), s.IsReference → s.lpf.cfgd = true →
    ∃ y : Cplx,
      exec (.lpfadv x) s = .next ((s.withLpf { s.lpf with
        xh := x :: s.lpf.xh.take (s.lpf.ord - 1)
        yh := y :: s.lpf.yh.take (s.lpf.ord - 1) }).answered [.sample y]) ∧
      y.val = (s.lpf.b.getD 0 .zero).val * x.val +
        ∑ k ∈ Finset.range s.lpf.ord, (s.lpf.b.getD (k + 1) .zero).val * (s.lpf.xh.getD k .zero).val -
        ∑ k ∈ Finset.range s.lpf.ord, (s.lpf.a.getD k .zero).val * (s.lpf.yh.getD k .zero).val

/-- LPF is LPFCFG followed by one LPFADV for each sample, in order, under every `NUM`; the result has the stream's kind
(44_conditioner.md R170). A REAL result carries the real parts of LPFADV's answers only, which is a reading, log 19 and log
25: under a finite-precision `NUM` they need not be the answers themselves. -/
def Obligations.FilterStreamIsAdvances : Prop :=
  ∀ (s : State) (w : Stream) (c fs : RealExpr) (n : Nat), domainRefusal (.lpf w c fs n) s = none →
    (∀ x ∈ w.samples, s.OperandsFinite (.lpfadv x)) → s.Fits w.samples.length →
      ∃ (u : State) (out : List Cplx),
        runAll (.lpfcfg c fs n :: w.samples.map .lpfadv) s = some ([] :: out.map (fun y => [.sample y]), u) ∧
        exec (.lpf w c fs n) s = .next ((s.withLpf u.lpf).answered [.stream (.make w.kind out)])

/-- The filter is linear, sample by sample (44_conditioner.md R176). -/
def Obligations.FilterIsLinear : Prop :=
  ∀ (s : State) (kind : Kind) (us vs : List Cplx) (α β : Cplx) (c fs : RealExpr) (n : Nat), s.IsReference →
    0 < fs.val → 1 ≤ n → 0 < c.val / (fs.val / 2) → c.val / (fs.val / 2) < 1 → us.length = vs.length →
    s.Fits us.length → (⟨kind, us⟩ : Stream).wellFormed = true → (⟨kind, vs⟩ : Stream).wellFormed = true →
    (⟨kind, List.zipWith (fun u v => (α.mul u).add (β.mul v)) us vs⟩ : Stream).wellFormed = true →
      ∃ (t1 t2 t3 : State) (o1 o2 o3 : List Cplx),
        exec (.lpf ⟨kind, us⟩ c fs n) s = .next t1 ∧ exec (.lpf ⟨kind, vs⟩ c fs n) s = .next t2 ∧
        exec (.lpf ⟨kind, List.zipWith (fun u v => (α.mul u).add (β.mul v)) us vs⟩ c fs n) s = .next t3 ∧
        t1.host.response = some ⟨.ok, [.stream ⟨kind, o1⟩], none⟩ ∧
        t2.host.response = some ⟨.ok, [.stream ⟨kind, o2⟩], none⟩ ∧
        t3.host.response = some ⟨.ok, [.stream ⟨kind, o3⟩], none⟩ ∧
        samplesOf o3 = List.zipWith (fun a b => α.val * a + β.val * b) (samplesOf o1) (samplesOf o2)

/-- The kind rules, under every `NUM`: QMOD gives a REAL stream; AGC, LPF and AWGN keep kind and length; PLLRUN gives
a CPLX stream of the same length; and every REAL result has imaginary parts 0 (20_memory.md R52; 44_conditioner.md
R172; 45_channel.md R193). That a REAL result is written with the real parts only, under every `NUM`, is a reading, log
19 and log 25. -/
def Obligations.RealStreamsStayReal : Prop :=
  ∀ (s t : State) (w : Stream) (e : BitVector) (x c fs : RealExpr) (n : Nat) (i : Instr) (vs : List Value) (y : Stream),
    i ∈ [.agc w x, .lpf w c fs n, .awgn w x, .pllrun w fs x, .qmod e x c n] → exec i s = .next t →
    t.host.response = some ⟨.ok, vs, none⟩ → vs.head? = some (.stream y) →
      y.wellFormed = true ∧ (i ∈ [.agc w x, .lpf w c fs n, .awgn w x] → y.kind = w.kind ∧ y.length = w.length) ∧
        (i = .pllrun w fs x → y.kind = .cplx ∧ y.length = w.length) ∧ (i = .qmod e x c n → y.kind = .real)

/-! ### Unit 5, ChannelSimulator -/

/-- AWGN: sample `i` receives `σ` times its draw, counted from `RNG.COUNT` under `RNG.SEED`, one draw a sample for
REAL and two for CPLX; the count advances by the draws consumed and nothing else changes (45_channel.md R193 to R195).
-/
def Obligations.NoiseAdded : Prop :=
  ∀ (s : State) (w : Stream) (snrDb : RealExpr), s.IsReference → w.wellFormed = true →
    s.Fits w.samples.length →
    ∃ out : List Cplx,
      exec (.awgn w snrDb) s = .next ((s.withCount (s.rng.count +
        (match w.kind with | .real => w.samples.length | .cplx => 2 * w.samples.length))).answered
          [.stream ⟨w.kind, out⟩]) ∧
      out.length = w.samples.length ∧
      ∀ i, i < w.samples.length →
        (w.kind = .real → (out.getD i .zero).val = (w.samples.getD i .zero).val +
          noiseStdReal snrDb.val * Config.gauss s.rng.seed (s.rng.count + i)) ∧
        (w.kind = .cplx → (out.getD i .zero).val = (w.samples.getD i .zero).val +
          (noiseStdReal snrDb.val * Config.gauss s.rng.seed (s.rng.count + 2 * i) +
            Complex.I * (noiseStdReal snrDb.val * Config.gauss s.rng.seed (s.rng.count + 2 * i + 1))))

/-- RNGSEED sets the seed and the count and touches no other group; two runs of one list of commands that seed with
the same seed give the same results and leave the same noise source, wherever the commands read no loop or filter
registers in which the starting states differ (45_channel.md R192). That a seed is a natural number is the model's
choice, log 4. -/
def Obligations.NoiseSeeded : Prop :=
  (∀ (s : State) (n : Nat), exec (.rngseed n) s = .next ((s.withRng ⟨n, 0⟩).answered [])) ∧
    ∀ (s s' : State) (n : Nat) (is : List Instr), s.maxLen = s'.maxLen → s.num = s'.num →
      (∀ i ∈ is, readsPll i = true → s.pll = s'.pll) → (∀ i ∈ is, readsLpf i = true → s.lpf = s'.lpf) →
        (runAll (.rngseed n :: is) s).map (fun r => (r.1, r.2.rng)) =
          (runAll (.rngseed n :: is) s').map fun r => (r.1, r.2.rng)

/-- The noise level has the value of its formula, is positive, and decreases as `snr_db` grows (45_channel.md R194). -/
def Obligations.NoiseLevel : Prop :=
  ∀ x y : RealExpr, (noiseStd .reference x).val = noiseStdReal x.val ∧ 0 < (noiseStd .reference x).val ∧
    (x.val < y.val → (noiseStd .reference y).val < (noiseStd .reference x).val)

/-! ### Unit 6, BERSweepEngine -/

/-- BERCMP: the number of differing positions within the original's length and its quotient by that length, between 0
and 1; 0 exactly when the first bits agree; nothing else changes (46_ber.md R201). -/
def Obligations.BitErrorsCounted : Prop :=
  ∀ (s : State) (o d : BitVector), 1 ≤ o.length → o.length ≤ d.length → s.Fits d.length →
    ∃ ber : ℚ,
      exec (.bercmp o d) s = .next (s.answered
        [.ofNat ((Finset.range o.length).filter fun i => o.getD i false ≠ d.getD i false).card, .scalar (.rat ber)]) ∧
      ber = (((Finset.range o.length).filter fun i => o.getD i false ≠ d.getD i false).card : ℚ) / o.length ∧
      0 ≤ ber ∧ ber ≤ 1 ∧ (ber = 0 ↔ d.take o.length = o)

/-- BERSWEEP is its expansion: one QMOD, then for each SNR value in order AWGN, QDEM, HDEC and BERCMP as commands of
their own; `RNG.COUNT` grows by a draw for every sample of every point and nothing else changes (46_ber.md R203, R205,
R206; 30_encoding.md R81). -/
def Obligations.SweepIsExpansion : Prop :=
  ∀ (s : State) (e o : BitVector) (snrs : List RealExpr) (Tb fc : RealExpr) (N : Nat), s.IsReference →
    s.maxLen = none → 0 < Tb.val → 1 ≤ N → e.length % 2 = 0 → e.length % 7 = 0 → 1 ≤ o.length →
    o.length ≤ 4 * e.length / 7 →
      ∃ (w : Stream) (time : List RealExpr) (points : List (Int × Int)) (curve : List (RealExpr × ℚ)) (u : State),
        exec (.qmod e Tb fc N) s = .next (s.answered [.stream w, .reals time, .points points]) ∧
        sweepByCommands w (matchingCos .reference Tb fc N) (matchingSin .reference Tb fc N) e.length N o snrs s =
          some (curve, u) ∧
        curve.map Prod.fst = snrs ∧ u.rng.count = s.rng.count + snrs.length * (e.length / 2 * N) ∧
        exec (.bersweep e o snrs Tb fc N) s = .next ((s.withCount u.rng.count).answered [.curve curve])

/-! ### The text boundary -/

/-- `bitsToText` inverts `textToBits` on codes of 8 bits, and is inverted by it on whole characters
(47_boundaries.md R215, R216). -/
def Obligations.TextRoundTrip : Prop :=
  (∀ codes : List Nat, (∀ c ∈ codes, c < 256) →
    (textToBits codes).length = 8 * codes.length ∧ bitsToText (textToBits codes) = codes) ∧
    ∀ v : BitVector, v.length % 8 = 0 → textToBits (bitsToText v) = v
end

