-- ==== Sys2Proof/Laws/Enclosure.lean ====
section
/-! SUPPORT. Every enclosure Machine/Enclosure.lean finds holds the value of its expression
(`RealExpr.enclosure_holds`); one lemma per operation on enclosures. -/

namespace Sys2Proof

/-- `e.lo / 10^20 ≤ x ≤ e.hi / 10^20`. -/
def Enclosure.Holds (e : Enclosure) (x : ℝ) : Prop :=
  (e.lo : ℝ) ≤ x * (Enclosure.scale : ℝ) ∧ x * (Enclosure.scale : ℝ) ≤ (e.hi : ℝ)

namespace Enclosure

theorem scale_pos : (0 : ℝ) < (scale : ℝ) := by norm_num [scale]

theorem ediv_cast_le (a : Int) {b : Int} (hb : 0 < b) : ((a / b : Int) : ℝ) ≤ (a : ℝ) / (b : ℝ) := by
  rw [le_div_iff₀ (by exact_mod_cast hb)]
  exact_mod_cast Int.ediv_mul_le a hb.ne'

theorem le_ceilDiv_cast (a : Int) {b : Int} (hb : 0 < b) : (a : ℝ) / (b : ℝ) ≤ ((ceilDiv a b : Int) : ℝ) := by
  have h := ediv_cast_le (-a) hb
  simp only [ceilDiv]
  push_cast at h ⊢
  rw [neg_div] at h
  linarith

theorem holds_ofInt (n : Int) : (ofInt n).Holds (n : ℝ) := by
  simp [Holds, ofInt]

theorem holds_ofRat (q : ℚ) : (ofRat q).Holds (q : ℝ) := by
  have hd : (0 : Int) < (q.den : Int) := by exact_mod_cast q.den_pos
  have h1 := ediv_cast_le (q.num * scale) hd
  have h2 := le_ceilDiv_cast (q.num * scale) hd
  have hq : (q : ℝ) * (scale : ℝ) = ((q.num * scale : Int) : ℝ) / ((q.den : Int) : ℝ) := by
    rw [Rat.cast_def]; push_cast; ring
  exact ⟨by rw [hq]; exact h1, by rw [hq]; exact h2⟩

theorem holds_circle : circle.Holds Real.pi := by
  have h1 := Real.pi_gt_d20
  have h2 := Real.pi_lt_d20
  constructor <;> norm_num [circle, scale] <;> linarith

theorem Holds.add {e f : Enclosure} {x y : ℝ} (hx : e.Holds x) (hy : f.Holds y) : (e.add f).Holds (x + y) := by
  obtain ⟨a, b⟩ := hx
  obtain ⟨c, d⟩ := hy
  constructor <;> simp only [Enclosure.add] <;> push_cast <;> linarith

theorem Holds.neg {e : Enclosure} {x : ℝ} (hx : e.Holds x) : e.neg.Holds (-x) := by
  obtain ⟨a, b⟩ := hx
  constructor <;> simp only [Enclosure.neg] <;> push_cast <;> linarith

theorem Holds.sub {e f : Enclosure} {x y : ℝ} (hx : e.Holds x) (hy : f.Holds y) : (e.sub f).Holds (x - y) := by
  rw [sub_eq_add_neg]
  exact hx.add hy.neg

theorem mul_between {a b u : ℝ} (v : ℝ) (h1 : a ≤ u) (h2 : u ≤ b) :
    min (a * v) (b * v) ≤ u * v ∧ u * v ≤ Max.max (a * v) (b * v) := by
  rcases le_total 0 v with h | h
  · exact ⟨min_le_of_left_le (mul_le_mul_of_nonneg_right h1 h), le_max_of_le_right (mul_le_mul_of_nonneg_right h2 h)⟩
  · exact ⟨min_le_of_right_le (mul_le_mul_of_nonpos_right h2 h), le_max_of_le_left (mul_le_mul_of_nonpos_right h1 h)⟩

theorem mul_within {a b c d u v : ℝ} (h1 : a ≤ u) (h2 : u ≤ b) (h3 : c ≤ v) (h4 : v ≤ d) :
    min (min (a * c) (a * d)) (min (b * c) (b * d)) ≤ u * v ∧
      u * v ≤ Max.max (Max.max (a * c) (a * d)) (Max.max (b * c) (b * d)) := by
  have p := mul_between v h1 h2
  have q1 := mul_between a h3 h4
  have q2 := mul_between b h3 h4
  simp only [mul_comm _ a, mul_comm _ b] at q1 q2
  constructor
  · exact (min_le_min q1.1 q2.1).trans p.1
  · exact p.2.trans (max_le_max q1.2 q2.2)

theorem Holds.mul {e f : Enclosure} {x y : ℝ} (hx : e.Holds x) (hy : f.Holds y) : (e.mul f).Holds (x * y) := by
  have hs := scale_pos
  have hsi : (0 : Int) < (scale : Int) := by norm_num [scale]
  have h := mul_within hx.1 hx.2 hy.1 hy.2
  have e1 : x * y * (scale : ℝ) = (x * scale) * (y * scale) / ((scale : Int) : ℝ) := by
    field_simp
    push_cast
    ring
  constructor
  · refine (ediv_cast_le _ hsi).trans ?_
    rw [e1]
    gcongr
    push_cast
    exact h.1
  · refine le_trans ?_ (le_ceilDiv_cast _ hsi)
    rw [e1]
    gcongr
    push_cast
    exact h.2

theorem Holds.divNat {e : Enclosure} {x : ℝ} (hx : e.Holds x) {n : Nat} (hn : 0 < n) : (e.divNat n).Holds (x / n) := by
  have hni : (0 : Int) < (n : Int) := by exact_mod_cast hn
  have hnr : (0 : ℝ) < (n : ℝ) := by exact_mod_cast hn
  have e1 : x / n * (scale : ℝ) = x * scale / ((n : Int) : ℝ) := by push_cast; ring
  constructor
  · refine (ediv_cast_le _ hni).trans ?_
    rw [e1]
    gcongr
    exact hx.1
  · refine le_trans ?_ (le_ceilDiv_cast _ hni)
    rw [e1]
    gcongr
    exact hx.2

theorem Holds.widen {e : Enclosure} {x y : ℝ} (hx : e.Holds x) {d : Int} (hd : |y - x| * (scale : ℝ) ≤ d) :
    (e.widen d).Holds y := by
  have hs := scale_pos
  have h1 : |(y - x) * (scale : ℝ)| ≤ d := by rwa [abs_mul, abs_of_pos hs]
  rw [abs_le] at h1
  obtain ⟨a, b⟩ := hx
  constructor <;> simp only [Enclosure.widen] <;> push_cast <;> linarith

theorem Holds.invPos {e : Enclosure} {x : ℝ} (hx : e.Holds x) (hlo : 0 < e.lo) : e.invPos.Holds x⁻¹ := by
  have hs := scale_pos
  have hl : (0 : ℝ) < e.lo := by exact_mod_cast hlo
  have hxs : 0 < x * (scale : ℝ) := hl.trans_le hx.1
  have hx0 : 0 < x := pos_of_mul_pos_left hxs hs.le
  have hhi : (0 : ℝ) < e.hi := hxs.trans_le hx.2
  have e1 : x⁻¹ * (scale : ℝ) = (((scale * scale : Nat) : Int) : ℝ) / (x * scale) := by
    push_cast
    field_simp
  constructor
  · refine (ediv_cast_le _ (by exact_mod_cast hhi)).trans ?_
    rw [e1]
    gcongr
    exact hx.2
  · refine le_trans ?_ (le_ceilDiv_cast _ hlo)
    rw [e1]
    gcongr
    exact hx.1

theorem Holds.inv {e r : Enclosure} {x : ℝ} (hx : e.Holds x) (h : e.inv = some r) : r.Holds x⁻¹ := by
  unfold Enclosure.inv at h
  split_ifs at h with h1 h2
  · cases h
    exact hx.invPos h1
  · cases h
    have := (hx.neg.invPos (by simpa [Enclosure.neg] using h2)).neg
    rwa [inv_neg, neg_neg] at this

theorem Holds.max {e f : Enclosure} {x y : ℝ} (hx : e.Holds x) (hy : f.Holds y) : (e.max f).Holds (Max.max x y) := by
  have hs := scale_pos.le
  simp only [Holds, Enclosure.max]
  push_cast
  rw [max_mul_of_nonneg _ _ hs]
  exact ⟨max_le_max hx.1 hy.1, max_le_max hx.2 hy.2⟩

theorem Holds.sqrt {e r : Enclosure} {x : ℝ} (hx : e.Holds x) (h : e.sqrt = some r) : r.Holds (Real.sqrt x) := by
  have hs := scale_pos
  simp only [Enclosure.sqrt] at h
  split_ifs at h with hc
  cases h
  obtain ⟨h1, h2⟩ := hc
  generalize isqrt _ (e.lo.toNat * scale) = a at *
  generalize isqrt _ (e.hi.toNat * scale) + 1 = b at *
  have key : Real.sqrt x * (scale : ℝ) = Real.sqrt (x * scale * scale) := by
    rw [mul_assoc, Real.sqrt_mul' _ (by positivity), Real.sqrt_mul_self hs.le]
  simp only [Holds]
  rw [key]
  constructor
  · rcases Nat.eq_zero_or_pos a with h0 | h0
    · subst h0
      rw [Nat.cast_zero, Int.cast_zero]
      exact Real.sqrt_nonneg _
    · apply Real.le_sqrt_of_sq_le
      have hlo : 0 < e.lo := by
        by_contra hneg
        have : e.lo.toNat = 0 := by omega
        rw [this] at h1
        nlinarith
      have h3 : ((a * a : Nat) : ℝ) ≤ ((e.lo.toNat * scale : Nat) : ℝ) := by exact_mod_cast h1
      have h4 : ((e.lo.toNat : Nat) : ℝ) = (e.lo : ℝ) := by
        have : ((e.lo.toNat : Int) : ℝ) = (e.lo : ℝ) := by rw [Int.toNat_of_nonneg hlo.le]
        exact_mod_cast this
      push_cast at h3 ⊢
      rw [h4] at h3
      have := mul_le_mul_of_nonneg_right hx.1 hs.le
      nlinarith
  · rw [Real.sqrt_le_left (by positivity)]
    have h3 : ((e.hi.toNat * scale : Nat) : ℝ) ≤ ((b * b : Nat) : ℝ) := by exact_mod_cast h2
    have h4 : (e.hi : ℝ) ≤ ((e.hi.toNat : Nat) : ℝ) := by
      have : (e.hi : ℝ) ≤ ((e.hi.toNat : Int) : ℝ) := by exact_mod_cast Int.self_le_toNat e.hi
      exact_mod_cast this
    push_cast at h3 ⊢
    have h5 := mul_le_mul_of_nonneg_right (hx.2.trans h4) hs.le
    nlinarith

/-! ### Cosine and sine -/

/-- Term `k` of the series of `exp(j·y)`. -/
noncomputable def cisTerm (y : ℝ) (k : Nat) : ℂ := (Complex.I * y) ^ k / (k.factorial : ℂ)

/-- The sum of the first `n` terms. -/
noncomputable def cisSum (y : ℝ) (n : Nat) : ℂ := ∑ m ∈ Finset.range n, cisTerm y m

theorem cisTerm_succ (y : ℝ) (k : Nat) : cisTerm y (k + 1) = cisTerm y k * (Complex.I * y) / ((k + 1 : Nat) : ℂ) := by
  have h : ((k + 1 : Nat) : ℂ) ≠ 0 := by exact_mod_cast Nat.succ_ne_zero k
  have h2 : ((k.factorial : Nat) : ℂ) ≠ 0 := by exact_mod_cast Nat.factorial_ne_zero k
  simp only [cisTerm, Nat.factorial_succ, pow_succ]
  push_cast at *
  field_simp

theorem cisTerm_succ_re (y : ℝ) (k : Nat) : (cisTerm y (k + 1)).re = -((cisTerm y k).im * y) / ((k + 1 : Nat) : ℝ) := by
  rw [cisTerm_succ, Complex.div_natCast_re]
  simp [Complex.mul_re, Complex.mul_im]

theorem cisTerm_succ_im (y : ℝ) (k : Nat) : (cisTerm y (k + 1)).im = ((cisTerm y k).re * y) / ((k + 1 : Nat) : ℝ) := by
  rw [cisTerm_succ, Complex.div_natCast_im]
  simp [Complex.mul_re, Complex.mul_im]

theorem holds_cisTerms {e : Enclosure} {y : ℝ} (hy : e.Holds y) :
    ∀ (n k : Nat) (c s tc ts : Enclosure), c.Holds (cisSum y k).re → s.Holds (cisSum y k).im →
      tc.Holds (cisTerm y k).re → ts.Holds (cisTerm y k).im →
      (cisTerms e n k c s tc ts).1.Holds (cisSum y (k + n)).re ∧
        (cisTerms e n k c s tc ts).2.Holds (cisSum y (k + n)).im := by
  intro n
  induction n with
  | zero => intro k c s tc ts hc hs _ _; exact ⟨hc, hs⟩
  | succ n ih =>
    intro k c s tc ts hc hs htc hts
    have hsum : cisSum y (k + 1) = cisSum y k + cisTerm y k := Finset.sum_range_succ _ _
    have e1 : k + (n + 1) = (k + 1) + n := by omega
    rw [cisTerms, e1]
    apply ih
    · rw [hsum, Complex.add_re]; exact hc.add htc
    · rw [hsum, Complex.add_im]; exact hs.add hts
    · rw [cisTerm_succ_re]; exact (hts.mul hy).neg.divNat (Nat.succ_pos k)
    · rw [cisTerm_succ_im]; exact (htc.mul hy).divNat (Nat.succ_pos k)

theorem cisSum_near {y : ℝ} (hy : |y| ≤ 1) : ‖Complex.exp (Complex.I * y) - cisSum y 24‖ * (scale : ℝ) ≤ 1 := by
  have hn : ‖Complex.I * (y : ℂ)‖ ≤ 1 := by simpa using hy
  have h := Complex.exp_bound hn (n := 24) (by norm_num)
  have hp : ‖Complex.I * (y : ℂ)‖ ^ 24 ≤ 1 := pow_le_one₀ (norm_nonneg _) hn
  have h2 : ‖Complex.exp (Complex.I * y) - cisSum y 24‖ ≤
      1 * (((24 : Nat).succ : ℝ) * (((24 : Nat).factorial : ℝ) * (24 : Nat))⁻¹) :=
    h.trans (mul_le_mul_of_nonneg_right hp (by positivity))
  refine (mul_le_mul_of_nonneg_right h2 scale_pos.le).trans ?_
  norm_num [scale, Nat.factorial]

theorem exp_I_re (y : ℝ) : (Complex.exp (Complex.I * y)).re = Real.cos y := by
  rw [mul_comm, Complex.exp_ofReal_mul_I_re]

theorem exp_I_im (y : ℝ) : (Complex.exp (Complex.I * y)).im = Real.sin y := by
  rw [mul_comm, Complex.exp_ofReal_mul_I_im]

theorem holds_cisDouble : ∀ (n : Nat) (z : Enclosure × Enclosure) (y : ℝ), z.1.Holds (Real.cos y) →
    z.2.Holds (Real.sin y) →
    (cisDouble n z).1.Holds (Real.cos (2 ^ n * y)) ∧ (cisDouble n z).2.Holds (Real.sin (2 ^ n * y)) := by
  intro n
  induction n with
  | zero => intro z y h1 h2; simpa [cisDouble] using ⟨h1, h2⟩
  | succ n ih =>
    intro z y h1 h2
    have e1 : (2 : ℝ) ^ (n + 1) * y = 2 ^ n * (2 * y) := by ring
    rw [e1, cisDouble]
    apply ih
    · have : Real.cos (2 * y) = Real.cos y * Real.cos y - Real.sin y * Real.sin y := by
        rw [two_mul, Real.cos_add]
      rw [this]
      exact (h1.mul h1).sub (h2.mul h2)
    · have : Real.sin (2 * y) = ((2 : Int) : ℝ) * (Real.cos y * Real.sin y) := by
        rw [Real.sin_two_mul]; push_cast; ring
      rw [this]
      exact (holds_ofInt 2).mul (h1.mul h2)

theorem Holds.cis {e : Enclosure} {x : ℝ} {z : Enclosure × Enclosure} (hx : e.Holds x) (h : e.cis = some z) :
    z.1.Holds (Real.cos x) ∧ z.2.Holds (Real.sin x) := by
  have hs := scale_pos
  simp only [Enclosure.cis] at h
  split_ifs at h with hc
  cases h
  generalize e.halvings = k at *
  have hy : (e.divNat (2 ^ k)).Holds (x / ((2 ^ k : Nat) : ℝ)) := hx.divNat (by positivity)
  generalize e.divNat (2 ^ k) = f at *
  have hxy : x = 2 ^ k * (x / ((2 ^ k : Nat) : ℝ)) := by push_cast; field_simp
  generalize x / ((2 ^ k : Nat) : ℝ) = y at *
  have hy1 : |y| ≤ 1 := by
    have a1 : (-(scale : ℝ)) ≤ (f.lo : ℝ) := by exact_mod_cast hc.1
    have a2 : (f.hi : ℝ) ≤ (scale : ℝ) := by exact_mod_cast hc.2
    rw [abs_le]
    constructor
    · nlinarith [hy.1]
    · nlinarith [hy.2]
  have h0 := holds_cisTerms hy 24 0 (.ofInt 0) (.ofInt 0) (.ofInt 1) (.ofInt 0)
    (by simpa [cisSum] using holds_ofInt 0) (by simpa [cisSum] using holds_ofInt 0)
    (by simpa [cisTerm] using holds_ofInt 1) (by simpa [cisTerm] using holds_ofInt 0)
  simp only [Nat.zero_add] at h0
  have hnear := cisSum_near hy1
  have hre : |Real.cos y - (cisSum y 24).re| * (scale : ℝ) ≤ ((1 : Int) : ℝ) := by
    have := Complex.abs_re_le_norm (Complex.exp (Complex.I * y) - cisSum y 24)
    rw [Complex.sub_re, exp_I_re] at this
    push_cast
    exact (mul_le_mul_of_nonneg_right this hs.le).trans hnear
  have him : |Real.sin y - (cisSum y 24).im| * (scale : ℝ) ≤ ((1 : Int) : ℝ) := by
    have := Complex.abs_im_le_norm (Complex.exp (Complex.I * y) - cisSum y 24)
    rw [Complex.sub_im, exp_I_im] at this
    push_cast
    exact (mul_le_mul_of_nonneg_right this hs.le).trans hnear
  rw [hxy]
  exact holds_cisDouble k _ y (h0.1.widen hre) (h0.2.widen him)

theorem Holds.cos {e r : Enclosure} {x : ℝ} (hx : e.Holds x) (h : e.cos = some r) : r.Holds (Real.cos x) := by
  simp only [Enclosure.cos, Option.map_eq_some_iff] at h
  obtain ⟨z, hz, rfl⟩ := h
  exact (hx.cis hz).1

theorem Holds.sin {e r : Enclosure} {x : ℝ} (hx : e.Holds x) (h : e.sin = some r) : r.Holds (Real.sin x) := by
  simp only [Enclosure.sin, Option.map_eq_some_iff] at h
  obtain ⟨z, hz, rfl⟩ := h
  exact (hx.cis hz).2

theorem Holds.tan {e r : Enclosure} {x : ℝ} (hx : e.Holds x) (h : e.tan = some r) : r.Holds (Real.tan x) := by
  simp only [Enclosure.tan, Option.bind_eq_some_iff, Option.map_eq_some_iff] at h
  obtain ⟨z, hz, i, hi, rfl⟩ := h
  rw [Real.tan_eq_sin_div_cos, div_eq_mul_inv]
  exact (hx.cis hz).2.mul ((hx.cis hz).1.inv hi)

/-! ### Powers of ten -/

theorem holds_tenRoot {a b : Nat} {r : Enclosure} (h : tenRoot a b = some r) :
    r.Holds ((10 : ℝ) ^ ((a : ℝ) / (b : ℝ))) := by
  have hs := scale_pos
  simp only [tenRoot] at h
  split_ifs at h with hc
  cases h
  generalize rootBits _ _ _ _ = v at *
  obtain ⟨hb, h1, h2⟩ := hc
  have hb' : (b : ℝ) ≠ 0 := by exact_mod_cast hb.ne'
  have hpow : ((10 : ℝ) ^ ((a : ℝ) / (b : ℝ)) * scale) ^ b = 10 ^ a * (scale : ℝ) ^ b := by
    rw [mul_pow, ← Real.rpow_natCast ((10 : ℝ) ^ ((a : ℝ) / (b : ℝ))) b, ← Real.rpow_mul (by norm_num),
      div_mul_cancel₀ _ hb', Real.rpow_natCast]
  have hnn : 0 ≤ (10 : ℝ) ^ ((a : ℝ) / (b : ℝ)) * scale := by positivity
  constructor
  · have h3 : ((v : ℝ)) ^ b ≤ ((10 : ℝ) ^ ((a : ℝ) / (b : ℝ)) * scale) ^ b := by
      rw [hpow]; exact_mod_cast h1
    simpa using (pow_le_pow_iff_left₀ (by positivity) hnn hb.ne').1 h3
  · have h3 : ((10 : ℝ) ^ ((a : ℝ) / (b : ℝ)) * scale) ^ b ≤ ((v : ℝ) + 1) ^ b := by
      rw [hpow]; exact_mod_cast h2
    simpa using (pow_le_pow_iff_left₀ hnn (by positivity) hb.ne').1 h3

theorem holds_tenTo {q : ℚ} {r : Enclosure} (h : Enclosure.tenTo q = some r) : r.Holds ((10 : ℝ) ^ (q : ℝ)) := by
  have hq : (q : ℝ) = (q.num : ℝ) / (q.den : ℝ) := Rat.cast_def q
  simp only [Enclosure.tenTo] at h
  split_ifs at h with h0
  · have := holds_tenRoot h
    rw [Nat.cast_natAbs, abs_of_nonneg h0] at this
    rwa [hq]
  · rw [Option.bind_eq_some_iff] at h
    obtain ⟨e, he, hi⟩ := h
    have := (holds_tenRoot he).inv hi
    rw [Nat.cast_natAbs, abs_of_neg (not_le.1 h0), ← Real.rpow_neg (by norm_num)] at this
    rw [hq]
    convert this using 2
    push_cast
    ring

/-! ### The angle -/

theorem arg_of_turned {z w : ℂ} {m t : ℝ} (hz : z = w * Complex.exp (m * Complex.I)) (hw : 0 < w.re)
    (ht : |w.im| ≤ t * w.re) (h1 : -Real.pi < m - t) (h2 : m + t ≤ Real.pi) :
    m - t ≤ Complex.arg z ∧ Complex.arg z ≤ m + t := by
  have hw0 : w ≠ 0 := by
    rintro rfl
    simp at hw
  have hlt : |Complex.arg w| < Real.pi / 2 := Complex.abs_arg_lt_pi_div_two_iff.2 (Or.inl hw)
  have harg : |Complex.arg w| ≤ t := by
    have h3 := Real.le_tan (abs_nonneg _) hlt
    have h4 : Real.tan |Complex.arg w| ≤ |Real.tan (Complex.arg w)| := by
      rcases abs_choice (Complex.arg w) with h | h <;> rw [h]
      · exact le_abs_self _
      · rw [Real.tan_neg]; exact neg_le_abs _
    rw [Complex.tan_arg, abs_div, abs_of_pos hw] at h4
    exact h3.trans (h4.trans ((div_le_iff₀ hw).2 ht))
  rw [abs_le] at harg
  have hθ : Complex.arg w + m ∈ Set.Ioc (-Real.pi) Real.pi := ⟨by linarith [harg.1], by linarith [harg.2]⟩
  have hz2 : z = (‖w‖ : ℂ) * (Complex.cos ((Complex.arg w + m : ℝ) : ℂ) + Complex.sin ((Complex.arg w + m : ℝ) : ℂ) * Complex.I) := by
    rw [← Complex.exp_mul_I, hz]
    push_cast
    rw [add_mul, Complex.exp_add, ← mul_assoc, Complex.norm_mul_exp_arg_mul_I]
  rw [hz2, Complex.arg_mul_cos_add_sin_mul_I (norm_pos_iff.2 hw0) hθ]
  constructor <;> linarith [harg.1, harg.2]

theorem Holds.angle {e f r : Enclosure} {x y : ℝ} (hx : e.Holds x) (hy : f.Holds y) (h : e.angle f = some r) :
    r.Holds (Complex.arg ⟨x, y⟩) := by
  have hs := scale_pos
  simp only [Enclosure.angle, Option.bind_eq_some_iff] at h
  obtain ⟨z, hz, h⟩ := h
  generalize guessAngle _ _ _ _ = m at *
  split_ifs at h with h1 h2
  cases h
  set g := ceilDiv (Max.max (((f.mul z.1).sub (e.mul z.2)).lo.natAbs) (((f.mul z.1).sub (e.mul z.2)).hi.natAbs) * scale : Nat)
    ((e.mul z.1).add (f.mul z.2)).lo with hg
  have hm : (⟨m, m⟩ : Enclosure).Holds ((m : ℝ) / scale) := by
    have : (m : ℝ) / scale * scale = m := div_mul_cancel₀ _ hs.ne'
    exact ⟨by rw [this], by rw [this]⟩
  obtain ⟨hc, hsn⟩ := hm.cis hz
  set M : ℝ := (m : ℝ) / scale with hM
  set w : ℂ := ⟨x * Real.cos M + y * Real.sin M, y * Real.cos M - x * Real.sin M⟩ with hw
  have hre := (hx.mul hc).add (hy.mul hsn)
  have him := (hy.mul hc).sub (hx.mul hsn)
  have hzw : (⟨x, y⟩ : ℂ) = w * Complex.exp ((M : ℂ) * Complex.I) := by
    have hcs := Real.cos_sq_add_sin_sq M
    rw [Complex.exp_mul_I]
    apply Complex.ext
    · simp [hw, Complex.mul_re, Complex.cos_ofReal_re, Complex.sin_ofReal_re, Complex.cos_ofReal_im,
        Complex.sin_ofReal_im, Complex.add_re, Complex.add_im, Complex.mul_im]
      linear_combination (-x) * hcs
    · simp [hw, Complex.mul_re, Complex.cos_ofReal_re, Complex.sin_ofReal_re, Complex.cos_ofReal_im,
        Complex.sin_ofReal_im, Complex.add_re, Complex.add_im, Complex.mul_im]
      linear_combination (-y) * hcs
  have hlo : (0 : ℝ) < (((e.mul z.1).add (f.mul z.2)).lo : ℝ) := by exact_mod_cast h1
  have hwre : 0 < w.re := by
    have : 0 < w.re * (scale : ℝ) := hlo.trans_le hre.1
    exact pos_of_mul_pos_left this hs.le
  have ht : |w.im| ≤ (g : ℝ) / scale * w.re := by
    have ha : |w.im * (scale : ℝ)| ≤
        ((Max.max (((f.mul z.1).sub (e.mul z.2)).lo.natAbs) (((f.mul z.1).sub (e.mul z.2)).hi.natAbs) : Nat) : ℝ) := by
      have b1 : |(((f.mul z.1).sub (e.mul z.2)).lo : ℝ)| ≤ ((((f.mul z.1).sub (e.mul z.2)).lo.natAbs : Nat) : ℝ) := by
        rw [Nat.cast_natAbs]; push_cast; exact le_refl _
      have b2 : |(((f.mul z.1).sub (e.mul z.2)).hi : ℝ)| ≤ ((((f.mul z.1).sub (e.mul z.2)).hi.natAbs : Nat) : ℝ) := by
        rw [Nat.cast_natAbs]; push_cast; exact le_refl _
      rw [Nat.cast_max]
      rw [abs_le]
      constructor
      · have := (abs_le.1 (b1.trans (le_max_left _ ((((f.mul z.1).sub (e.mul z.2)).hi.natAbs : Nat) : ℝ)))).1
        exact this.trans him.1
      · have := (abs_le.1 (b2.trans (le_max_right ((((f.mul z.1).sub (e.mul z.2)).lo.natAbs : Nat) : ℝ) _))).2
        exact him.2.trans this
    have hgc := le_ceilDiv_cast (Max.max (((f.mul z.1).sub (e.mul z.2)).lo.natAbs) (((f.mul z.1).sub (e.mul z.2)).hi.natAbs) * scale : Nat) h1
    rw [← hg, div_le_iff₀ hlo] at hgc
    have hg0 : (0 : ℝ) ≤ g := by
      have : (0 : ℝ) ≤ (g : ℝ) * (((e.mul z.1).add (f.mul z.2)).lo : ℝ) := le_trans (by positivity) hgc
      exact nonneg_of_mul_nonneg_left this hlo
    have h5 : |w.im| * scale * scale ≤ (g : ℝ) * (w.re * scale) := by
      rw [abs_mul, abs_of_pos hs] at ha
      have := mul_le_mul_of_nonneg_right ha hs.le
      rw [Int.cast_natCast, Nat.cast_mul] at hgc
      refine this.trans (hgc.trans ?_)
      exact mul_le_mul_of_nonneg_left hre.1 hg0
    rw [div_mul_eq_mul_div, le_div_iff₀ hs]
    nlinarith
  have hpi := holds_circle
  have hc1 : -(circle.lo : ℝ) ≤ (m : ℝ) - g := by exact_mod_cast h2.1
  have hc2 : (m : ℝ) + g ≤ (circle.lo : ℝ) := by exact_mod_cast h2.2
  have hpl : (circle.lo : ℝ) < Real.pi * scale := by
    have := Real.pi_gt_d20
    norm_num [circle, scale]
    linarith
  have hr := arg_of_turned (t := (g : ℝ) / scale) hzw hwre ht
    (by rw [hM, ← sub_div, lt_div_iff₀ hs]; nlinarith) (by rw [hM, ← add_div, div_le_iff₀ hs]; nlinarith)
  rw [hM, ← sub_div, ← add_div, div_le_iff₀ hs, le_div_iff₀ hs] at hr
  constructor
  · push_cast; exact hr.1
  · push_cast; exact hr.2

end Enclosure

/-- Every enclosure found holds the value. -/
theorem RealExpr.enclosure_holds : ∀ (t : RealExpr) (e : Enclosure), t.enclosure = some e → e.Holds t.val
  | .rat q, e, h => by cases h; exact Enclosure.holds_ofRat q
  | .pi, e, h => by cases h; exact Enclosure.holds_circle
  | .gauss _ _, e, h => by cases h
  | .given _, e, h => by cases h
  | .sum a b, e, h => by
    simp only [enclosure, Option.bind_eq_some_iff, Option.map_eq_some_iff] at h
    obtain ⟨x, hx, y, hy, rfl⟩ := h
    exact (a.enclosure_holds x hx).add (b.enclosure_holds y hy)
  | .prod a b, e, h => by
    simp only [enclosure, Option.bind_eq_some_iff, Option.map_eq_some_iff] at h
    obtain ⟨x, hx, y, hy, rfl⟩ := h
    exact (a.enclosure_holds x hx).mul (b.enclosure_holds y hy)
  | .quot a b, e, h => by
    simp only [enclosure, Option.bind_eq_some_iff, Option.map_eq_some_iff] at h
    obtain ⟨x, hx, y, hy, z, hz, rfl⟩ := h
    rw [val, div_eq_mul_inv]
    exact (a.enclosure_holds x hx).mul ((b.enclosure_holds y hy).inv hz)
  | .root a, e, h => by
    simp only [enclosure, Option.bind_eq_some_iff] at h
    obtain ⟨x, hx, h⟩ := h
    exact (a.enclosure_holds x hx).sqrt h
  | .cosine a, e, h => by
    simp only [enclosure, Option.bind_eq_some_iff] at h
    obtain ⟨x, hx, h⟩ := h
    exact (a.enclosure_holds x hx).cos h
  | .sine a, e, h => by
    simp only [enclosure, Option.bind_eq_some_iff] at h
    obtain ⟨x, hx, h⟩ := h
    exact (a.enclosure_holds x hx).sin h
  | .tangent a, e, h => by
    simp only [enclosure, Option.bind_eq_some_iff] at h
    obtain ⟨x, hx, h⟩ := h
    exact (a.enclosure_holds x hx).tan h
  | .tenTo a, e, h => by
    cases a <;> simp only [enclosure, reduceCtorEq] at h
    exact Enclosure.holds_tenTo h
  | .argOf a b, e, h => by
    simp only [enclosure, Option.bind_eq_some_iff] at h
    obtain ⟨x, hx, y, hy, h⟩ := h
    exact (a.enclosure_holds x hx).angle (b.enclosure_holds y hy) h
  | .larger a b, e, h => by
    simp only [enclosure, Option.bind_eq_some_iff, Option.map_eq_some_iff] at h
    obtain ⟨x, hx, y, hy, rfl⟩ := h
    exact (a.enclosure_holds x hx).max (b.enclosure_holds y hy)

end Sys2Proof
end

