-- ==== Sys2Proof/Laws/Numeric.lean ====
section
/-! SUPPORT. Each operation of Machine/Numeric.lean has the exact value (`RealExpr.add_val`, ...), and a comparison is
the one of the real numbers (`RealExpr.sign_eq`); then the same of the reference `NUM`. -/

namespace Sys2Proof

/-! ### Values of the constructors -/

@[simp] theorem RealExpr.val_rat (q : ℚ) : (RealExpr.rat q).val = (q : ℝ) := rfl
@[simp] theorem RealExpr.val_pi : RealExpr.pi.val = Real.pi := rfl
@[simp] theorem RealExpr.val_gauss (s i : Nat) : (RealExpr.gauss s i).val = Config.gauss s i := rfl
@[simp] theorem RealExpr.val_given (k : Nat) : (RealExpr.given k).val = Config.given k := rfl
@[simp] theorem RealExpr.val_sum (a b : RealExpr) : (RealExpr.sum a b).val = a.val + b.val := rfl
@[simp] theorem RealExpr.val_prod (a b : RealExpr) : (RealExpr.prod a b).val = a.val * b.val := rfl
@[simp] theorem RealExpr.val_quot (a b : RealExpr) : (RealExpr.quot a b).val = a.val / b.val := rfl
@[simp] theorem RealExpr.val_root (a : RealExpr) : (RealExpr.root a).val = Real.sqrt a.val := rfl
@[simp] theorem RealExpr.val_cosine (a : RealExpr) : (RealExpr.cosine a).val = Real.cos a.val := rfl
@[simp] theorem RealExpr.val_sine (a : RealExpr) : (RealExpr.sine a).val = Real.sin a.val := rfl
@[simp] theorem RealExpr.val_tangent (a : RealExpr) : (RealExpr.tangent a).val = Real.tan a.val := rfl
@[simp] theorem RealExpr.val_tenTo (a : RealExpr) : (RealExpr.tenTo a).val = (10 : ℝ) ^ a.val := rfl
@[simp] theorem RealExpr.val_argOf (a b : RealExpr) : (RealExpr.argOf a b).val = Complex.arg ⟨a.val, b.val⟩ := rfl
@[simp] theorem RealExpr.val_larger (a b : RealExpr) : (RealExpr.larger a b).val = Max.max a.val b.val := rfl

/-! ### Signs -/

theorem Sign.ofReal_pos {x : ℝ} : Sign.ofReal x = .pos ↔ 0 < x := by
  unfold Sign.ofReal
  split_ifs with h1 h2
  · simp [h1.le]
  · simp [h2]
  · simp; exact lt_of_le_of_ne (not_lt.1 h1) (Ne.symm h2)

theorem Sign.ofReal_zero {x : ℝ} : Sign.ofReal x = .zero ↔ x = 0 := by
  unfold Sign.ofReal
  split_ifs with h1 h2
  · simp [h1.ne]
  · simp [h2]
  · simp [h2]

theorem Sign.ofReal_neg {x : ℝ} : Sign.ofReal x = .neg ↔ x < 0 := by
  unfold Sign.ofReal
  split_ifs with h1 h2 <;> simp [*]

theorem Sign.ofReal_of_pos {x : ℝ} (h : 0 < x) : Sign.ofReal x = .pos := Sign.ofReal_pos.2 h
theorem Sign.ofReal_of_neg {x : ℝ} (h : x < 0) : Sign.ofReal x = .neg := Sign.ofReal_neg.2 h
@[simp] theorem Sign.ofReal_of_zero : Sign.ofReal 0 = .zero := Sign.ofReal_zero.2 rfl

theorem Sign.ofRat_eq (q : ℚ) : Sign.ofRat q = Sign.ofReal (q : ℝ) := by
  unfold Sign.ofRat Sign.ofReal
  simp only [Rat.num_neg, Rat.num_eq_zero, Rat.cast_lt_zero, Rat.cast_eq_zero]

theorem Sign.times_eq (x y : ℝ) : Sign.times (Sign.ofReal x) (Sign.ofReal y) = Sign.ofReal (x * y) := by
  rcases lt_trichotomy x 0 with hx | hx | hx <;> rcases lt_trichotomy y 0 with hy | hy | hy
  · rw [ofReal_of_neg hx, ofReal_of_neg hy, ofReal_of_pos (mul_pos_of_neg_of_neg hx hy)]; rfl
  · rw [ofReal_of_neg hx, hy, mul_zero, ofReal_of_zero]; rfl
  · rw [ofReal_of_neg hx, ofReal_of_pos hy, ofReal_of_neg (mul_neg_of_neg_of_pos hx hy)]; rfl
  · rw [hx, zero_mul, ofReal_of_zero]; rfl
  · rw [hx, zero_mul, ofReal_of_zero]; rfl
  · rw [hx, zero_mul, ofReal_of_zero]; rfl
  · rw [ofReal_of_pos hx, ofReal_of_neg hy, ofReal_of_neg (mul_neg_of_pos_of_neg hx hy)]; rfl
  · rw [ofReal_of_pos hx, hy, mul_zero, ofReal_of_zero]; rfl
  · rw [ofReal_of_pos hx, ofReal_of_pos hy, ofReal_of_pos (mul_pos hx hy)]; rfl

theorem Enclosure.sign_holds {e : Enclosure} {x : ℝ} {s : Sign} (hx : e.Holds x) (h : e.sign = some s) :
    s = Sign.ofReal x := by
  have hs := Enclosure.scale_pos
  obtain ⟨h1, h2⟩ := hx
  unfold Enclosure.sign at h
  split_ifs at h with p1 p2 p3 <;> cases h
  · have : (0 : ℝ) < e.lo := by exact_mod_cast p1
    exact (Sign.ofReal_of_pos (pos_of_mul_pos_left (this.trans_le h1) hs.le)).symm
  · have : (e.hi : ℝ) < 0 := by exact_mod_cast p2
    exact (Sign.ofReal_of_neg (neg_of_mul_neg_left (h2.trans_lt this) hs.le)).symm
  · rw [p3.1, Int.cast_zero] at h1
    rw [p3.2, Int.cast_zero] at h2
    have : x = 0 := by
      rcases mul_eq_zero.1 (le_antisymm h2 h1) with h | h
      · exact h
      · exact absurd h hs.ne'
    exact (Sign.ofReal_zero.2 this).symm

theorem Sign.ofReal_sqrt (x : ℝ) : Sign.ofReal (Real.sqrt x) = if Sign.ofReal x = .pos then .pos else .zero := by
  split_ifs with h
  · rw [ofReal_pos] at h ⊢
    exact Real.sqrt_pos.2 h
  · rw [ofReal_pos, not_lt] at h
    rw [ofReal_zero, Real.sqrt_eq_zero_of_nonpos h]

theorem Sign.ofReal_max_pos {x y : ℝ} (h : Sign.ofReal x = .pos ∨ Sign.ofReal y = .pos) :
    Sign.ofReal (Max.max x y) = .pos := by
  simp only [ofReal_pos] at h ⊢
  exact lt_max_iff.2 h

theorem Sign.ofReal_max {x y : ℝ} (h : ¬(Sign.ofReal x = .pos ∨ Sign.ofReal y = .pos)) :
    Sign.ofReal (Max.max x y) = if Sign.ofReal x = .neg then Sign.ofReal y else Sign.ofReal x := by
  simp only [ofReal_pos, not_or, not_lt] at h
  split_ifs with h1
  · rw [ofReal_neg] at h1
    rcases h.2.lt_or_eq with h2 | h2
    · rw [ofReal_of_neg h2, ofReal_neg]; exact max_lt h1 h2
    · rw [h2, ofReal_of_zero, ofReal_zero, max_eq_right h1.le]
  · rw [ofReal_neg, not_lt] at h1
    have hx : x = 0 := le_antisymm h.1 h1
    rw [hx, ofReal_of_zero, ofReal_zero, max_eq_left h.2]

/-- A sign found by exact rules is the true one. -/
theorem RealExpr.exactSign_val : ∀ (t : RealExpr) (s : Sign), t.exactSign = some s → s = Sign.ofReal t.val
  | .rat q, s, h => by
    cases h
    exact Sign.ofRat_eq q
  | .root a, s, h => by
    simp only [exactSign, Option.map_eq_some_iff] at h
    obtain ⟨r, hr, rfl⟩ := h
    rw [val_root, Sign.ofReal_sqrt, ← a.exactSign_val r hr]
  | .prod a b, s, h => by
    simp only [exactSign, Option.bind_eq_some_iff, Option.map_eq_some_iff] at h
    obtain ⟨r, hr, u, hu, rfl⟩ := h
    rw [val_prod, ← Sign.times_eq, ← a.exactSign_val r hr, ← b.exactSign_val u hu]
  | .larger a b, s, h => by
    simp only [exactSign] at h
    split_ifs at h with hp
    · cases h
      refine (Sign.ofReal_max_pos (hp.imp (fun h => ?_) fun h => ?_)).symm
      · exact (a.exactSign_val _ h).symm
      · exact (b.exactSign_val _ h).symm
    · simp only [Option.bind_eq_some_iff, Option.map_eq_some_iff] at h
      obtain ⟨r, hr, u, hu, rfl⟩ := h
      have ha := a.exactSign_val r hr
      have hb := b.exactSign_val u hu
      rw [val_larger, Sign.ofReal_max, ← ha, ← hb]
      rw [← ha, ← hb]
      simpa [hr, hu] using hp
  | .pi, s, h => by cases h
  | .gauss _ _, s, h => by cases h
  | .given _, s, h => by cases h
  | .sum _ _, s, h => by cases h
  | .quot _ _, s, h => by cases h
  | .cosine _, s, h => by cases h
  | .sine _, s, h => by cases h
  | .tangent _, s, h => by cases h
  | .tenTo _, s, h => by cases h
  | .argOf _ _, s, h => by cases h

/-- A settled sign is the true one. -/
theorem RealExpr.settledSign_val {t : RealExpr} {s : Sign} (h : t.settledSign = some s) : s = Sign.ofReal t.val := by
  unfold settledSign at h
  cases he : t.exactSign with
  | some r =>
    rw [he] at h
    cases h
    exact t.exactSign_val _ he
  | none =>
    rw [he] at h
    simp only [Option.or, Option.bind_eq_some_iff] at h
    obtain ⟨e, h1, h2⟩ := h
    exact Enclosure.sign_holds (t.enclosure_holds e h1) h2

/-- A comparison is the one of the real numbers. -/
theorem RealExpr.sign_eq (t : RealExpr) : t.sign = Sign.ofReal t.val := by
  unfold sign
  cases h : t.settledSign with
  | none => exact t.trueSign.2
  | some s => exact settledSign_val h

/-! ### Arithmetic -/

theorem RealExpr.split_val (t : RealExpr) : ((t.split.1 : ℚ) : ℝ) * t.split.2.val = t.val := by
  unfold split
  split <;> simp

@[simp] theorem RealExpr.scale_val (p : ℚ) (t : RealExpr) : (t.scale p).val = (p : ℝ) * t.val := by
  unfold scale
  split
  · simp
  · have h := t.split_val
    simp only
    rw [← h, ← mul_assoc]
    split_ifs with h1 h2
    · have : (p : ℝ) * ((t.split.1 : ℚ) : ℝ) = 0 := by exact_mod_cast h1
      simp [this]
    · have : (p : ℝ) * ((t.split.1 : ℚ) : ℝ) = 1 := by exact_mod_cast h2
      simp [this]
    · simp

theorem RealExpr.sameAtom_val {a b : RealExpr} (h : a.sameAtom b = true) : a.val = b.val := by
  unfold sameAtom at h
  split at h
  · rfl
  · simp only [decide_eq_true_eq] at h
    rw [h]
  · cases h

@[simp] theorem RealExpr.add_val (a b : RealExpr) : (a.add b).val = a.val + b.val := by
  unfold add
  split
  · simp
  · split_ifs with h1 h2 h3
    · simp [h1]
    · simp [h2]
    · rw [scale_val, ← a.split_val, ← b.split_val, ← sameAtom_val h3]
      push_cast
      ring
    · rfl

@[simp] theorem RealExpr.neg_val (a : RealExpr) : a.neg.val = -a.val := by
  simp [neg]

@[simp] theorem RealExpr.sub_val (a b : RealExpr) : (a.sub b).val = a.val - b.val := by
  simp [sub, sub_eq_add_neg]

theorem RealExpr.mulRest_val (a b : RealExpr) : (RealExpr.mulRest a b).val = a.val * b.val := by
  unfold mulRest
  split
  · split_ifs with h
    · simp only [val_rat, val_root, ← h.1]
      exact (Real.mul_self_sqrt (Rat.cast_nonneg.2 (Rat.num_nonneg.1 h.2))).symm
    · rfl
  · rfl

@[simp] theorem RealExpr.mul_val (a b : RealExpr) : (a.mul b).val = a.val * b.val := by
  unfold mul
  split
  · simp
  · simp [mul_comm]
  · rw [scale_val, mulRest_val, ← a.split_val, ← b.split_val]
    push_cast
    ring

@[simp] theorem RealExpr.div_val (a b : RealExpr) : (a.div b).val = a.val / b.val := by
  unfold div
  split
  · simp [div_eq_mul_inv, mul_comm]
  · split_ifs with h
    · simp [h]
    · rfl

@[simp] theorem RealExpr.sq_val (a : RealExpr) : a.sq.val = a.val ^ 2 := by
  simp [sq, pow_two]

theorem RealExpr.foldl_add_val (l : List RealExpr) (a : RealExpr) :
    (l.foldl RealExpr.add a).val = a.val + (l.map RealExpr.val).sum := by
  induction l generalizing a with
  | nil => simp
  | cons x xs ih => rw [List.foldl_cons, ih, add_val, List.map_cons, List.sum_cons, add_assoc]

@[simp] theorem RealExpr.sumList_val (l : List RealExpr) : (RealExpr.sumList l).val = (l.map RealExpr.val).sum := by
  simp [sumList, foldl_add_val]

theorem sum_map_range {α : Type} [AddCommMonoid α] (n : Nat) (f : Nat → α) :
    ((List.range n).map f).sum = ∑ k ∈ Finset.range n, f k := by
  rw [Finset.sum_range, ← List.sum_ofFn, List.ofFn_eq_map, ← List.map_coe_finRange_eq_range, List.map_map]
  rfl

/-! ### The named functions -/

theorem RealExpr.sqrtRat_val (q : ℚ) : (RealExpr.sqrtRat q).val = Real.sqrt (q : ℝ) := by
  have hd : (0 : ℝ) < (q.den : ℝ) := by exact_mod_cast q.den_pos
  unfold sqrtRat
  split_ifs with h0
  · rw [Real.sqrt_eq_zero_of_nonpos (by exact_mod_cast Rat.num_nonpos.1 h0)]
    simp
  · rw [not_le] at h0
    have hn : ((q.num.natAbs : Nat) : ℝ) = (q.num : ℝ) := by
      rw [Nat.cast_natAbs, abs_of_pos h0]
    have hq : (q : ℝ) = ((q.num.natAbs * q.den : Nat) : ℝ) / ((q.den : ℝ) * q.den) := by
      push_cast
      rw [Rat.cast_def q]
      rw [hn]
      field_simp
    have key : Real.sqrt (q : ℝ) = Real.sqrt ((q.num.natAbs * q.den : Nat) : ℝ) / q.den := by
      rw [hq, Real.sqrt_div' _ (by positivity), Real.sqrt_mul_self hd.le]
    rw [key]
    simp only
    generalize Enclosure.isqrt _ _ = r
    split_ifs with h1
    · rw [← h1]
      push_cast
      rw [Real.sqrt_mul_self (by positivity)]
      simp
    · rw [scale_val, val_root, val_rat]
      push_cast
      ring

@[simp] theorem RealExpr.sqrt_val (a : RealExpr) : a.sqrt.val = Real.sqrt a.val := by
  unfold sqrt
  split
  · exact sqrtRat_val _
  · rfl

theorem RealExpr.piPart_val {t : RealExpr} {q : ℚ} (h : t.piPart = some q) : t.val = (q : ℝ) * Real.pi := by
  unfold piPart at h
  split at h
  · split_ifs at h with h0
    cases h
    simp [h0]
  · cases h
    simp
  · cases h
    simp
  · cases h

theorem RealExpr.twelfths_val {t : RealExpr} {k : Int} (h : t.twelfths = some k) :
    t.val = (k : ℝ) * (Real.pi / 12) := by
  simp only [twelfths, Option.bind_eq_some_iff] at h
  obtain ⟨q, hq, h⟩ := h
  split_ifs at h with hd
  cases h
  rw [piPart_val hq]
  have h1 : (12 * q : ℚ) = (((12 * q).num : Int) : ℚ) := by
    conv_lhs => rw [← Rat.num_div_den (12 * q), hd]
    simp
  have h2 : (12 : ℝ) * (q : ℝ) = (((12 * q).num : Int) : ℝ) := by exact_mod_cast h1
  rw [← h2]
  ring

theorem cos_twelfths_emod (k : Int) : Real.cos ((k : ℝ) * (Real.pi / 12)) = Real.cos (((k % 24 : Int) : ℝ) * (Real.pi / 12)) := by
  have h : (k : ℝ) = ((k % 24 : Int) : ℝ) + 24 * ((k / 24 : Int) : ℝ) := by
    exact_mod_cast (Int.emod_add_mul_ediv k 24).symm
  have h2 : (k : ℝ) * (Real.pi / 12) = ((k % 24 : Int) : ℝ) * (Real.pi / 12) + ((k / 24 : Int) : ℝ) * (2 * Real.pi) := by
    rw [h]; ring
  rw [h2, Real.cos_add_int_mul_two_pi]

theorem RealExpr.cosTable_val {k : Int} {r : RealExpr} (h : RealExpr.cosTable k = some r) :
    r.val = Real.cos ((k : ℝ) * (Real.pi / 12)) := by
  rw [cos_twelfths_emod]
  unfold cosTable at h
  have e6 : Real.cos (2 * (Real.pi / 12)) = √3 / 2 := by
    rw [← Real.cos_pi_div_six]; congr 1; ring
  have e4 : Real.cos (3 * (Real.pi / 12)) = √2 / 2 := by
    rw [← Real.cos_pi_div_four]; congr 1; ring
  have e3 : Real.cos (4 * (Real.pi / 12)) = 1 / 2 := by
    rw [← Real.cos_pi_div_three]; congr 1; ring
  have e2 : Real.cos (6 * (Real.pi / 12)) = 0 := by
    rw [← Real.cos_pi_div_two]; congr 1; ring
  have back (j i : ℝ) (h : i + j = 12) : Real.cos (i * (Real.pi / 12)) = -Real.cos (j * (Real.pi / 12)) := by
    rw [← Real.cos_pi_sub]; congr 1; rw [← eq_sub_iff_add_eq] at h; rw [h]; ring
  have round (j i : ℝ) (h : i + j = 24) : Real.cos (i * (Real.pi / 12)) = Real.cos (j * (Real.pi / 12)) := by
    rw [← Real.cos_two_pi_sub]; congr 1; rw [← eq_sub_iff_add_eq] at h; rw [h]; ring
  split at h <;> rename_i hk <;> cases h
  all_goals rw [hk]
  all_goals push_cast
  · simp
  · rw [e6]; simp; ring
  · rw [e4]; simp; ring
  · rw [e3]; simp
  · rw [e2]; simp
  · rw [back 4 8 (by norm_num), e3]; simp; norm_num
  · rw [back 3 9 (by norm_num), e4]; simp; ring
  · rw [back 2 10 (by norm_num), e6]; simp; ring
  · rw [back 0 12 (by norm_num)]; simp
  · rw [round 10 14 (by norm_num), back 2 10 (by norm_num), e6]; simp; ring
  · rw [round 9 15 (by norm_num), back 3 9 (by norm_num), e4]; simp; ring
  · rw [round 8 16 (by norm_num), back 4 8 (by norm_num), e3]; simp; norm_num
  · rw [round 6 18 (by norm_num), e2]; simp
  · rw [round 4 20 (by norm_num), e3]; simp
  · rw [round 3 21 (by norm_num), e4]; simp; ring
  · rw [round 2 22 (by norm_num), e6]; simp; ring

@[simp] theorem RealExpr.cos_val (t : RealExpr) : t.cos.val = Real.cos t.val := by
  unfold cos
  cases h : t.twelfths.bind cosTable with
  | none => rfl
  | some r =>
    rw [Option.bind_eq_some_iff] at h
    obtain ⟨k, hk, hr⟩ := h
    rw [Option.getD_some, cosTable_val hr, twelfths_val hk]

@[simp] theorem RealExpr.sin_val (t : RealExpr) : t.sin.val = Real.sin t.val := by
  unfold sin
  cases h : t.twelfths.bind fun k => cosTable (k - 6) with
  | none => rfl
  | some r =>
    rw [Option.bind_eq_some_iff] at h
    obtain ⟨k, hk, hr⟩ := h
    rw [Option.getD_some, cosTable_val hr, twelfths_val hk, ← Real.cos_sub_pi_div_two]
    congr 1
    push_cast
    ring

theorem tan_twelfths_emod (k : Int) : Real.tan ((k : ℝ) * (Real.pi / 12)) = Real.tan (((k % 12 : Int) : ℝ) * (Real.pi / 12)) := by
  have h : (k : ℝ) = ((k % 12 : Int) : ℝ) + 12 * ((k / 12 : Int) : ℝ) := by
    exact_mod_cast (Int.emod_add_mul_ediv k 12).symm
  have h2 : (k : ℝ) * (Real.pi / 12) = ((k % 12 : Int) : ℝ) * (Real.pi / 12) + ((k / 12 : Int) : ℝ) * Real.pi := by
    rw [h]; ring
  rw [h2, Real.tan_add_int_mul_pi]

theorem RealExpr.tanTable_val {k : Int} {r : RealExpr} (h : RealExpr.tanTable k = some r) :
    r.val = Real.tan ((k : ℝ) * (Real.pi / 12)) := by
  rw [tan_twelfths_emod]
  unfold tanTable at h
  have e3 : Real.tan (3 * (Real.pi / 12)) = 1 := by
    rw [← Real.tan_pi_div_four]; congr 1; ring
  split at h <;> rename_i hk <;> cases h
  all_goals rw [hk]
  all_goals push_cast
  · simp
  · rw [e3]; simp
  · have : (9 : ℝ) * (Real.pi / 12) = Real.pi - 3 * (Real.pi / 12) := by ring
    rw [this, Real.tan_pi_sub, e3]
    simp

@[simp] theorem RealExpr.tan_val (t : RealExpr) : t.tan.val = Real.tan t.val := by
  unfold tan
  cases h : t.twelfths.bind tanTable with
  | none => rfl
  | some r =>
    rw [Option.bind_eq_some_iff] at h
    obtain ⟨k, hk, hr⟩ := h
    rw [Option.getD_some, tanTable_val hr, twelfths_val hk]

@[simp] theorem RealExpr.exp10_val (t : RealExpr) : t.exp10.val = (10 : ℝ) ^ t.val := by
  unfold exp10
  split
  · next q =>
    split_ifs with h
    · have h1 : (q : ℝ) = ((q.num : Int) : ℝ) := by
        conv_lhs => rw [← Rat.num_div_den q, h]
        simp
      rw [val_rat, val_rat, h1, Real.rpow_intCast]
      push_cast
      rfl
    · rfl
  · rfl

@[simp] theorem RealExpr.max_val (a b : RealExpr) : (a.max b).val = Max.max a.val b.val := by
  unfold max
  split
  · simp
  · rfl

theorem arg_of_polar {x y r θ : ℝ} (hr : 0 < r) (hθ : θ ∈ Set.Ioc (-Real.pi) Real.pi) (hx : x = r * Real.cos θ)
    (hy : y = r * Real.sin θ) : Complex.arg ⟨x, y⟩ = θ := by
  have h : (⟨x, y⟩ : ℂ) = (r : ℂ) * (Complex.cos (θ : ℂ) + Complex.sin (θ : ℂ) * Complex.I) := by
    apply Complex.ext <;>
      simp [hx, hy, Complex.cos_ofReal_re, Complex.sin_ofReal_re, Complex.cos_ofReal_im, Complex.sin_ofReal_im]
  rw [h, Complex.arg_mul_cos_add_sin_mul_I hr hθ]

theorem angle_bounds {c : ℝ} (h1 : -1 < c) (h2 : c ≤ 1) : c * Real.pi ∈ Set.Ioc (-Real.pi) Real.pi := by
  have := Real.pi_pos
  constructor <;> nlinarith

theorem arg_real_axis_of_nonneg {x : ℝ} (h : 0 ≤ x) : Complex.arg ⟨x, 0⟩ = 0 := Complex.arg_ofReal_of_nonneg h

theorem arg_real_axis_of_neg {x : ℝ} (h : x < 0) : Complex.arg ⟨x, 0⟩ = Real.pi := Complex.arg_ofReal_of_neg h

theorem arg_imag_axis_of_pos {y : ℝ} (h : 0 < y) : Complex.arg ⟨0, y⟩ = 1 / 2 * Real.pi :=
  arg_of_polar h (angle_bounds (by norm_num) (by norm_num))
    (by rw [one_div_mul_eq_div, Real.cos_pi_div_two, mul_zero]) (by rw [one_div_mul_eq_div, Real.sin_pi_div_two, mul_one])

theorem arg_imag_axis_of_neg {y : ℝ} (h : y < 0) : Complex.arg ⟨0, y⟩ = -1 / 2 * Real.pi := by
  have e : (-1 / 2 * Real.pi : ℝ) = -(Real.pi / 2) := by ring
  exact arg_of_polar (neg_pos.2 h) (angle_bounds (by norm_num) (by norm_num))
    (by rw [e, Real.cos_neg, Real.cos_pi_div_two, mul_zero])
    (by rw [e, Real.sin_neg, Real.sin_pi_div_two]; ring)

theorem half_sqrt_two (p : ℝ) : p * √2 * (√2 / 2) = p := by
  have h : √2 * √2 = 2 := Real.mul_self_sqrt (by norm_num)
  linear_combination (p / 2) * h

theorem arg_diagonal_pp {p : ℝ} (h : 0 < p) : Complex.arg ⟨p, p⟩ = 1 / 4 * Real.pi := by
  have e : (1 / 4 * Real.pi : ℝ) = Real.pi / 4 := by ring
  exact arg_of_polar (r := p * √2) (by positivity) (angle_bounds (by norm_num) (by norm_num))
    (by rw [e, Real.cos_pi_div_four, half_sqrt_two]) (by rw [e, Real.sin_pi_div_four, half_sqrt_two])

theorem arg_diagonal_pn {p : ℝ} (h : 0 < p) : Complex.arg ⟨p, -p⟩ = -1 / 4 * Real.pi := by
  have e : (-1 / 4 * Real.pi : ℝ) = -(Real.pi / 4) := by ring
  exact arg_of_polar (r := p * √2) (by positivity) (angle_bounds (by norm_num) (by norm_num))
    (by rw [e, Real.cos_neg, Real.cos_pi_div_four, half_sqrt_two])
    (by rw [e, Real.sin_neg, Real.sin_pi_div_four, mul_neg, half_sqrt_two])

theorem arg_diagonal_np {p : ℝ} (h : p < 0) : Complex.arg ⟨p, -p⟩ = 3 / 4 * Real.pi := by
  have e : (3 / 4 * Real.pi : ℝ) = Real.pi - Real.pi / 4 := by ring
  exact arg_of_polar (r := -p * √2) (mul_pos (neg_pos.2 h) (by positivity)) (angle_bounds (by norm_num) (by norm_num))
    (by rw [e, Real.cos_pi_sub, Real.cos_pi_div_four, mul_neg, half_sqrt_two, neg_neg])
    (by rw [e, Real.sin_pi_sub, Real.sin_pi_div_four, half_sqrt_two])

theorem arg_diagonal_nn {p : ℝ} (h : p < 0) : Complex.arg ⟨p, p⟩ = -3 / 4 * Real.pi := by
  have e : (-3 / 4 * Real.pi : ℝ) = -(Real.pi - Real.pi / 4) := by ring
  exact arg_of_polar (r := -p * √2) (mul_pos (neg_pos.2 h) (by positivity)) (angle_bounds (by norm_num) (by norm_num))
    (by rw [e, Real.cos_neg, Real.cos_pi_sub, Real.cos_pi_div_four, mul_neg, half_sqrt_two, neg_neg])
    (by rw [e, Real.sin_neg, Real.sin_pi_sub, Real.sin_pi_div_four, mul_neg, half_sqrt_two, neg_neg])

theorem RealExpr.angleTable_val {x y r : RealExpr} (h : RealExpr.angleTable x y = some r) :
    r.val = Complex.arg ⟨x.val, y.val⟩ := by
  unfold angleTable at h
  split_ifs at h with hy hx
  · rw [hy, val_rat, Rat.cast_zero]
    split at h
    · next hs =>
      cases h
      rw [arg_real_axis_of_neg (Sign.ofReal_neg.1 (settledSign_val hs).symm), val_pi]
    · next s hne hs =>
      cases h
      have h0 : 0 ≤ x.val := by
        rw [← not_lt, ← Sign.ofReal_neg, ← settledSign_val hs]
        exact hne
      rw [arg_real_axis_of_nonneg h0, val_rat, Rat.cast_zero]
    · cases h
  · rw [hx, val_rat, Rat.cast_zero]
    split at h
    · next hs =>
      cases h
      rw [arg_imag_axis_of_pos (Sign.ofReal_pos.1 (settledSign_val hs).symm), scale_val, val_pi]
      push_cast
      rfl
    · next hs =>
      cases h
      rw [arg_imag_axis_of_neg (Sign.ofReal_neg.1 (settledSign_val hs).symm), scale_val, val_pi]
      push_cast
      rfl
    · cases h
  · split at h
    · next p q =>
      have hp (h : 0 < p.num) : (0 : ℝ) < p := Rat.cast_pos.2 (Rat.num_pos.1 h)
      have hn (h : p.num < 0) : (p : ℝ) < 0 := Rat.cast_lt_zero.2 (Rat.num_neg.1 h)
      split_ifs at h with c1 c2 c3 c4 <;> cases h
      · rw [c1.2, val_rat, arg_diagonal_pp (hp c1.1), scale_val, val_pi]; push_cast; rfl
      · rw [c2.2, val_rat, val_rat, Rat.cast_neg, arg_diagonal_pn (hp c2.1), scale_val, val_pi]; push_cast; rfl
      · rw [c3.2, val_rat, val_rat, Rat.cast_neg, arg_diagonal_np (hn c3.1), scale_val, val_pi]; push_cast; rfl
      · rw [c4.2, val_rat, arg_diagonal_nn (hn c4.1), scale_val, val_pi]; push_cast; rfl
    · cases h

@[simp] theorem RealExpr.angle_val (x y : RealExpr) : (RealExpr.angle x y).val = Complex.arg ⟨x.val, y.val⟩ := by
  unfold angle
  cases h : angleTable x y with
  | none => rfl
  | some r => exact angleTable_val h

theorem natOfReal_eq_some {x : ℝ} {n : Nat} : natOfReal x = some n ↔ x = n := by
  unfold natOfReal
  split_ifs with h
  · rw [Option.some.injEq]
    refine ⟨fun e => ?_, fun e => ?_⟩
    · rw [h, e]
    · exact_mod_cast h.symm.trans e
  · refine ⟨nofun, fun e => absurd ?_ h⟩
    rw [e, Nat.floor_natCast]

/-- An expression is read as the natural number its value is. -/
theorem RealExpr.nat?_eq_some {t : RealExpr} {n : Nat} : t.nat? = some n ↔ t.val = n := by
  unfold nat?
  split
  · next q =>
    rw [val_rat]
    split_ifs with h
    · have hq : q = ((q.num.toNat : Nat) : ℚ) := by
        conv_lhs => rw [← Rat.num_div_den q, h.1]
        rw [Nat.cast_one, div_one]
        exact_mod_cast (Int.toNat_of_nonneg h.2).symm
      rw [Option.some.injEq]
      refine ⟨fun e => ?_, fun e => ?_⟩
      · rw [← e]; exact_mod_cast hq
      · have h2 : q = (n : ℚ) := by exact_mod_cast e
        rw [h2]; simp
    · refine ⟨nofun, fun e => absurd ?_ h⟩
      have h2 : q = (n : ℚ) := by exact_mod_cast e
      rw [h2]
      simp
  · rw [(trueNat _).2]
    exact natOfReal_eq_some

theorem RealExpr.nat?_eq_none {t : RealExpr} : t.nat? = none ↔ ¬∃ n : Nat, t.val = n := by
  simp [Option.eq_none_iff_forall_ne_some, nat?_eq_some]

theorem RealExpr.nat?_ofNat (n : Nat) : (RealExpr.ofNat n).nat? = some n := nat?_eq_some.2 (by simp)

/-! ### Complex arithmetic -/

@[simp] theorem Cplx.val_re (z : Cplx) : z.val.re = z.re.val := rfl
@[simp] theorem Cplx.val_im (z : Cplx) : z.val.im = z.im.val := rfl

@[simp] theorem Cplx.zero_val : Cplx.zero.val = 0 := by
  apply Complex.ext <;> simp

@[simp] theorem Cplx.ofReal_val (x : RealExpr) : (Cplx.ofReal x).val = (x.val : ℂ) := by
  apply Complex.ext <;> simp [Cplx.ofReal]

@[simp] theorem Cplx.add_val (z w : Cplx) : (z.add w).val = z.val + w.val := by
  apply Complex.ext <;> simp [Cplx.add]

@[simp] theorem Cplx.sub_val (z w : Cplx) : (z.sub w).val = z.val - w.val := by
  apply Complex.ext <;> simp [Cplx.sub]

@[simp] theorem Cplx.mul_val (z w : Cplx) : (z.mul w).val = z.val * w.val := by
  apply Complex.ext <;> simp [Cplx.mul]

@[simp] theorem Cplx.scale_val (g : RealExpr) (z : Cplx) : (Cplx.scale g z).val = (g.val : ℂ) * z.val := by
  apply Complex.ext <;> simp [Cplx.scale]

@[simp] theorem Cplx.normSq_val (z : Cplx) : z.normSq.val = Complex.normSq z.val := by
  simp [Cplx.normSq, Complex.normSq_apply, pow_two]

@[simp] theorem Cplx.abs_val (z : Cplx) : z.abs.val = ‖z.val‖ := by
  rw [Cplx.abs, RealExpr.sqrt_val, Cplx.normSq_val]
  rfl

@[simp] theorem Cplx.div_val (z w : Cplx) : (z.div w).val = z.val / w.val := by
  apply Complex.ext
  · rw [Complex.div_re]
    simp [Cplx.div]
    ring
  · rw [Complex.div_im]
    simp [Cplx.div]
    ring

@[simp] theorem Cplx.expj_val (θ : RealExpr) : (Cplx.expj θ).val = Complex.exp (θ.val * Complex.I) := by
  rw [Complex.exp_mul_I]
  apply Complex.ext <;>
    simp [Cplx.expj, Complex.cos_ofReal_re, Complex.sin_ofReal_re, Complex.cos_ofReal_im, Complex.sin_ofReal_im]

/-! ### The reference `NUM` -/

namespace Numerics

@[simp] theorem reference_finite (x : RealExpr) : reference.finite x = true := rfl
@[simp] theorem reference_round (x : RealExpr) : reference.round x = x := rfl
@[simp] theorem reference_add_val (a b : RealExpr) : (reference.add a b).val = a.val + b.val := a.add_val b
@[simp] theorem reference_sub_val (a b : RealExpr) : (reference.sub a b).val = a.val - b.val := a.sub_val b
@[simp] theorem reference_neg_val (a : RealExpr) : (reference.neg a).val = -a.val := a.neg_val
@[simp] theorem reference_mul_val (a b : RealExpr) : (reference.mul a b).val = a.val * b.val := a.mul_val b
@[simp] theorem reference_div_val (a b : RealExpr) : (reference.div a b).val = a.val / b.val := a.div_val b
@[simp] theorem reference_sum_val (l : List RealExpr) : (reference.sum l).val = (l.map RealExpr.val).sum :=
  RealExpr.sumList_val l
@[simp] theorem reference_max_val (a b : RealExpr) : (reference.max a b).val = Max.max a.val b.val := a.max_val b
@[simp] theorem reference_sqrt_val (a : RealExpr) : (reference.sqrt a).val = Real.sqrt a.val := a.sqrt_val
@[simp] theorem reference_cos_val (a : RealExpr) : (reference.cos a).val = Real.cos a.val := a.cos_val
@[simp] theorem reference_sin_val (a : RealExpr) : (reference.sin a).val = Real.sin a.val := a.sin_val
@[simp] theorem reference_exp10_val (a : RealExpr) : (reference.exp10 a).val = (10 : ℝ) ^ a.val := a.exp10_val
@[simp] theorem reference_tan_val (a : RealExpr) : (reference.tan a).val = Real.tan a.val := a.tan_val
@[simp] theorem reference_expj_val (θ : RealExpr) : (reference.expj θ).val = Complex.exp (θ.val * Complex.I) :=
  Cplx.expj_val θ
@[simp] theorem reference_angle_val (z : Cplx) : (reference.angle z).val = Complex.arg z.val :=
  RealExpr.angle_val z.re z.im
@[simp] theorem reference_cabs_val (z : Cplx) : (reference.cabs z).val = ‖z.val‖ := z.abs_val
@[simp] theorem reference_cadd_val (z w : Cplx) : (reference.cadd z w).val = z.val + w.val := z.add_val w
@[simp] theorem reference_csub_val (z w : Cplx) : (reference.csub z w).val = z.val - w.val := z.sub_val w
@[simp] theorem reference_cdiv_val (z w : Cplx) : (reference.cdiv z w).val = z.val / w.val := z.div_val w
@[simp] theorem reference_const_val (q : ℚ) : (reference.const q).val = (q : ℝ) := rfl
@[simp] theorem reference_twoPi_val : reference.twoPi.val = 2 * Real.pi := by simp [twoPi]
@[simp] theorem reference_amp_val (b : Bit) : (reference.amp b).val = if b then 1 else -1 := by
  cases b <;> simp [amp]
@[simp] theorem reference_cmul_val (z w : Cplx) : (reference.cmul z w).val = z.val * w.val := z.mul_val w
@[simp] theorem reference_cscale_val (g : RealExpr) (z : Cplx) : (reference.cscale g z).val = (g.val : ℂ) * z.val :=
  Cplx.scale_val g z
@[simp] theorem reference_sumRange_val (n : Nat) (f : Nat → RealExpr) :
    (reference.sumRange n f).val = ∑ k ∈ Finset.range n, (f k).val := by
  rw [sumRange, reference_sum_val, List.map_map]
  exact sum_map_range n _

/-- All `nat?` can answer: the natural number the value is, of a number written out or finite in the format. -/
theorem nat?_eq_some {M : Numerics} {t : RealExpr} {n : Nat} :
    M.nat? t = some n ↔ t.val = n ∧ (t = .ofNat n ∨ M.finite t = true) := by
  cases t with
  | rat q =>
    rw [nat?, RealExpr.nat?_eq_some]
    refine ⟨fun h => ⟨h, .inl ?_⟩, And.left⟩
    rw [RealExpr.val_rat] at h
    rw [show q = (n : ℚ) by exact_mod_cast h]
  | _ =>
    dsimp only [nat?]
    split_ifs with hf <;> simp [RealExpr.nat?_eq_some, hf]

theorem nat?_eq_none {M : Numerics} {t : RealExpr} :
    M.nat? t = none ↔ ¬∃ n : Nat, t.val = n ∧ (t = .ofNat n ∨ M.finite t = true) := by
  simp [Option.eq_none_iff_forall_ne_some, nat?_eq_some]

@[simp] theorem nat?_ofNat (M : Numerics) (n : Nat) : M.nat? (.ofNat n) = some n := nat?_eq_some.2 ⟨by simp, .inl rfl⟩

/-- All `sign` can answer of a finite number: the sign of its value, whatever the format. -/
theorem sign_eq {M : Numerics} {x : RealExpr} (h : M.finite x = true) : M.sign x = Sign.ofReal x.val := by
  rw [sign, if_pos h, RealExpr.sign_eq]

theorem isPos_iff {M : Numerics} {x : RealExpr} (h : M.finite x = true) : M.isPos x = true ↔ 0 < x.val := by
  rw [isPos, decide_eq_true_eq, sign_eq h, Sign.ofReal_pos]

theorem isZero_iff {M : Numerics} {x : RealExpr} (h : M.finite x = true) : M.isZero x = true ↔ x.val = 0 := by
  rw [isZero, decide_eq_true_eq, sign_eq h, Sign.ofReal_zero]

theorem isBelowOne_iff {M : Numerics} {x : RealExpr} (h : M.finite x = true) : M.isBelowOne x = true ↔ x.val < 1 := by
  rw [isBelowOne, decide_eq_true_eq, if_pos h, RealExpr.sign_eq, Sign.ofReal_neg, RealExpr.sub_val, RealExpr.val_rat,
    Rat.cast_one, sub_neg]

theorem dec_iff {M : Numerics} {x : RealExpr} (h : M.finite x = true) : M.dec x = true ↔ 0 ≤ x.val := by
  rw [dec, decide_eq_true_eq, sign_eq h, ne_eq, Sign.ofReal_neg, not_lt]

end Numerics

@[simp] theorem NumFormat.num_exact : NumFormat.exact.num = .reference := rfl

/-! ### REAL streams -/

/-- 20_memory.md R52, by value. -/
theorem Stream.wellFormed_iff {w : Stream} : w.wellFormed = true ↔ (w.kind = .real → ∀ z ∈ w.samples, z.im.val = 0) := by
  unfold wellFormed
  cases w.kind <;> simp [RealExpr.sign_eq, Sign.ofReal_zero]

end Sys2Proof
end

