-- ==== Sys2Proof/Laws/State.lean ====
section
/-! SUPPORT. One lemma per field per update of the state, so that no proof unfolds a record update. -/

namespace Sys2Proof.Machine

/-! ### `State.withResponse` -/

@[simp] theorem State.withResponse_pll (s : State) (r : Response) : (s.withResponse r).pll = s.pll := rfl
@[simp] theorem State.withResponse_lpf (s : State) (r : Response) : (s.withResponse r).lpf = s.lpf := rfl
@[simp] theorem State.withResponse_rng (s : State) (r : Response) : (s.withResponse r).rng = s.rng := rfl
@[simp] theorem State.withResponse_maxLen (s : State) (r : Response) : (s.withResponse r).maxLen = s.maxLen := rfl
@[simp] theorem State.withResponse_num (s : State) (r : Response) : (s.withResponse r).num = s.num := rfl
@[simp] theorem State.withResponse_host_program (s : State) (r : Response) :
    (s.withResponse r).host.program = s.host.program := rfl
@[simp] theorem State.withResponse_host_pc (s : State) (r : Response) : (s.withResponse r).host.pc = s.host.pc := rfl
@[simp] theorem State.withResponse_host_names (s : State) (r : Response) :
    (s.withResponse r).host.names = s.host.names := rfl
@[simp] theorem State.withResponse_host_stopped (s : State) (r : Response) :
    (s.withResponse r).host.stopped = s.host.stopped := rfl
@[simp] theorem State.withResponse_host_response (s : State) (r : Response) :
    (s.withResponse r).host.response = some r := rfl

/-! ### `State.withPll` -/

@[simp] theorem State.withPll_pll (s : State) (p : Pll) : (s.withPll p).pll = p := rfl
@[simp] theorem State.withPll_lpf (s : State) (p : Pll) : (s.withPll p).lpf = s.lpf := rfl
@[simp] theorem State.withPll_rng (s : State) (p : Pll) : (s.withPll p).rng = s.rng := rfl
@[simp] theorem State.withPll_host (s : State) (p : Pll) : (s.withPll p).host = s.host := rfl
@[simp] theorem State.withPll_maxLen (s : State) (p : Pll) : (s.withPll p).maxLen = s.maxLen := rfl
@[simp] theorem State.withPll_num (s : State) (p : Pll) : (s.withPll p).num = s.num := rfl

/-! ### `State.withLpf` -/

@[simp] theorem State.withLpf_pll (s : State) (l : Lpf) : (s.withLpf l).pll = s.pll := rfl
@[simp] theorem State.withLpf_lpf (s : State) (l : Lpf) : (s.withLpf l).lpf = l := rfl
@[simp] theorem State.withLpf_rng (s : State) (l : Lpf) : (s.withLpf l).rng = s.rng := rfl
@[simp] theorem State.withLpf_host (s : State) (l : Lpf) : (s.withLpf l).host = s.host := rfl
@[simp] theorem State.withLpf_maxLen (s : State) (l : Lpf) : (s.withLpf l).maxLen = s.maxLen := rfl
@[simp] theorem State.withLpf_num (s : State) (l : Lpf) : (s.withLpf l).num = s.num := rfl

/-! ### `State.withRng` -/

@[simp] theorem State.withRng_pll (s : State) (r : Rng) : (s.withRng r).pll = s.pll := rfl
@[simp] theorem State.withRng_lpf (s : State) (r : Rng) : (s.withRng r).lpf = s.lpf := rfl
@[simp] theorem State.withRng_rng (s : State) (r : Rng) : (s.withRng r).rng = r := rfl
@[simp] theorem State.withRng_host (s : State) (r : Rng) : (s.withRng r).host = s.host := rfl
@[simp] theorem State.withRng_maxLen (s : State) (r : Rng) : (s.withRng r).maxLen = s.maxLen := rfl
@[simp] theorem State.withRng_num (s : State) (r : Rng) : (s.withRng r).num = s.num := rfl

/-! ### `State.withCount` -/

@[simp] theorem State.withCount_pll (s : State) (c : Nat) : (s.withCount c).pll = s.pll := rfl
@[simp] theorem State.withCount_lpf (s : State) (c : Nat) : (s.withCount c).lpf = s.lpf := rfl
@[simp] theorem State.withCount_rng (s : State) (c : Nat) : (s.withCount c).rng = ⟨s.rng.seed, c⟩ := rfl
@[simp] theorem State.withCount_host (s : State) (c : Nat) : (s.withCount c).host = s.host := rfl
@[simp] theorem State.withCount_maxLen (s : State) (c : Nat) : (s.withCount c).maxLen = s.maxLen := rfl
@[simp] theorem State.withCount_num (s : State) (c : Nat) : (s.withCount c).num = s.num := rfl

/-! ### `State.startRun` -/

@[simp] theorem State.startRun_pll (s : State) (p : List HostCommand) : (s.startRun p).pll = s.pll := rfl
@[simp] theorem State.startRun_lpf (s : State) (p : List HostCommand) : (s.startRun p).lpf = s.lpf := rfl
@[simp] theorem State.startRun_rng (s : State) (p : List HostCommand) : (s.startRun p).rng = s.rng := rfl
@[simp] theorem State.startRun_host (s : State) (p : List HostCommand) :
    (s.startRun p).host = ⟨p, 0, [], none, none⟩ := rfl
@[simp] theorem State.startRun_maxLen (s : State) (p : List HostCommand) : (s.startRun p).maxLen = s.maxLen := rfl
@[simp] theorem State.startRun_num (s : State) (p : List HostCommand) : (s.startRun p).num = s.num := rfl

/-! ### `State.answered` and `State.failed` -/

@[simp] theorem State.answered_pll (s : State) (vs : List Value) : (s.answered vs).pll = s.pll := rfl
@[simp] theorem State.answered_lpf (s : State) (vs : List Value) : (s.answered vs).lpf = s.lpf := rfl
@[simp] theorem State.answered_rng (s : State) (vs : List Value) : (s.answered vs).rng = s.rng := rfl
@[simp] theorem State.answered_num (s : State) (vs : List Value) : (s.answered vs).num = s.num := rfl
@[simp] theorem State.answered_maxLen (s : State) (vs : List Value) : (s.answered vs).maxLen = s.maxLen := rfl
@[simp] theorem State.answered_host_names (s : State) (vs : List Value) :
    (s.answered vs).host.names = s.host.names := rfl
@[simp] theorem State.answered_host_program (s : State) (vs : List Value) :
    (s.answered vs).host.program = s.host.program := rfl
@[simp] theorem State.answered_host_pc (s : State) (vs : List Value) : (s.answered vs).host.pc = s.host.pc := rfl
@[simp] theorem State.answered_host_stopped (s : State) (vs : List Value) :
    (s.answered vs).host.stopped = s.host.stopped := rfl
@[simp] theorem State.answered_host_response (s : State) (vs : List Value) :
    (s.answered vs).host.response = some ⟨.ok, vs, none⟩ := rfl
@[simp] theorem State.failed_pll (s : State) (e : Status) (n : ErrorInfo) : (s.failed e n).pll = s.pll := rfl
@[simp] theorem State.failed_lpf (s : State) (e : Status) (n : ErrorInfo) : (s.failed e n).lpf = s.lpf := rfl
@[simp] theorem State.failed_rng (s : State) (e : Status) (n : ErrorInfo) : (s.failed e n).rng = s.rng := rfl
@[simp] theorem State.failed_num (s : State) (e : Status) (n : ErrorInfo) : (s.failed e n).num = s.num := rfl
@[simp] theorem State.failed_maxLen (s : State) (e : Status) (n : ErrorInfo) : (s.failed e n).maxLen = s.maxLen := rfl
@[simp] theorem State.failed_host_names (s : State) (e : Status) (n : ErrorInfo) :
    (s.failed e n).host.names = s.host.names := rfl
@[simp] theorem State.failed_host_program (s : State) (e : Status) (n : ErrorInfo) :
    (s.failed e n).host.program = s.host.program := rfl
@[simp] theorem State.failed_host_pc (s : State) (e : Status) (n : ErrorInfo) :
    (s.failed e n).host.pc = s.host.pc := rfl
@[simp] theorem State.failed_host_stopped (s : State) (e : Status) (n : ErrorInfo) :
    (s.failed e n).host.stopped = s.host.stopped := rfl
@[simp] theorem State.failed_host_response (s : State) (e : Status) (n : ErrorInfo) :
    (s.failed e n).host.response = some ⟨e, [], some n⟩ := rfl

/-! ### `State.arith` -/

@[simp] theorem State.arith_withResponse (s : State) (r : Response) : (s.withResponse r).arith = s.arith := rfl
@[simp] theorem State.arith_withPll (s : State) (p : Pll) : (s.withPll p).arith = s.arith := rfl
@[simp] theorem State.arith_withLpf (s : State) (l : Lpf) : (s.withLpf l).arith = s.arith := rfl
@[simp] theorem State.arith_withRng (s : State) (r : Rng) : (s.withRng r).arith = s.arith := rfl
@[simp] theorem State.arith_withCount (s : State) (c : Nat) : (s.withCount c).arith = s.arith := rfl
@[simp] theorem State.arith_answered (s : State) (vs : List Value) : (s.answered vs).arith = s.arith := rfl
@[simp] theorem State.arith_failed (s : State) (e : Status) (n : ErrorInfo) : (s.failed e n).arith = s.arith := rfl

/-- Under the reference the arithmetic is exact. -/
theorem State.IsReference.arith_eq {s : State} (h : s.IsReference) : s.arith = .reference := by
  rw [State.arith, h, NumFormat.num_exact]

/-! ### `State.takeResponse` -/

@[simp] theorem State.takeResponse_pll (s : State) (c : HostCommand) : (s.takeResponse c).pll = s.pll := by
  unfold takeResponse
  repeat' split <;> try rfl

@[simp] theorem State.takeResponse_lpf (s : State) (c : HostCommand) : (s.takeResponse c).lpf = s.lpf := by
  unfold takeResponse
  repeat' split <;> try rfl

@[simp] theorem State.takeResponse_rng (s : State) (c : HostCommand) : (s.takeResponse c).rng = s.rng := by
  unfold takeResponse
  repeat' split <;> try rfl

@[simp] theorem State.takeResponse_maxLen (s : State) (c : HostCommand) : (s.takeResponse c).maxLen = s.maxLen := by
  unfold takeResponse
  repeat' split <;> try rfl

@[simp] theorem State.takeResponse_num (s : State) (c : HostCommand) : (s.takeResponse c).num = s.num := by
  unfold takeResponse
  repeat' split <;> try rfl

@[simp] theorem State.takeResponse_host_program (s : State) (c : HostCommand) :
    (s.takeResponse c).host.program = s.host.program := by
  unfold takeResponse
  repeat' split <;> try rfl

@[simp] theorem State.takeResponse_host_response (s : State) (c : HostCommand) :
    (s.takeResponse c).host.response = s.host.response := by
  unfold takeResponse
  repeat' split <;> try rfl

/-- After `OK` the results are bound and `pc` moves on (30_encoding.md R80). -/
theorem State.takeResponse_of_ok {s : State} {c : HostCommand} {r : Response} (h : s.host.response = some r)
    (ho : r.status = .ok) :
    s.takeResponse c =
      { s with host := { s.host with names := bindNames c.results r.results s.host.names, pc := s.host.pc + 1 } } := by
  simp only [takeResponse, h, ho]

/-- After an error status the run stops at `pc` (30_encoding.md R80). -/
theorem State.takeResponse_of_error {s : State} {c : HostCommand} {r : Response} (h : s.host.response = some r)
    (ho : r.status ≠ .ok) :
    s.takeResponse c = { s with host := { s.host with stopped := some r.status } } := by
  unfold takeResponse
  rw [h]
  simp only

end Sys2Proof.Machine
end

