-- ==== Sys2Proof/Laws/Ops.lean ====
section
/-! SUPPORT. For each shared operation, what it can answer: `exceeds`, `respond`, `raise`, `accept`,
the presentation of a host command. -/

namespace Sys2Proof.Machine

/-! ### Lengths -/

theorem State.exceeds_eq_false {s : State} {l : List Nat} : s.exceeds l = false ↔ ∀ n ∈ l, s.Fits n := by
  unfold exceeds Fits
  cases s.maxLen with
  | none => simp
  | some m => simp

theorem State.exceeds_eq_true {s : State} {l : List Nat} : s.exceeds l = true ↔ ∃ n ∈ l, ¬s.Fits n := by
  rw [← not_iff_not, Bool.not_eq_true, exceeds_eq_false]
  simp

@[simp] theorem State.fits_withResponse {s : State} {r : Response} {n : Nat} :
    (s.withResponse r).Fits n ↔ s.Fits n := Iff.rfl
@[simp] theorem State.fits_withPll {s : State} {p : Pll} {n : Nat} : (s.withPll p).Fits n ↔ s.Fits n := Iff.rfl
@[simp] theorem State.fits_withLpf {s : State} {l : Lpf} {n : Nat} : (s.withLpf l).Fits n ↔ s.Fits n := Iff.rfl
@[simp] theorem State.fits_withRng {s : State} {r : Rng} {n : Nat} : (s.withRng r).Fits n ↔ s.Fits n := Iff.rfl
@[simp] theorem State.fits_withCount {s : State} {c n : Nat} : (s.withCount c).Fits n ↔ s.Fits n := Iff.rfl
@[simp] theorem State.fits_answered {s : State} {vs : List Value} {n : Nat} : (s.answered vs).Fits n ↔ s.Fits n := Iff.rfl
@[simp] theorem State.fits_zero {s : State} : s.Fits 0 := fun _ _ => Nat.zero_le _

theorem State.fits_of_le {s : State} {m n : Nat} (h : m ≤ n) (hn : s.Fits n) : s.Fits m :=
  fun b hb => h.trans (hn b hb)

theorem State.fits_of_unbounded {s : State} (h : s.maxLen = none) (n : Nat) : s.Fits n := by
  intro m hm
  rw [h] at hm
  cases hm

theorem State.operandsFit_of_unbounded {s : State} (h : s.maxLen = none) (i : Instr) : s.OperandsFit i :=
  fun v _ => s.fits_of_unbounded h v.bufferLength

/-! ### Ending a command -/

/-- All `respond` can do. -/
theorem respond_next_iff {s t : State} {vs : List Value} :
    respond s vs = .next t ↔ (∀ v ∈ vs, s.Fits v.bufferLength) ∧ t = s.answered vs := by
  have h : (∀ v ∈ vs, s.Fits v.bufferLength) ↔ s.exceeds (bufferLengths vs) = false := by
    rw [State.exceeds_eq_false]
    simp [bufferLengths]
  rw [h]
  unfold respond
  split_ifs with hx
  · simp [hx]
  · simp only [hx, true_and, Host.Outcome.next.injEq]
    exact eq_comm

theorem respond_of_fits {s : State} {vs : List Value} (h : ∀ v ∈ vs, s.Fits v.bufferLength) :
    respond s vs = .next (s.answered vs) := respond_next_iff.2 ⟨h, rfl⟩

theorem respond_refused_iff {s : State} {vs : List Value} {r : Refusal} :
    respond s vs = .refused r ↔ r = .overMaxLen ∧ ∃ v ∈ vs, ¬s.Fits v.bufferLength := by
  have h : (∃ v ∈ vs, ¬s.Fits v.bufferLength) ↔ s.exceeds (bufferLengths vs) = true := by
    rw [State.exceeds_eq_true]
    simp [bufferLengths]
  rw [h]
  unfold respond
  split_ifs with hx
  · simp only [hx, and_true, Host.Outcome.refused.injEq]
    exact eq_comm
  · simp [hx]

/-- All `raise` can do. -/
theorem raise_eq (s : State) (e : Status) (n : ErrorInfo) : raise s e n = .next (s.failed e n) := rfl

theorem State.operandsFit_iff {s : State} {i : Instr} :
    s.OperandsFit i ↔ s.exceeds (bufferLengths i.operands) = false := by
  rw [State.exceeds_eq_false]
  simp [OperandsFit, bufferLengths]

theorem State.operandsFinite_iff {s : State} {i : Instr} : s.OperandsFinite i ↔ i.numbers.all s.arith.finite = true := by
  rw [List.all_eq_true]
  rfl

/-- Under the reference every number is finite (43_pll.md R148). -/
theorem State.IsReference.operandsFinite {s : State} (h : s.IsReference) (i : Instr) : s.OperandsFinite i := by
  intro x _
  rw [h.arith_eq, Numerics.reference_finite]

/-- All `accept` can do, in the order of its checks. -/
theorem accept_of_ok {s : State} {i : Instr} {k : StepResult} (h : s.OperandsFit i) (hf : s.OperandsFinite i) :
    accept s i k = k := by
  rw [State.operandsFit_iff] at h
  rw [State.operandsFinite_iff] at hf
  simp [accept, h, hf]

theorem accept_of_not_fits {s : State} {i : Instr} {k : StepResult} (h : ¬s.OperandsFit i) :
    accept s i k = .refused .overMaxLen := by
  rw [State.operandsFit_iff, Bool.not_eq_false] at h
  simp [accept, h]

theorem accept_of_not_finite {s : State} {i : Instr} {k : StepResult} (h : s.OperandsFit i) (hf : ¬s.OperandsFinite i) :
    accept s i k = .refused .nonFinite := by
  rw [State.operandsFit_iff] at h
  rw [State.operandsFinite_iff] at hf
  simp only [accept, h, Bool.false_eq_true, ↓reduceIte, if_neg hf]

theorem accept_of_reference {s : State} {i : Instr} {k : StepResult} (h : s.IsReference) (hf : s.OperandsFit i) :
    accept s i k = k := accept_of_ok hf (h.operandsFinite i)

/-- All `accept` can answer with a next state. -/
theorem accept_next_iff {s t : State} {i : Instr} {k : StepResult} :
    accept s i k = .next t ↔ s.OperandsFit i ∧ s.OperandsFinite i ∧ k = .next t := by
  by_cases h : s.OperandsFit i
  · by_cases hf : s.OperandsFinite i
    · simp [accept_of_ok h hf, h, hf]
    · simp [accept_of_not_finite h hf, hf]
  · simp [accept_of_not_fits h, h]

/-- All `accept` can answer with a refusal. -/
theorem accept_refused_iff {s : State} {i : Instr} {k : StepResult} {r : Refusal} :
    accept s i k = .refused r ↔ (¬s.OperandsFit i ∧ r = .overMaxLen) ∨
      (s.OperandsFit i ∧ ¬s.OperandsFinite i ∧ r = .nonFinite) ∨
      (s.OperandsFit i ∧ s.OperandsFinite i ∧ k = .refused r) := by
  by_cases h : s.OperandsFit i
  · by_cases hf : s.OperandsFinite i
    · simp [accept_of_ok h hf, h, hf]
    · simp [accept_of_not_finite h hf, h, hf, eq_comm]
  · simp [accept_of_not_fits h, h, eq_comm]

/-! ### Presenting a command -/

theorem HostRun.nextCommand_eq_some {h : HostRun} {c : HostCommand} :
    h.nextCommand = some c ↔ h.stopped = none ∧ h.program[h.pc]? = some c := by
  unfold nextCommand ended
  rcases h with ⟨p, n, names, resp, _ | e⟩
  · by_cases hp : p.length ≤ n
    · simp [hp]
    · simp [hp]
  · simp

theorem HostRun.nextCommand_eq_none {h : HostRun} :
    h.nextCommand = none ↔ h.stopped ≠ none ∨ h.program.length ≤ h.pc := by
  unfold nextCommand ended
  rcases h with ⟨p, n, names, resp, _ | e⟩
  · by_cases hp : p.length ≤ n
    · simp [hp]
    · simp [hp, not_le.1 hp]
  · simp

/-- All a step can do. -/
theorem step_next_cases {s u : State} (h : step s = .next u) :
    (s.host.nextCommand = none ∧ u = s) ∨
    ∃ c i t, s.host.nextCommand = some c ∧ s.host.present s.arith c = .ok i ∧ exec i s = .next t ∧ u = t.takeResponse c := by
  unfold step at h
  split at h
  · next hc => exact .inl ⟨hc, (Host.Outcome.next.inj h).symm⟩
  · next c hc =>
    split at h
    · cases h
    · next i hi =>
      split at h
      · next t ht => exact .inr ⟨c, i, t, hc, hi, ht, (Host.Outcome.next.inj h).symm⟩
      · cases h
      · cases h

end Sys2Proof.Machine
end

