-- ==== Sys2Proof/Laws/PerInstr.lean ====
section
/-! SUPPORT. The family `OpcodeInTable`: every instruction's code is one of the 17 of 30_encoding.md R73, under the unit
number of 00_scope.md R2. -/

namespace Sys2Proof.Laws

/-- The code of the instruction stands in the table, and its `unit` field is the number of one of the six units. -/
def OpcodeInTable.Statement (i : Instr) : Prop :=
  i.opcode ∈ tableCodes ∧ 1 ≤ (opUnit i.opcode).toNat ∧ (opUnit i.opcode).toNat ≤ 6

theorem OpcodeInTable.henc (data : BitVector) :
    OpcodeInTable.Statement (.henc data) := by
  simp [Statement, Instr.opcode, tableCodes, opUnit]

theorem OpcodeInTable.hdec (encoded : BitVector) :
    OpcodeInTable.Statement (.hdec encoded) := by
  simp [Statement, Instr.opcode, tableCodes, opUnit]

theorem OpcodeInTable.hencb (d : BitVector) :
    OpcodeInTable.Statement (.hencb d) := by
  simp [Statement, Instr.opcode, tableCodes, opUnit]

theorem OpcodeInTable.hdecb (r : BitVector) :
    OpcodeInTable.Statement (.hdecb r) := by
  simp [Statement, Instr.opcode, tableCodes, opUnit]

theorem OpcodeInTable.qmod (encoded : BitVector) (Tb fc : RealExpr) (N : Nat) :
    OpcodeInTable.Statement (.qmod encoded Tb fc N) := by
  simp [Statement, Instr.opcode, tableCodes, opUnit]

theorem OpcodeInTable.qdem (received : Stream) (referenceCos referenceSin : List RealExpr) (numBits N : Nat) :
    OpcodeInTable.Statement (.qdem received referenceCos referenceSin numBits N) := by
  simp [Statement, Instr.opcode, tableCodes, opUnit]

theorem OpcodeInTable.pllrun (signal : Stream) (fs loopBandwidth : RealExpr) :
    OpcodeInTable.Statement (.pllrun signal fs loopBandwidth) := by
  simp [Statement, Instr.opcode, tableCodes, opUnit]

theorem OpcodeInTable.plladv (sample : Cplx) (fs loopBandwidth : RealExpr) :
    OpcodeInTable.Statement (.plladv sample fs loopBandwidth) := by
  simp [Statement, Instr.opcode, tableCodes, opUnit]

theorem OpcodeInTable.pllrst :
    OpcodeInTable.Statement .pllrst := by
  simp [Statement, Instr.opcode, tableCodes, opUnit]

theorem OpcodeInTable.agc (signal : Stream) (targetLevel : RealExpr) :
    OpcodeInTable.Statement (.agc signal targetLevel) := by
  simp [Statement, Instr.opcode, tableCodes, opUnit]

theorem OpcodeInTable.lpf (signal : Stream) (cutoffFreq fs : RealExpr) (order : Nat) :
    OpcodeInTable.Statement (.lpf signal cutoffFreq fs order) := by
  simp [Statement, Instr.opcode, tableCodes, opUnit]

theorem OpcodeInTable.lpfcfg (cutoffFreq fs : RealExpr) (order : Nat) :
    OpcodeInTable.Statement (.lpfcfg cutoffFreq fs order) := by
  simp [Statement, Instr.opcode, tableCodes, opUnit]

theorem OpcodeInTable.lpfadv (sample : Cplx) :
    OpcodeInTable.Statement (.lpfadv sample) := by
  simp [Statement, Instr.opcode, tableCodes, opUnit]

theorem OpcodeInTable.awgn (signal : Stream) (snrDb : RealExpr) :
    OpcodeInTable.Statement (.awgn signal snrDb) := by
  simp [Statement, Instr.opcode, tableCodes, opUnit]

theorem OpcodeInTable.rngseed (seed : Nat) :
    OpcodeInTable.Statement (.rngseed seed) := by
  simp [Statement, Instr.opcode, tableCodes, opUnit]

theorem OpcodeInTable.bersweep (encoded originalBits : BitVector) (snrRange : List RealExpr) (Tb fc : RealExpr) (N : Nat) :
    OpcodeInTable.Statement (.bersweep encoded originalBits snrRange Tb fc N) := by
  simp [Statement, Instr.opcode, tableCodes, opUnit]

theorem OpcodeInTable.bercmp (originalBits decodedBits : BitVector) :
    OpcodeInTable.Statement (.bercmp originalBits decodedBits) := by
  simp [Statement, Instr.opcode, tableCodes, opUnit]

end Sys2Proof.Laws
end

