-- ==== Sys2Proof/Tests/Slice0.lean ====
section
/-! SUPPORT. Tests: the checks of WellFormed, the decoding of every operation from its code as 30_encoding.md R73 prints
it, one step of every operation on the vectors of 95_test_vectors.md, and for every statement of Certificates/Slice0 the
operands and states that meet its hypotheses. -/

namespace Sys2Proof.Tests

open Machine

set_option Elab.async false

/-- A bit vector from its digits, element 0 first. -/
def bitsOf (ds : List Nat) : BitVector := ds.map fun d => decide (d = 1)

/-- The real number `q`. -/
def realOf (q : ℚ) : Cplx := ⟨.rat q, .zero⟩

/-- The complex number `a + j·b`. -/
def cplxOf (a b : ℚ) : Cplx := ⟨.rat a, .rat b⟩

/-- A REAL stream. -/
def realStream (qs : List ℚ) : Stream := ⟨.real, qs.map realOf⟩

/-- Whether the number lies within `10^-11` of `q`, rigorously. -/
def near (x : RealExpr) (q : ℚ) : Bool :=
  decide ((x.sub (.rat (q - 1 / 10 ^ 11))).settledSign = some .pos) &&
    decide (((RealExpr.rat (q + 1 / 10 ^ 11)).sub x).settledSign = some .pos)

/-- Whether every number lies within `10^-11` of its expected value. -/
def allNear (xs : List RealExpr) (qs : List ℚ) : Bool :=
  decide (xs.length = qs.length) && (xs.zip qs).all fun e => near e.1 e.2

/-- The state left by a command, the reset state where there is none. -/
def stateOf : StepResult → State
  | .next t => t
  | .fault _ => State.reset
  | .refused _ => State.reset

/-- The refusal of a command. -/
def refusalOf : StepResult → Option Refusal
  | .next _ => none
  | .fault _ => none
  | .refused r => some r

/-- The status of a command's response. -/
def statusOf (o : StepResult) : Option Status := (responseOf o).map (·.status)

/-! ### WellFormed and the operand forms -/

theorem test_real_stream_with_imaginary_part_ill_formed :
    (Instr.agc ⟨.real, [cplxOf 1 1]⟩ .one).wellFormed = false := by decide +kernel

theorem test_cplx_stream_with_imaginary_part_well_formed :
    (Instr.agc ⟨.cplx, [cplxOf 1 1]⟩ .one).wellFormed = true := by decide +kernel

theorem test_ill_formed_stream_refused_everywhere :
    ([Instr.qdem ⟨.real, [cplxOf 0 1]⟩ [] [] 0 1, .pllrun ⟨.real, [cplxOf 0 1]⟩ .one .one,
      .lpf ⟨.real, [cplxOf 0 1]⟩ .one .one 1, .awgn ⟨.real, [cplxOf 0 1]⟩ .one].map Instr.wellFormed) =
      [false, false, false, false] := by decide +kernel

/-- 95_test_vectors.md T15: `HENC 102`. -/
theorem test_bit_two_refused : decode .reference ⟨0x10#8, [.bits [1, 0, 2]]⟩ = .error .notABit := rfl

/-- 95_test_vectors.md T15: `QMOD 10, 2.0, 0.5, 2.5`. -/
theorem test_fractional_sample_count_refused :
    (Value.scalar (.rat (5 / 2))).toNat .reference = .error .notNatural := by
  have h : Numerics.reference.nat? (.rat (5 / 2)) = none := by decide +kernel
  simp [Value.toNat, h]

/-- R74: `N` is a natural number by its value, however it is written: `√(1 + 3·cos 0)`. -/
theorem test_natural_number_by_value :
    Numerics.reference.nat? (.root (.sum .one (.prod (.rat 3) (.cosine .zero)))) = some 2 := by
  rw [Numerics.nat?_eq_some]
  refine ⟨?_, .inr rfl⟩
  rw [show (RealExpr.root (.sum .one (.prod (.rat 3) (.cosine .zero)))).val = √(2 ^ 2) by norm_num]
  norm_num

/-- 95_test_vectors.md T15: `PLLRST 1`. -/
theorem test_operand_of_pllrst_refused : decode .reference ⟨0x32#8, [.scalar .one]⟩ = .error .wrongShape := rfl

/-- 95_test_vectors.md T15: samples of the reserved codes, one or more for each unit. -/
theorem test_reserved_codes_refused :
    ([0x00#8, 0x01#8, 0x0F#8, 0x14#8, 0x1F#8, 0x22#8, 0x33#8, 0x44#8, 0x52#8, 0x62#8, 0x70#8, 0x80#8, 0xFF#8].all
      fun op => (decode .reference ⟨op, []⟩).toOption.isNone) = true := by decide +kernel

/-! ### Decoding, from the binary codes of 30_encoding.md R73 -/

theorem test_decode_henc :
    (decode .reference ⟨0b00010000#8, [.bits [1, 0, 1]]⟩).toOption = some (.henc [true, false, true]) := by decide +kernel

theorem test_decode_hdec : (decode .reference ⟨0b00010001#8, [.bits [1, 0]]⟩).toOption = some (.hdec [true, false]) := by
  decide +kernel

theorem test_decode_hencb : (decode .reference ⟨0b00010010#8, [.bits [0, 1]]⟩).toOption = some (.hencb [false, true]) := by
  decide +kernel

theorem test_decode_hdecb : (decode .reference ⟨0b00010011#8, [.bits [0, 1]]⟩).toOption = some (.hdecb [false, true]) := by
  decide +kernel

theorem test_decode_qmod :
    (decode .reference ⟨0b00100000#8, [.bits [1], .scalar (.rat 2), .scalar .pi, .scalar (.rat 4)]⟩).toOption =
      some (.qmod [true] (.rat 2) .pi 4) := by decide +kernel

theorem test_decode_qdem :
    (decode .reference ⟨0b00100001#8, [.stream (realStream [1]), .reals [.pi], .reals [.one], .scalar (.rat 2), .scalar (.rat 4)]⟩
      ).toOption = some (.qdem (realStream [1]) [.pi] [.one] 2 4) := by decide +kernel

theorem test_decode_pllrun :
    (decode .reference ⟨0b00110000#8, [.stream (realStream [1]), .scalar (.rat 2), .scalar .pi]⟩).toOption =
      some (.pllrun (realStream [1]) (.rat 2) .pi) := by decide +kernel

theorem test_decode_plladv :
    (decode .reference ⟨0b00110001#8, [.sample (cplxOf 0 1), .scalar (.rat 2), .scalar .pi]⟩).toOption =
      some (.plladv (cplxOf 0 1) (.rat 2) .pi) := by decide +kernel

theorem test_decode_pllrst : (decode .reference ⟨0b00110010#8, []⟩).toOption = some .pllrst := by decide +kernel

theorem test_decode_agc :
    (decode .reference ⟨0b01000000#8, [.stream (realStream [1]), .scalar .pi]⟩).toOption =
      some (.agc (realStream [1]) .pi) := by decide +kernel

theorem test_decode_lpf :
    (decode .reference ⟨0b01000001#8, [.stream (realStream [1]), .scalar .pi, .scalar .one, .scalar (.rat 3)]⟩).toOption =
      some (.lpf (realStream [1]) .pi .one 3) := by decide +kernel

theorem test_decode_lpfcfg :
    (decode .reference ⟨0b01000010#8, [.scalar .pi, .scalar .one, .scalar (.rat 3)]⟩).toOption =
      some (.lpfcfg .pi .one 3) := by decide +kernel

theorem test_decode_lpfadv :
    (decode .reference ⟨0b01000011#8, [.sample (cplxOf 1 2)]⟩).toOption = some (.lpfadv (cplxOf 1 2)) := by decide +kernel

theorem test_decode_awgn :
    (decode .reference ⟨0b01010000#8, [.stream (realStream [1]), .scalar .pi]⟩).toOption =
      some (.awgn (realStream [1]) .pi) := by decide +kernel

theorem test_decode_rngseed : (decode .reference ⟨0b01010001#8, [.scalar (.rat 7)]⟩).toOption = some (.rngseed 7) := by
  decide +kernel

theorem test_decode_bersweep :
    (decode .reference ⟨0b01100000#8, [.bits [1], .bits [0], .reals [.one], .scalar .pi, .scalar .one, .scalar (.rat 4)]⟩
      ).toOption = some (.bersweep [true] [false] [.one] .pi .one 4) := by decide +kernel

theorem test_decode_bercmp :
    (decode .reference ⟨0b01100001#8, [.bits [1], .bits [0]]⟩).toOption = some (.bercmp [true] [false]) := by decide +kernel

/-! ### One step of every operation -/

/-- The references matching `Tb = 2`, `fc = 0.5`, `N = 4` (95_test_vectors.md T8). -/
def refc : List RealExpr := [.rat 1, .rat 0, .rat (-1), .rat 0]

def refs : List RealExpr := [.rat 0, .rat 1, .rat 0, .rat (-1)]

/-- The 16 bits of "Hi" (95_test_vectors.md S1). -/
def hiBits : BitVector := bitsOf [0, 1, 0, 0, 1, 0, 0, 0, 0, 1, 1, 0, 1, 0, 0, 1]

/-- The 28 encoded bits of "Hi" (95_test_vectors.md T2). -/
def hiEncoded : BitVector :=
  bitsOf [0, 1, 0, 0, 1, 0, 1, 1, 0, 0, 0, 0, 1, 1, 0, 1, 1, 0, 0, 1, 1, 1, 0, 0, 1, 1, 0, 0]

/-- T2, the last row. -/
theorem test_henc_hi : resultsOf (exec (.henc hiBits) State.reset) = some [.ofBits hiEncoded] := by decide +kernel

/-- T2: `HENC 101`, padded. -/
theorem test_henc_pads :
    resultsOf (exec (.henc (bitsOf [1, 0, 1])) State.reset) = some [.bits [1, 0, 1, 0, 1, 0, 1]] := by decide +kernel

/-- T6: "Hi" with positions 1 and 2 of block 0 flipped is miscorrected. -/
theorem test_hdec_double_error :
    resultsOf (exec (.hdec (bitsOf [1, 0, 0, 0, 1, 0, 1, 1, 0, 0, 0, 0, 1, 1, 0, 1, 1, 0, 0, 1, 1, 1, 0, 0, 1, 1, 0, 0]))
      State.reset) = some [.bits [1, 0, 1, 0, 1, 0, 0, 0, 0, 1, 1, 0, 1, 0, 0, 1], .positions [3, 0, 0, 0]] := by
  decide +kernel

/-- T6: length 13, nothing is decoded. -/
theorem test_hdec_length :
    responseOf (exec (.hdec (bitsOf [1, 0, 1, 1, 0, 1, 0, 1, 0, 1, 1, 0, 1])) State.reset) =
      some ⟨.formatError, [], some (.length 13)⟩ := by decide +kernel

/-- R100: `HENCB 1011 -> 1011010`. -/
theorem test_hencb :
    resultsOf (exec (.hencb (bitsOf [1, 0, 1, 1])) State.reset) = some [.bits [1, 0, 1, 1, 0, 1, 0]] := by decide +kernel

theorem test_hencb_length : statusOf (exec (.hencb (bitsOf [1, 0, 1])) State.reset) = some .formatError := by
  decide +kernel

/-- R102: `HDECB 1001010 -> 1011, 3`. -/
theorem test_hdecb :
    resultsOf (exec (.hdecb (bitsOf [1, 0, 0, 1, 0, 1, 0])) State.reset) = some [.bits [1, 0, 1, 1], .ofNat 3] := by
  decide +kernel

theorem test_hdecb_length : statusOf (exec (.hdecb (bitsOf [1, 0, 0, 1])) State.reset) = some .formatError := by
  decide +kernel

/-- T7, row 3. -/
theorem test_qmod :
    resultsOf (exec (.qmod [true, false] (.rat 2) (.rat (1 / 2)) 4) State.reset) =
      some [.stream (realStream [1, -1, -1, 1]), .reals [.rat 0, .rat (1 / 2), .rat 1, .rat (3 / 2)],
        .points [(1, -1)]] := by decide +kernel

/-- T7, row 9: `QMOD 11, 1.0, 0.25, 4`. -/
theorem test_qmod_between_axes :
    allNear ((modulate .reference [true, true] .one (.rat (1 / 4)) 4).samples.map (·.re))
      [1414213562373 / 10 ^ 12, 1847759065023 / 10 ^ 12, 2, 1847759065023 / 10 ^ 12] = true := by decide +kernel

/-- T8: only the real parts of a CPLX stream count. -/
theorem test_qdem_cplx :
    resultsOf (exec (.qdem ⟨.cplx, [cplxOf 1 5, cplxOf (-1) (-2), cplxOf (-1) 0, cplxOf 1 7]⟩ refc refs 2 4)
      State.reset) = some [.bits [1, 0]] := by decide +kernel

/-- T8: a tie on the Q rail decides 1. -/
theorem test_qdem_tie :
    resultsOf (exec (.qdem (realStream [-1, 0, 1, 0]) refc refs 2 4) State.reset) = some [.bits [0, 1]] := by
  decide +kernel

/-- R128: a correlation that is 0 without being seen to be is a tie. -/
theorem test_unseen_tie : Numerics.reference.dec (.sum (.cosine .one) (.prod (.rat (-1)) (.cosine .one))) = true := by
  rw [Numerics.dec_iff rfl]
  simp

/-- T9, main vector: three samples at `+π/2`. -/
theorem test_pllrun :
    allNear [(pllLoop .reference .one (.rat (1 / 100)) (List.replicate 3 (cplxOf 0 1)) State.reset.pll).2.freq,
        (pllLoop .reference .one (.rat (1 / 100)) (List.replicate 3 (cplxOf 0 1)) State.reset.pll).2.phase]
      [90762187373 / 10 ^ 12, 286407613280 / 10 ^ 12] = true := by decide +kernel

/-- T9: a zero REAL stream gives a CPLX stream and leaves the loop at 0. -/
theorem test_pllrun_zero :
    resultsOf (exec (.pllrun (realStream [0, 0, 0]) .one (.rat (1 / 100))) State.reset) =
      some [.stream ⟨.cplx, [realOf 0, realOf 0, realOf 0]⟩, .scalar .zero] := by decide +kernel

/-- T9: `PLLADV −1+0j, 1.0, 0.01`, the phase error at the closed end of its range. -/
theorem test_plladv :
    allNear [(pllOutput .reference (cplxOf (-1) 0) .one (.rat (1 / 100)) State.reset.pll).re,
        (pllOutput .reference (cplxOf (-1) 0) .one (.rat (1 / 100)) State.reset.pll).im,
        (pllNext .reference (cplxOf (-1) 0) .one (.rat (1 / 100)) State.reset.pll).integ]
      [-979968571384 / 10 ^ 12, 199152200840 / 10 ^ 12, 3100627668 / 10 ^ 12] = true := by decide +kernel

theorem test_plladv_rate :
    refusalOf (exec (.plladv (cplxOf 0 1) .zero .one) State.reset) = some .sampleRateDomain := by decide +kernel

theorem test_pllrst :
    (stateOf (exec .pllrst { State.reset with pll := ⟨.pi, .one, .one⟩ })).pll = ⟨.zero, .zero, .zero⟩ := by
  decide +kernel

/-- T10: `AGC CPLX[3+4j, 1+0j], 1.0`. -/
theorem test_agc :
    resultsOf (exec (.agc ⟨.cplx, [cplxOf 3 4, cplxOf 1 0]⟩ .one) State.reset) =
      some [.stream ⟨.cplx, [cplxOf (3 / 5) (4 / 5), cplxOf (1 / 5) 0]⟩] := by decide +kernel

/-- S2: the source's degenerate input. -/
theorem test_agc_degenerate :
    responseOf (exec (.agc (realStream [0, 0, 0]) (.rat (1 / 10))) State.reset) =
      some ⟨.degenerateSignalError, [], some .zeroAmplitude⟩ := by decide +kernel

/-- R170: `LPF REAL[1, 1, 0, 0], 0.25, 1.0, 1`. -/
theorem test_lpf :
    resultsOf (exec (.lpf (realStream [1, 1, 0, 0]) (.rat (1 / 4)) .one 1) State.reset) =
      some [.stream (realStream [1 / 2, 1, 1 / 2, 0])] := by decide +kernel

/-- T11: the impulse response of order 2. -/
theorem test_lpf_order_two :
    allNear ((filterLoop .reference (realStream [1, 0, 0, 0, 0]).samples
        (designFilter .reference (.rat (1 / 4)) .one 2)).1.map (·.re))
      [292893218813 / 10 ^ 12, 585786437627 / 10 ^ 12, 242640687119 / 10 ^ 12, -100505063388 / 10 ^ 12,
        -41630560343 / 10 ^ 12] = true := by decide +kernel

/-- R175: order 4, `Wn = 0.1`. -/
theorem test_lpfcfg :
    allNear (designFilter .reference (.rat (1 / 20)) .one 4).a
      [-3180638548875 / 10 ^ 12, 3861194348994 / 10 ^ 12, -2112155355111 / 10 ^ 12, 438265142262 / 10 ^ 12] = true := by
  decide +kernel

/-- T11: `Wn = 1` and `order = 0`. -/
theorem test_lpfcfg_domain :
    [refusalOf (exec (.lpfcfg (.rat (1 / 2)) .one 1) State.reset),
      refusalOf (exec (.lpfcfg (.rat (1 / 4)) .one 0) State.reset)] =
      [some .filterDomain, some .filterDomain] := by decide +kernel

/-- T11: the second output after the same LPFCFG, and the histories. -/
theorem test_lpfadv :
    (stateOf (exec (.lpfadv (realOf 0)) (stateOf (exec (.lpfadv (realOf 1))
      (stateOf (exec (.lpfcfg (.rat (1 / 4)) .one 1) State.reset)))))).lpf.yh = [realOf (1 / 2)] := by decide +kernel

theorem test_lpfadv_unconfigured :
    refusalOf (exec (.lpfadv (realOf 1)) State.reset) = some .filterNotConfigured := by decide +kernel

/-- T12: the draws consumed, 2 for two REAL samples and 4 for two CPLX ones. -/
theorem test_awgn_draws :
    [(stateOf (exec (.awgn (realStream [-1, 1]) .zero) State.reset)).rng.count,
      (stateOf (exec (.awgn ⟨.cplx, [cplxOf 1 1, cplxOf 0 (-1)]⟩ (.rat 10)) State.reset)).rng.count] = [2, 4] := by
  decide +kernel

/-- T12: `noise_std` at 0, 2, 20 and −10 dB. -/
theorem test_noise_std :
    allNear ([.rat 0, .rat 2, .rat 20, .rat (-10)].map (noiseStd .reference))
      [707106781187 / 10 ^ 12, 561674881261 / 10 ^ 12, 70710678119 / 10 ^ 12, 2236067977500 / 10 ^ 12] = true := by
  decide +kernel

/-- T12: `RNGSEED 7` from any state. -/
theorem test_rngseed :
    (stateOf (exec (.rngseed 7) { State.reset with rng := ⟨3, 9⟩ })).rng = ⟨7, 0⟩ := by decide +kernel

/-- T14: an empty range is a legal sweep. -/
theorem test_bersweep_empty :
    resultsOf (exec (.bersweep hiEncoded hiBits [] (.rat 2) (.rat (1 / 2)) 4) State.reset) = some [.curve []] := by
  decide +kernel

/-- T14, check 4, with the count of draws unchanged. -/
theorem test_bersweep_check :
    exec (.bersweep (bitsOf [1, 0, 1, 0, 1, 0, 1, 1, 0, 1, 0, 1, 0, 1]) (bitsOf [1, 0, 1, 0, 1, 0, 1, 0, 1]) [.zero]
      (.rat 2) (.rat (1 / 2)) 4) State.reset = .next (State.reset.failed .formatError .decodedTooShort) := rfl

/-- R201: `BERCMP 0100, 10100000 -> 3, 3/4`. -/
theorem test_bercmp :
    resultsOf (exec (.bercmp (bitsOf [0, 1, 0, 0]) (bitsOf [1, 0, 1, 0, 0, 0, 0, 0])) State.reset) =
      some [.ofNat 3, .scalar (.rat (3 / 4))] := by decide +kernel

theorem test_bercmp_empty : statusOf (exec (.bercmp [] [false]) State.reset) = some .formatError := by decide +kernel

/-- T16: the bits of "Hi". -/
theorem test_text_codec : textToBits [72, 105] = hiBits ∧ bitsToText hiBits = [72, 105] := by decide +kernel

/-- R75: the assembler's default. -/
theorem test_assembler_default :
    (assemble ⟨0x31#8, [.name 0, .name 1], [2, 3]⟩).operands = [.name 0, .name 1, .lit (.scalar (.rat (1 / 100)))] := by
  decide +kernel

/-! ### Operands and states that meet the hypotheses of the statements, one theorem a statement -/

/-- The state whose run is about to present one command. -/
def presenting (c : HostCommand) : State := State.reset.startRun [c]

/-- The reset state with a bound on lengths. -/
def capped (n : Nat) : State := { State.reset with maxLen := some n }

/-- The state after `LPFCFG 0.25, 1.0, 1`. -/
def configured : State := stateOf (exec (.lpfcfg (.rat (1 / 4)) .one 1) State.reset)

theorem operandsFit_of_exceeds {s : State} {i : Instr} (h : s.exceeds (bufferLengths i.operands) = false) :
    s.OperandsFit i := State.operandsFit_iff.2 h

theorem witness_DecodeEncode : (Instr.agc (realStream [3, -4, 0]) (.rat (1 / 10))).wellFormed = true := by
  decide +kernel

theorem witness_DecodedIsOfTheCommand :
    decode .reference ⟨0x40#8, [.stream ⟨.cplx, [cplxOf 0 1]⟩, .scalar .one]⟩ = .ok (.agc ⟨.cplx, [cplxOf 0 1]⟩ .one) := rfl

theorem witness_ReservedCodesRejected : 0x14#8 ∉ tableCodes ∧ 0xFF#8 ∉ tableCodes := by decide

theorem witness_OperandCountChecked : [Value.scalar .one].length ≠ Instr.pllrst.operands.length := by decide

theorem witness_OperandTypesChecked :
    (0x20#8, [OperandType.bitVector, .real, .real, .natural]) ∈ operandTable ∧
      (Value.bits [0, 1]).Has .reference .bitVector ∧ ¬(Value.bits [0, 2]).Has .reference .bitVector ∧
      (Value.scalar (.rat 4)).Has .reference .natural ∧ ¬(Value.scalar (.rat (5 / 2))).Has .reference .natural ∧
      (Value.stream (realStream [1])).Has .reference .stream ∧ ¬(Value.stream ⟨.real, [cplxOf 0 1]⟩).Has .reference .stream ∧
      ¬(Value.reals []).Has .reference .bitVector := by
  refine ⟨by decide, by simp [Value.Has], by simp [Value.Has], ⟨4, by simp, .inr rfl⟩, ?_, by simp [Value.Has, realStream, realOf],
    by simp [Value.Has, cplxOf], by simp [Value.Has]⟩
  rintro ⟨n, h, _⟩
  have h1 : (5 / 2 : ℝ) = n := by simpa using h
  have h2 : (5 : ℝ) = ((2 * n : Nat) : ℝ) := by push_cast; linarith
  have h3 : 5 = 2 * n := by exact_mod_cast h2
  omega

theorem witness_StepRunsDecodedInstruction :
    (presenting ⟨0x51#8, [.lit (.ofNat 7)], []⟩).host.stopped = none ∧
      (presenting ⟨0x51#8, [.lit (.ofNat 7)], []⟩).host.program[0]? = some ⟨0x51#8, [.lit (.ofNat 7)], []⟩ ∧
      (presenting ⟨0x51#8, [.lit (.ofNat 7)], []⟩).host.argValues [.lit (.ofNat 7)] = .ok [.ofNat 7] ∧
      decode .reference ⟨0x51#8, [.ofNat 7]⟩ = .ok (.rngseed 7) := by
  refine ⟨rfl, rfl, rfl, ?_⟩
  have h : (Value.ofNat 7).toNat .reference = .ok 7 := by
    have h : Numerics.reference.nat? (.ofNat 7) = some 7 := Numerics.nat?_ofNat _ 7
    simp [Value.ofNat, Value.toNat, h]
  have : decode .reference ⟨0x51#8, [.ofNat 7]⟩ = (do return .rngseed (← (Value.ofNat 7).toNat .reference)) := rfl
  rw [this, h]
  rfl

theorem witness_StepAfterOk :
    (presenting ⟨0x10#8, [.lit (.bits [1])], [3]⟩).host.stopped = none ∧
      (presenting ⟨0x10#8, [.lit (.bits [1])], [3]⟩).host.program[0]? = some ⟨0x10#8, [.lit (.bits [1])], [3]⟩ ∧
      (presenting ⟨0x10#8, [.lit (.bits [1])], [3]⟩).host.argValues [.lit (.bits [1])] = .ok [.bits [1]] ∧
      decode .reference ⟨0x10#8, [.bits [1]]⟩ = .ok (.henc [true]) ∧
      exec (.henc [true]) (presenting ⟨0x10#8, [.lit (.bits [1])], [3]⟩) =
        .next ((presenting ⟨0x10#8, [.lit (.bits [1])], [3]⟩).answered [.bits [1, 0, 0, 0, 0, 1, 1]]) ∧
      ((presenting ⟨0x10#8, [.lit (.bits [1])], [3]⟩).answered [.bits [1, 0, 0, 0, 0, 1, 1]]).host.response =
        some ⟨.ok, [.bits [1, 0, 0, 0, 0, 1, 1]], none⟩ := ⟨rfl, rfl, rfl, rfl, rfl, rfl⟩

theorem witness_StepAfterError :
    (presenting ⟨0x12#8, [.lit (.bits [1])], [3]⟩).host.stopped = none ∧
      (presenting ⟨0x12#8, [.lit (.bits [1])], [3]⟩).host.program[0]? = some ⟨0x12#8, [.lit (.bits [1])], [3]⟩ ∧
      (presenting ⟨0x12#8, [.lit (.bits [1])], [3]⟩).host.argValues [.lit (.bits [1])] = .ok [.bits [1]] ∧
      decode .reference ⟨0x12#8, [.bits [1]]⟩ = .ok (.hencb [true]) ∧
      exec (.hencb [true]) (presenting ⟨0x12#8, [.lit (.bits [1])], [3]⟩) =
        .next ((presenting ⟨0x12#8, [.lit (.bits [1])], [3]⟩).failed .formatError (.length 1)) ∧
      ((presenting ⟨0x12#8, [.lit (.bits [1])], [3]⟩).failed .formatError (.length 1)).host.response =
        some ⟨.formatError, [], some (.length 1)⟩ ∧ Status.formatError ≠ .ok :=
  ⟨rfl, rfl, rfl, rfl, rfl, rfl, by decide⟩

theorem witness_StepRefusesUndecodable :
    (presenting ⟨0x10#8, [.name 5], []⟩).host.stopped = none ∧
      (presenting ⟨0x10#8, [.name 5], []⟩).host.program[0]? = some ⟨0x10#8, [.name 5], []⟩ ∧
      (presenting ⟨0x10#8, [.name 5], []⟩).host.argValues [.name 5] = .error (.unboundName 5) ∧
      (presenting ⟨0x70#8, [], []⟩).host.argValues [] = .ok [] ∧ decode .reference ⟨0x70#8, []⟩ = .error .reservedCode :=
  ⟨rfl, rfl, rfl, rfl, rfl⟩

theorem witness_StepIdleAfterEnd :
    (State.reset.host.stopped ≠ none ∨ State.reset.host.program.length ≤ State.reset.host.pc) ∧
      ((stateOf (step (presenting ⟨0x12#8, [.lit (.bits [1])], []⟩))).host.stopped ≠ none) := by
  refine ⟨.inr (by decide), ?_⟩
  decide +kernel

theorem witness_StepKeepsInvariant :
    (presenting ⟨0x32#8, [], []⟩).Inv ∧ ∃ t, step (presenting ⟨0x32#8, [], []⟩) = .next t := by
  refine ⟨⟨?_, ?_⟩, ⟨_, rfl⟩⟩
  · simp [presenting, State.startRun, Lpf.Shape, State.reset]
  · simp [presenting, State.startRun, HostRun.Shape]

theorem witness_EveryOperationCompletes :
    State.reset.maxLen = none ∧ domainRefusal (.henc [true]) State.reset = none ∧ formatCause (.henc [true]) = none ∧
      degenerateCause (.henc [true]) State.reset = none ∧ domainRefusal (.lpfadv .zero) configured = none ∧
      degenerateCause (.agc (realStream [1]) .one) State.reset = none := by
  refine ⟨rfl, rfl, rfl, rfl, by decide +kernel, by decide +kernel⟩

theorem witness_ErrorCausesRaise :
    State.reset.OperandsFit (.hdec [true]) ∧ domainRefusal (.hdec [true]) State.reset = none ∧
      formatCause (.hdec [true]) = some (.length 1) ∧ State.reset.OperandsFit (.agc (realStream [0]) .one) ∧
      degenerateCause (.agc (realStream [0]) .one) State.reset = some .zeroAmplitude := by
  refine ⟨operandsFit_of_exceeds rfl, rfl, rfl, operandsFit_of_exceeds rfl, by decide +kernel⟩

theorem witness_StatusHasItsCause :
    exec .pllrst State.reset = .next (State.reset.answered []) ∧
      exec (.hdec [true]) State.reset = .next (State.reset.failed .formatError (.length 1)) := ⟨rfl, rfl⟩

theorem witness_RefusalCauses :
    ¬(capped 2).OperandsFit (.henc [true, true, true]) ∧ (capped 4).OperandsFit (.henc [true, true, true, true]) ∧
      exec (.henc [true, true, true, true]) (capped 4) = .refused .overMaxLen ∧
      domainRefusal (.lpfadv .zero) State.reset = some .filterNotConfigured ∧
      exec (.henc [true]) (capped 7) = .next ((capped 7).answered [.bits [1, 0, 0, 0, 0, 1, 1]]) := by
  refine ⟨?_, operandsFit_of_exceeds rfl, rfl, rfl, rfl⟩
  rw [State.operandsFit_iff, Bool.not_eq_false]
  rfl

theorem witness_RefusalsOverTheReals :
    State.reset.IsReference ∧ State.reset.maxLen = none ∧ RealExpr.zero.val ≤ 0 ∧
      1 ≤ (RealExpr.rat (1 / 2)).val / (RealExpr.one.val / 2) ∧ RealExpr.zero.val / (RealExpr.one.val / 2) ≤ 0 :=
  ⟨rfl, rfl, by simp, by norm_num, by norm_num⟩

theorem witness_NonFiniteRefused : State.reset.OperandsFit (.lpfadv .zero) ∧ State.reset.IsReference :=
  ⟨operandsFit_of_exceeds rfl, rfl⟩

theorem witness_GroupsWritten :
    exec .pllrst State.reset = .next (State.reset.answered []) ∧ writesLpf .pllrst = false ∧
      writesRng .pllrst = false ∧ writesPll (.henc []) = false := ⟨rfl, rfl, rfl, rfl⟩

theorem witness_GroupsRead :
    State.reset.maxLen = configured.maxLen ∧ State.reset.num = configured.num ∧
      readsPll (.rngseed 7) = false ∧ readsLpf (.rngseed 7) = false ∧
      readsRng (.rngseed 7) = false ∧ State.reset ≠ configured ∧
      exec (.rngseed 7) State.reset = .next ((State.reset.withRng ⟨7, 0⟩).answered []) := by
  refine ⟨by decide +kernel, by decide +kernel, rfl, rfl, rfl, by decide +kernel, rfl⟩

theorem witness_DrawCountGrows :
    (∀ n, Instr.awgn (realStream [1]) .zero ≠ .rngseed n) ∧
      ∃ t, exec (.awgn (realStream [1]) .zero) State.reset = .next t := ⟨fun _ => nofun, ⟨_, rfl⟩⟩

theorem witness_EncodeBlock : (capped 7).Fits 7 := fun m h => by cases h; rfl

theorem witness_DecodeBlock : (capped 7).Fits 7 ∧ State.reset.Fits 7 := ⟨fun m h => by cases h; rfl, nofun⟩

theorem witness_EncodeVector : (capped 14).Fits (7 * ceilQuarter [true, false, true, true, false].length) :=
  fun m h => by cases h; decide

theorem witness_DecodeVector : hiEncoded.length % 7 = 0 ∧ State.reset.Fits hiEncoded.length ∧
    blockOf hiEncoded 7 3 = (⟨true, false, false, true, true, false, false⟩ : Block7).toBits :=
  ⟨by decide, nofun, by decide⟩

theorem witness_CodeMatrices : (⟨true, false, false, false⟩ : Block4) ≠ ⟨false, false, false, false⟩ := by decide

theorem witness_DoubleErrorMiscorrected : 1 ≤ 1 ∧ 7 ≤ 7 ∧ 1 ≠ 7 := by decide

theorem witness_HammingRoundTrip :
    State.reset.Fits (7 * ceilQuarter [true, false, true, true, false].length) ∧
      (bitsOf [1, 0, 0, 0, 0, 0, 0, 0, 0, 0, 0, 0, 0, 1]).length = 7 * ceilQuarter [true, false, true, true, false].length ∧
      ∀ m, m < ceilQuarter [true, false, true, true, false].length →
        weight (blockOf (bitsOf [1, 0, 0, 0, 0, 0, 0, 0, 0, 0, 0, 0, 0, 1]) 7 m) ≤ 1 :=
  ⟨nofun, rfl, by decide⟩

theorem witness_ModulatorSynthesis :
    (capped 4).IsReference ∧ 0 < (RealExpr.rat 2).val ∧ [true, false].length % 2 = 0 ∧
      (capped 4).Fits [true, false].length ∧ (capped 4).Fits ([true, false].length / 2 * 4) := by
  refine ⟨rfl, by norm_num, rfl, fun m h => ?_, fun m h => ?_⟩ <;> cases h <;> decide

theorem witness_DemodulatorDecisions :
    State.reset.IsReference ∧ refc.length = 4 ∧ refs.length = 4 ∧
      2 / 2 * 4 ≤ (realStream [1, -1, -1, 1]).samples.length ∧
      State.reset.OperandsFit (.qdem (realStream [1, -1, -1, 1]) refc refs 2 4) ∧ State.reset.Fits 2 :=
  ⟨rfl, rfl, rfl, by decide, operandsFit_of_exceeds rfl, nofun⟩

theorem witness_DecisionsAsComputed :
    State.reset.OperandsFinite (.qdem (realStream [1, -1, -1, 1]) refc refs 2 4) ∧
      State.reset.arith.finite (correlation State.reset.arith (realStream [1, -1, -1, 1]).samples refc 4 0) = true :=
  ⟨fun _ _ => rfl, rfl⟩

theorem witness_DemodulatorScaleInvariant :
    State.reset.IsReference ∧ 0 < (RealExpr.rat 3).val ∧ 0 < (RealExpr.rat (1 / 10)).val ∧ 0 < RealExpr.one.val :=
  ⟨rfl, by norm_num, by norm_num, by norm_num⟩

theorem witness_NoiselessRoundTrip :
    State.reset.IsReference ∧ State.reset.maxLen = none ∧ 0 < (RealExpr.rat 2).val ∧
      (RealExpr.rat (1 / 2)).val * (RealExpr.rat 2).val = ((1 : Int) : ℝ) ∧ ¬((4 : Nat) : Int) ∣ 2 * 1 :=
  ⟨rfl, rfl, by norm_num, by norm_num, by decide⟩

theorem witness_LoopAdvance : State.reset.IsReference ∧ 0 < RealExpr.one.val := ⟨rfl, by norm_num⟩

theorem witness_LoopRun :
    State.reset.IsReference ∧ 0 < RealExpr.one.val ∧ State.reset.Fits (realStream [1, 2]).samples.length :=
  ⟨rfl, by norm_num, nofun⟩

theorem witness_LoopRunIsAdvances :
    domainRefusal (.pllrun (realStream [1, 2]) .one .one) (capped 2) = none ∧
      (∀ x ∈ (realStream [1, 2]).samples, domainRefusal (.plladv x .one .one) (capped 2) = none) ∧
      (capped 2).Fits (realStream [1, 2]).samples.length := by
  refine ⟨by decide +kernel, fun x hx => ?_, fun m h => by cases h; decide⟩
  rw [show (realStream [1, 2]).samples = [realOf 1, realOf 2] from rfl, List.mem_pair] at hx
  rcases hx with rfl | rfl <;> decide +kernel

theorem witness_LoopRunSplits :
    domainRefusal (.pllrun ⟨.real, [realOf 1] ++ [realOf 2, realOf 3]⟩ .one .one) (capped 3) = none ∧
      (capped 3).Fits ([realOf 1].length + [realOf 2, realOf 3].length) :=
  ⟨by decide +kernel, fun m h => by cases h; decide⟩

theorem witness_LoopCoasts :
    State.reset.IsReference ∧ 0 < RealExpr.one.val ∧ (Cplx.zero.val = 0 ∨ RealExpr.one.val = 0) ∧
      ((cplxOf 0 1).val = 0 ∨ RealExpr.zero.val = 0) := ⟨rfl, by norm_num, .inl (by simp), .inr (by simp)⟩

theorem witness_LoopPureOffset :
    State.reset.IsReference ∧ 0 < RealExpr.one.val ∧ State.reset.pll.val = ⟨0, 0, 0⟩ ∧ -Real.pi < Real.pi ∧
      (realOf (-1)).val = Complex.exp (Real.pi * Complex.I) := by
  refine ⟨rfl, by norm_num, by simp [Pll.val, State.reset], by linarith [Real.pi_pos], ?_⟩
  rw [Complex.exp_pi_mul_I]
  apply Complex.ext <;> simp [realOf]

theorem witness_GainNormalises :
    State.reset.IsReference ∧ State.reset.Fits (realStream [3, -4, 0]).samples.length ∧
      (realStream [3, -4, 0]).wellFormed = true ∧ (∃ x ∈ [realOf 3, realOf (-4), realOf 0], x.val ≠ 0) ∧
      [realOf 0] ≠ [] ∧ ∀ x ∈ [realOf 0], x.val = 0 := by
  refine ⟨rfl, nofun, by decide +kernel, ⟨realOf 3, by simp, fun h => ?_⟩, by simp, fun x hx => ?_⟩
  · simpa [realOf] using congrArg Complex.re h
  · obtain rfl : x = realOf 0 := by simpa using hx
    apply Complex.ext <;> simp [realOf]

theorem witness_GainPeak :
    State.reset.IsReference ∧ State.reset.Fits (realStream [3, -4, 0]).samples.length ∧
      (realStream [3, -4, 0]).wellFormed = true ∧
      (∃ x ∈ [realOf 3, realOf (-4), realOf 0], x.val ≠ 0) ∧
      (∀ x ∈ [realOf 3, realOf (-4), realOf 0], ‖x.val‖ ≤ ‖([realOf 3, realOf (-4), realOf 0].getD 1 .zero).val‖) ∧
      0 < (RealExpr.rat (1 / 10)).val := by
  have key (q : ℚ) : ‖(realOf q).val‖ = |(q : ℝ)| := by
    have : (realOf q).val = ((q : ℝ) : ℂ) := by apply Complex.ext <;> simp [realOf]
    rw [this, Complex.norm_real, Real.norm_eq_abs]
  refine ⟨rfl, nofun, by decide +kernel, ⟨realOf 3, by simp, fun h => ?_⟩, fun x hx => ?_, by norm_num⟩
  · simpa [realOf] using congrArg Complex.re h
  · simp only [List.mem_cons, List.not_mem_nil, or_false] at hx
    rcases hx with rfl | rfl | rfl <;> norm_num [key]

theorem witness_FilterDesign :
    State.reset.IsReference ∧ 0 < RealExpr.one.val ∧ 0 < (RealExpr.rat (1 / 4)).val / (RealExpr.one.val / 2) ∧
      (RealExpr.rat (1 / 4)).val / (RealExpr.one.val / 2) < 1 := ⟨rfl, by norm_num, by norm_num, by norm_num⟩

theorem witness_FilterDesignIsSound :
    State.reset.IsReference ∧ 0 < RealExpr.one.val ∧ 0 < (RealExpr.rat (1 / 10)).val / (RealExpr.one.val / 2) ∧
      (RealExpr.rat (1 / 10)).val / (RealExpr.one.val / 2) < 1 := ⟨rfl, by norm_num, by norm_num, by norm_num⟩

theorem witness_FilterClosedForms :
    State.reset.IsReference ∧ 0 < RealExpr.one.val ∧
      (1 / 2 : ℝ) = (RealExpr.rat (1 / 4)).val / (RealExpr.one.val / 2) ∧ (0 : ℝ) < 1 / 2 ∧ (1 / 2 : ℝ) < 1 :=
  ⟨rfl, by norm_num, by norm_num, by norm_num, by norm_num⟩

theorem witness_FilterAdvance : configured.IsReference ∧ configured.lpf.cfgd = true :=
  ⟨show configured.num = .exact by decide +kernel, by decide +kernel⟩

theorem witness_FilterStreamIsAdvances :
    domainRefusal (.lpf (realStream [1, 1]) (.rat (1 / 4)) .one 1) State.reset = none ∧
      (∀ x ∈ (realStream [1, 1]).samples, State.reset.OperandsFinite (.lpfadv x)) ∧
      State.reset.Fits (realStream [1, 1]).samples.length := ⟨by decide +kernel, fun _ _ _ _ => rfl, nofun⟩

theorem witness_FilterIsLinear :
    State.reset.IsReference ∧ 0 < RealExpr.one.val ∧ 0 < (RealExpr.rat (1 / 4)).val / (RealExpr.one.val / 2) ∧
      (RealExpr.rat (1 / 4)).val / (RealExpr.one.val / 2) < 1 ∧
      [realOf 1, realOf 2].length = [realOf 0, realOf 1].length ∧ State.reset.Fits [realOf 1, realOf 2].length ∧
      (⟨.real, [realOf 1, realOf 2]⟩ : Stream).wellFormed = true ∧
      (⟨.real, [realOf 0, realOf 1]⟩ : Stream).wellFormed = true ∧
      (⟨.real, List.zipWith (fun u v => ((realOf 2).mul u).add ((realOf 3).mul v)) [realOf 1, realOf 2]
        [realOf 0, realOf 1]⟩ : Stream).wellFormed = true :=
  ⟨rfl, by norm_num, by norm_num, by norm_num, rfl, nofun, by decide +kernel, by decide +kernel, by decide +kernel⟩

theorem witness_RealStreamsStayReal :
    Instr.awgn (realStream [1, 2]) .zero ∈ [.agc (realStream [1, 2]) .zero, .awgn (realStream [1, 2]) .zero] ∧
      ∃ t vs y, exec (.awgn (realStream [1, 2]) .zero) State.reset = .next t ∧
        t.host.response = some ⟨.ok, vs, none⟩ ∧ vs.head? = some (.stream y) :=
  ⟨by simp, ⟨_, _, _, rfl, rfl, rfl⟩⟩

theorem witness_NoiseAdded : (capped 2).IsReference ∧ (realStream [1, 2]).wellFormed = true ∧
    (capped 2).Fits (realStream [1, 2]).samples.length ∧ (realStream [1, 2]).kind = .real ∧
    (⟨.cplx, [cplxOf 1 1]⟩ : Stream).kind = .cplx := ⟨rfl, by decide +kernel, fun m h => by cases h; decide, rfl, rfl⟩

theorem witness_NoiseSeeded :
    (capped 9).maxLen = ({ capped 9 with rng := ⟨3, 5⟩ } : State).maxLen ∧
      (capped 9).num = ({ capped 9 with rng := ⟨3, 5⟩ } : State).num ∧
      (∀ i ∈ [Instr.awgn (realStream [1]) .zero, .awgn (realStream [1]) .zero], readsPll i = false ∧ readsLpf i = false) ∧
      (runAll [.rngseed 7, .awgn (realStream [1]) .zero, .awgn (realStream [1]) .zero] (capped 9)).isSome = true :=
  ⟨rfl, rfl, by simp [readsPll, readsLpf], rfl⟩

theorem witness_NoiseLevel : (RealExpr.rat 0).val < (RealExpr.rat 2).val := by norm_num

theorem witness_BitErrorsCounted :
    1 ≤ [false, true].length ∧ [false, true].length ≤ [true, true, true].length ∧
      (capped 3).Fits [true, true, true].length :=
  ⟨by decide, by decide, fun m h => by cases h; decide⟩

theorem witness_SweepIsExpansion :
    State.reset.IsReference ∧ State.reset.maxLen = none ∧ 0 < (RealExpr.rat 2).val ∧ hiEncoded.length % 2 = 0 ∧
      hiEncoded.length % 7 = 0 ∧ 1 ≤ hiBits.length ∧ hiBits.length ≤ 4 * hiEncoded.length / 7 :=
  ⟨rfl, rfl, by norm_num, rfl, rfl, by decide, by decide⟩

theorem witness_TextRoundTrip : (∀ c ∈ [0, 72, 255], c < 256) ∧ hiBits.length % 8 = 0 := ⟨by decide, rfl⟩

end Sys2Proof.Tests
end

section
/-! PROOFS. The (7,4) code as linear algebra over GF(2) (41_hamming.md R94 to R99, R106, R108): the words are a vector
space under `addBlocks`, flipping a position is adding a word of one bit, the syndrome is linear and is 0 exactly on the
codewords. Every statement about errors follows from these. -/

namespace Sys2Proof.Proofs

/-- The word of seven zeros, `e_0` of 41_hamming.md R106. -/
def zeroBlock : Block7 := ⟨false, false, false, false, false, false, false⟩

/-- The word `e_p` of 41_hamming.md R106: a single one at position `p`, and no one for a `p` that is no position. -/
def errorAt (p : Nat) : Block7 := flipAt zeroBlock p

/-! ### Words -/

theorem addBlocks_assoc (a b c : Block7) : addBlocks (addBlocks a b) c = addBlocks a (addBlocks b c) := by
  simp [addBlocks]

theorem addBlocks_comm (a b : Block7) : addBlocks a b = addBlocks b a := by
  simp [addBlocks, Bool.xor_comm]

@[simp] theorem addBlocks_zeroBlock (a : Block7) : addBlocks a zeroBlock = a := by simp [addBlocks, zeroBlock]

@[simp] theorem addBlocks_self (a : Block7) : addBlocks a a = zeroBlock := by simp [addBlocks, zeroBlock]

@[simp] theorem addBlocks_cancel_left (a b : Block7) : addBlocks a (addBlocks a b) = b := by
  simp [addBlocks]

theorem addBlocks_eq_zeroBlock_iff {a b : Block7} : addBlocks a b = zeroBlock ↔ a = b := by
  constructor
  · intro h
    rw [← addBlocks_cancel_left a b, h, addBlocks_zeroBlock]
  · rintro rfl
    exact addBlocks_self a

theorem flipAt_eq_addBlocks (r : Block7) (p : Nat) : flipAt r p = addBlocks r (errorAt p) := by
  unfold flipAt errorAt
  split <;> simp [addBlocks, flipAt, zeroBlock]

@[simp] theorem errorAt_zero : errorAt 0 = zeroBlock := rfl

theorem weight_errorAt_le_one (p : Nat) : weight (errorAt p).toBits ≤ 1 := by
  unfold errorAt flipAt
  split <;> decide

theorem weight_errorAt_add_errorAt {i j : Nat} (hi : 1 ≤ i) (hi' : i ≤ 7) (hj : 1 ≤ j) (hj' : j ≤ 7) (hij : i ≠ j) :
    weight (addBlocks (errorAt i) (errorAt j)).toBits = 2 := by
  have table : ∀ i ∈ Finset.Icc 1 7, ∀ j ∈ Finset.Icc 1 7, i ≠ j →
      weight (addBlocks (errorAt i) (errorAt j)).toBits = 2 := by decide
  exact table i (Finset.mem_Icc.2 ⟨hi, hi'⟩) j (Finset.mem_Icc.2 ⟨hj, hj'⟩) hij

/-! ### Data blocks -/

@[simp] theorem dataOf_encb (d : Block4) : dataOf (encb d) = d := rfl

theorem dataOf_addBlocks (r e : Block7) : dataOf (addBlocks r e) = addData (dataOf r) (dataOf e) := rfl

@[simp] theorem addData_cancel_left (d e : Block4) : addData d (addData d e) = e := by simp [addData]

theorem addData_eq_left_iff {d e : Block4} : addData d e = d ↔ e = dataOf zeroBlock := by
  constructor
  · intro h
    calc e = addData d (addData d e) := (addData_cancel_left d e).symm
      _ = addData d d := by rw [h]
      _ = dataOf zeroBlock := by simp [addData, dataOf, zeroBlock]
  · rintro rfl
    simp [addData, dataOf, zeroBlock]

/-! ### The encoder and the syndrome -/

theorem encb_addData (d e : Block4) : encb (addData d e) = addBlocks (encb d) (encb e) := by
  simp only [encb, addData, addBlocks, Bool.xor_assoc, Bool.xor_left_comm]

theorem syndrome_addBlocks (r e : Block7) : syndrome (addBlocks r e) =
    ((syndrome r).1 ^^ (syndrome e).1, (syndrome r).2.1 ^^ (syndrome e).2.1, (syndrome r).2.2 ^^ (syndrome e).2.2) := by
  simp only [syndrome, addBlocks, Bool.xor_assoc, Bool.xor_left_comm]

/-- Three bits read as a number: sums of bits are read as the exclusive or of the numbers. -/
theorem threeDigits_xor (a b c a' b' c' : Bit) :
    4 * Bit.digit (a ^^ a') + 2 * Bit.digit (b ^^ b') + Bit.digit (c ^^ c') =
      (4 * a.digit + 2 * b.digit + c.digit) ^^^ (4 * a'.digit + 2 * b'.digit + c'.digit) := by
  revert a b c a' b' c'
  decide

theorem synpos_addBlocks (r e : Block7) : synpos (addBlocks r e) = synpos r ^^^ synpos e := by
  unfold synpos
  rw [syndrome_addBlocks]
  exact threeDigits_xor ..

theorem synpos_le (r : Block7) : synpos r ≤ 7 := by
  have hdigit (b : Bit) : b.digit ≤ 1 := by cases b <;> decide
  have h0 := hdigit (syndrome r).1
  have h1 := hdigit (syndrome r).2.1
  have h2 := hdigit (syndrome r).2.2
  unfold synpos
  omega

/-- Column `p` of `H` reads `p` (41_hamming.md R93). -/
theorem synpos_errorAt {p : Nat} (hp : p ≤ 7) : synpos (errorAt p) = p := by
  interval_cases p <;> rfl

@[simp] theorem synpos_encb (d : Block4) : synpos (encb d) = 0 := by
  obtain ⟨d1, d2, d3, d4⟩ := d
  revert d1 d2 d3 d4
  decide

/-- A word of syndrome 0 is the codeword of its first four bits (41_hamming.md R94). -/
theorem eq_encb_of_synpos_eq_zero {r : Block7} (h : synpos r = 0) : r = encb (dataOf r) := by
  obtain ⟨r1, r2, r3, r4, r5, r6, r7⟩ := r
  revert r1 r2 r3 r4 r5 r6 r7
  decide

theorem synpos_eq_positionXor (e : Block7) : synpos e = positionXor e := by
  obtain ⟨e1, e2, e3, e4, e5, e6, e7⟩ := e
  revert e1 e2 e3 e4 e5 e6 e7
  decide

theorem synpos_encb_add (d : Block4) (e : Block7) : synpos (addBlocks (encb d) e) = synpos e := by
  rw [synpos_addBlocks, synpos_encb, Nat.zero_xor]

/-! ### Correction -/

theorem fixBlock_eq_addBlocks (r : Block7) : fixBlock r = addBlocks r (errorAt (synpos r)) :=
  flipAt_eq_addBlocks r (synpos r)

/-- The corrected word is a codeword (41_hamming.md R96). -/
theorem fixBlock_eq_encb (r : Block7) : fixBlock r = encb (dataOf (fixBlock r)) := by
  apply eq_encb_of_synpos_eq_zero
  rw [fixBlock_eq_addBlocks, synpos_addBlocks, synpos_errorAt (synpos_le r), Nat.xor_self]

theorem fixBlock_encb_add (d : Block4) (e : Block7) :
    fixBlock (addBlocks (encb d) e) = addBlocks (encb d) (fixBlock e) := by
  rw [fixBlock_eq_addBlocks, fixBlock_eq_addBlocks, synpos_encb_add, addBlocks_assoc]

theorem decb_encb_add_fst (d : Block4) (e : Block7) :
    (decb (addBlocks (encb d) e)).1 = addData d (dataOf (fixBlock e)) := by
  unfold decb
  rw [fixBlock_encb_add, dataOf_addBlocks, dataOf_encb]

/-- The patterns corrected to no error at all are those the syndrome names. -/
theorem dataOf_fixBlock_eq_zero_iff {e : Block7} : dataOf (fixBlock e) = dataOf zeroBlock ↔ e = errorAt (synpos e) := by
  rw [← addBlocks_eq_zeroBlock_iff, ← fixBlock_eq_addBlocks]
  constructor
  · intro h
    rw [fixBlock_eq_encb, h]
    rfl
  · exact congrArg dataOf

theorem eq_errorAt_synpos_iff {e : Block7} : e = errorAt (synpos e) ↔ weight e.toBits ≤ 1 := by
  constructor
  · intro h
    rw [h]
    exact weight_errorAt_le_one _
  · obtain ⟨e1, e2, e3, e4, e5, e6, e7⟩ := e
    revert e1 e2 e3 e4 e5 e6 e7
    decide

/-- The decoded data are the original data exactly for at most one error (41_hamming.md R106). -/
theorem decb_encb_add_fst_eq_iff {d : Block4} {e : Block7} :
    (decb (addBlocks (encb d) e)).1 = d ↔ weight e.toBits ≤ 1 := by
  rw [decb_encb_add_fst, addData_eq_left_iff, dataOf_fixBlock_eq_zero_iff, eq_errorAt_synpos_iff]

theorem decb_encb_add_errorAt (d : Block4) {p : Nat} (hp : p ≤ 7) :
    decb (addBlocks (encb d) (errorAt p)) = (d, p) := by
  refine Prod.ext (decb_encb_add_fst_eq_iff.2 (weight_errorAt_le_one p)) ?_
  exact (synpos_encb_add d _).trans (synpos_errorAt hp)

theorem distance_fixBlock_le_one (r : Block7) : distance r (fixBlock r) ≤ 1 := by
  unfold distance
  rw [fixBlock_eq_addBlocks, addBlocks_cancel_left]
  exact weight_errorAt_le_one _

theorem eq_dataOf_fixBlock_of_distance_le_one {r : Block7} {c : Block4} (h : distance r (encb c) ≤ 1) :
    c = dataOf (fixBlock r) := by
  have hr : r = addBlocks (encb c) (addBlocks r (encb c)) := by rw [addBlocks_comm r, addBlocks_cancel_left]
  have hdec : (decb (addBlocks (encb c) (addBlocks r (encb c)))).1 = c := decb_encb_add_fst_eq_iff.2 h
  rw [← hr] at hdec
  exact hdec.symm

/-! ### The statements about the code -/

/-- Settles O32, by linearity of both maps; a codeword leaves the syndrome alone, so correction commutes with it. -/
theorem codeIsLinear : Obligations.CodeIsLinear := ⟨encb_addData, syndrome_addBlocks, fixBlock_encb_add⟩

/-- Settles O31: correction adds the word of the named position, so only patterns of that shape are removed. -/
theorem anyErrorPattern : Obligations.AnyErrorPattern := by
  intro d e r
  have hsyn : synpos r = positionXor e := (synpos_encb_add d e).trans (synpos_eq_positionXor e)
  refine ⟨hsyn, congrArg (flipAt r) hsyn, ?_, decb_encb_add_fst_eq_iff⟩
  refine ⟨dataOf (fixBlock r), fixBlock_eq_encb r, ?_, fun c' => eq_dataOf_fixBlock_of_distance_le_one⟩
  rw [← fixBlock_eq_encb]
  exact distance_fixBlock_le_one r

/-- Settles O29, as the patterns `e_0` and `e_p` of a codeword. -/
theorem singleErrorCorrected : Obligations.SingleErrorCorrected := by
  intro d
  constructor
  · simpa using decb_encb_add_errorAt d (Nat.zero_le 7)
  · intro p _ hp
    rw [flipAt_eq_addBlocks]
    exact ⟨(synpos_encb_add d _).trans (synpos_errorAt hp), decb_encb_add_errorAt d hp⟩

/-- Settles O30, as the pattern `e_i + e_j` of a codeword, which has weight 2. -/
theorem doubleErrorMiscorrected : Obligations.DoubleErrorMiscorrected := by
  intro d i j hi hi' hj hj' hij r k
  have hr : r = addBlocks (encb d) (addBlocks (errorAt i) (errorAt j)) := by
    simp only [r, flipAt_eq_addBlocks, addBlocks_assoc]
  have hsyn : synpos r = k := by
    rw [hr, synpos_encb_add, synpos_addBlocks, synpos_errorAt hi', synpos_errorAt hj']
  have hfix : fixBlock r = flipAt r k := congrArg (flipAt r) hsyn
  have hki : k ≠ i := fun h => by
    have : j = 0 := Nat.xor_right_injective (h.trans (Nat.xor_zero i).symm)
    omega
  have hkj : k ≠ j := fun h => by
    have : i = 0 := Nat.xor_left_injective (h.trans (Nat.zero_xor j).symm)
    omega
  have hk : 1 ≤ k := Nat.one_le_iff_ne_zero.2 fun h => hij (Nat.xor_eq_zero_iff.1 h)
  refine ⟨hsyn, hki, hkj, hk, hsyn ▸ synpos_le r, hfix, ⟨_, fixBlock_eq_encb r⟩, ?_, ?_⟩
  · rw [hr, Ne, decb_encb_add_fst_eq_iff, weight_errorAt_add_errorAt hi hi' hj hj' hij]
    decide
  · have hfixPattern : fixBlock (addBlocks (errorAt i) (errorAt j)) = flipAt (flipAt (errorAt i) j) k := by
      rw [fixBlock, ← synpos_encb_add d, ← hr, hsyn, flipAt_eq_addBlocks (errorAt i)]
    rw [hr, decb_encb_add_fst, addData_cancel_left, hfixPattern]
    rfl

end Sys2Proof.Proofs
end

section
/-! PROOFS. HENC and HDEC on vectors (41_hamming.md R101, R103, R105): what a partition into blocks does with the blocks
put together again, the two commands' answers, and the round trip block by block. -/

namespace Sys2Proof.Proofs

open Sys2Proof.Machine

/-! ### Partitions into blocks -/

@[simp] theorem length_toBits_block4 (d : Block4) : d.toBits.length = 4 := rfl

@[simp] theorem length_toBits_block7 (r : Block7) : r.toBits.length = 7 := rfl

theorem exists_block4_append {v : BitVector} (h : 4 ≤ v.length) :
    ∃ (d : Block4) (rest : BitVector), v = d.toBits ++ rest := by
  match v, h with
  | d1 :: d2 :: d3 :: d4 :: rest, _ => exact ⟨⟨d1, d2, d3, d4⟩, rest, rfl⟩

theorem exists_block7_append {v : BitVector} (h : 7 ≤ v.length) :
    ∃ (r : Block7) (rest : BitVector), v = r.toBits ++ rest := by
  match v, h with
  | r1 :: r2 :: r3 :: r4 :: r5 :: r6 :: r7 :: rest, _ => exact ⟨⟨r1, r2, r3, r4, r5, r6, r7⟩, rest, rfl⟩

theorem length_blocks4 (v : BitVector) : (blocks4 v).length = v.length / 4 := by
  induction v using blocks4.induct with
  | case1 d1 d2 d3 d4 rest ih =>
    simp only [blocks4, List.length_cons, ih]
    omega
  | case2 v hshort =>
    have hlt : v.length < 4 := by
      by_contra h
      obtain ⟨d, rest, rfl⟩ := exists_block4_append (not_lt.1 h)
      exact hshort _ _ _ _ _ rfl
    rw [blocks4, Nat.div_eq_of_lt hlt, List.length_nil]
    exact hshort

theorem length_blocks7 (v : BitVector) : (blocks7 v).length = v.length / 7 := by
  induction v using blocks7.induct with
  | case1 r1 r2 r3 r4 r5 r6 r7 rest ih =>
    simp only [blocks7, List.length_cons, ih]
    omega
  | case2 v hshort =>
    have hlt : v.length < 7 := by
      by_contra h
      obtain ⟨r, rest, rfl⟩ := exists_block7_append (not_lt.1 h)
      exact hshort _ _ _ _ _ _ _ _ rfl
    rw [blocks7, Nat.div_eq_of_lt hlt, List.length_nil]
    exact hshort

theorem flatMap_toBits_blocks4 (v : BitVector) (h : v.length % 4 = 0) : (blocks4 v).flatMap Block4.toBits = v := by
  induction v using blocks4.induct with
  | case1 d1 d2 d3 d4 rest ih =>
    have hrest : rest.length % 4 = 0 := by
      simp only [List.length_cons] at h
      omega
    simp [blocks4, Block4.toBits, ih hrest]
  | case2 v hshort =>
    match v, h with
    | [], _ => rfl
    | d1 :: d2 :: d3 :: d4 :: rest, _ => exact absurd rfl (hshort d1 d2 d3 d4 rest)

theorem padTo4_eq (v : BitVector) : padTo4 v = v ++ List.replicate (4 * ceilQuarter v.length - v.length) false := by
  have h : (4 - v.length % 4) % 4 = 4 * ceilQuarter v.length - v.length := by
    unfold ceilQuarter
    omega
  rw [padTo4, h]

theorem le_four_mul_ceilQuarter (n : Nat) : n ≤ 4 * ceilQuarter n := by
  unfold ceilQuarter
  omega

@[simp] theorem length_padTo4 (v : BitVector) : (padTo4 v).length = 4 * ceilQuarter v.length := by
  have h := le_four_mul_ceilQuarter v.length
  simp [padTo4_eq, h]

theorem length_flatMap_encb (ds : List Block4) : (ds.flatMap fun d => (encb d).toBits).length = 7 * ds.length := by
  simp [List.length_flatMap, Nat.mul_comm 7]

theorem length_hammingEncode (v : BitVector) : (hammingEncode v).length = 7 * ceilQuarter v.length := by
  rw [hammingEncode, length_flatMap_encb, length_blocks4, length_padTo4, Nat.mul_div_cancel_left _ (by decide)]

theorem length_hammingDecode (e : BitVector) : (hammingDecode e).length = 4 * (e.length / 7) := by
  simp [hammingDecode, List.length_flatMap, length_blocks7, Nat.mul_comm]

theorem length_hammingPositions (e : BitVector) : (hammingPositions e).length = e.length / 7 := by
  simp [hammingPositions, length_blocks7]

/-! ### The commands -/

@[simp] theorem bufferLength_ofBits (v : BitVector) : (Value.ofBits v).bufferLength = v.length :=
  List.length_map ..

@[simp] theorem bufferLength_positions (ps : List Nat) : (Value.positions ps).bufferLength = ps.length := rfl

theorem exec_henc {s : State} {v : BitVector} (h : s.Fits (7 * ceilQuarter v.length)) :
    exec (.henc v) s = .next (s.answered [.ofBits (hammingEncode v)]) := by
  have hv : s.Fits v.length := State.fits_of_le (by have := le_four_mul_ceilQuarter v.length; omega) h
  have hfit : s.OperandsFit (.henc v) := by simpa [State.OperandsFit, Instr.operands] using hv
  have hfinite : s.OperandsFinite (.henc v) := nofun
  calc exec (.henc v) s = execHenc v s := rfl
    _ = respond s [.ofBits (hammingEncode v)] := accept_of_ok hfit hfinite
    _ = _ := respond_of_fits (by simpa [length_hammingEncode] using h)

theorem exec_hdec {s : State} {e : BitVector} (hlen : e.length % 7 = 0) (h : s.Fits e.length) :
    exec (.hdec e) s = .next (s.answered [.ofBits (hammingDecode e), .positions (hammingPositions e)]) := by
  have hfit : s.OperandsFit (.hdec e) := by simpa [State.OperandsFit, Instr.operands] using h
  have hfinite : s.OperandsFinite (.hdec e) := nofun
  have hdata : s.Fits (hammingDecode e).length := State.fits_of_le (by rw [length_hammingDecode]; omega) h
  have hpositions : s.Fits (hammingPositions e).length := State.fits_of_le (by rw [length_hammingPositions]; omega) h
  calc exec (.hdec e) s = execHdec e s := rfl
    _ = _ := accept_of_ok hfit hfinite
    _ = respond s [.ofBits (hammingDecode e), .positions (hammingPositions e)] := if_neg (not_not.2 hlen)
    _ = _ := respond_of_fits (by simpa using ⟨hdata, hpositions⟩)

/-! ### The round trip -/

theorem flipBits_toBits_append (r e : Block7) (v w : BitVector) :
    flipBits (r.toBits ++ v) (e.toBits ++ w) = (addBlocks r e).toBits ++ flipBits v w := rfl

theorem blockOf_toBits_append_zero (r : Block7) (v : BitVector) : blockOf (r.toBits ++ v) 7 0 = r.toBits := rfl

theorem blockOf_toBits_append_succ (r : Block7) (v : BitVector) (m : Nat) :
    blockOf (r.toBits ++ v) 7 (m + 1) = blockOf v 7 m := by
  unfold blockOf
  rw [Nat.mul_succ, Nat.add_comm, ← length_toBits_block7 r, List.drop_length_add_append]

theorem hammingDecode_toBits_append (r : Block7) (v : BitVector) :
    hammingDecode (r.toBits ++ v) = (decb r).1.toBits ++ hammingDecode v := rfl

/-- Blocks are decoded one by one, and at most one error in each is corrected. -/
theorem hammingDecode_flipBits_encb (ds : List Block4) (errors : BitVector) (hlen : errors.length = 7 * ds.length)
    (herr : ∀ m, m < ds.length → weight (blockOf errors 7 m) ≤ 1) :
    hammingDecode (flipBits (ds.flatMap fun d => (encb d).toBits) errors) = ds.flatMap Block4.toBits := by
  induction ds generalizing errors with
  | nil => rfl
  | cons d ds ih =>
    obtain ⟨e, rest, rfl⟩ : ∃ (e : Block7) (rest : BitVector), errors = e.toBits ++ rest :=
      exists_block7_append (by simp at hlen; omega)
    have hfirst : weight e.toBits ≤ 1 := by
      simpa only [blockOf_toBits_append_zero] using herr 0 (by simp)
    have hrestLen : rest.length = 7 * ds.length := by simp at hlen; omega
    have hrest : ∀ m, m < ds.length → weight (blockOf rest 7 m) ≤ 1 := fun m hm => by
      simpa only [blockOf_toBits_append_succ] using herr (m + 1) (by simpa using hm)
    rw [List.flatMap_cons, List.flatMap_cons, flipBits_toBits_append, hammingDecode_toBits_append,
      decb_encb_add_fst_eq_iff.2 hfirst, ih rest hrestLen hrest]

theorem hammingDecode_flipBits_hammingEncode {v errors : BitVector} (hlen : errors.length = 7 * ceilQuarter v.length)
    (herr : ∀ m, m < ceilQuarter v.length → weight (blockOf errors 7 m) ≤ 1) :
    hammingDecode (flipBits (hammingEncode v) errors) = padTo4 v := by
  have hblocks : (blocks4 (padTo4 v)).length = ceilQuarter v.length := by simp [length_blocks4]
  rw [← hblocks] at hlen herr
  exact (hammingDecode_flipBits_encb _ errors hlen herr).trans (flatMap_toBits_blocks4 _ (by simp))

/-- Settles O33, block by block, each by the single-error correction of the code. -/
theorem hammingRoundTrip : Obligations.HammingRoundTrip := by
  intro s v errors hfits hlen herr
  have hflip : (flipBits (hammingEncode v) errors).length = 7 * ceilQuarter v.length := by
    simp [flipBits, length_hammingEncode, hlen]
  refine ⟨_, _, _, exec_henc hfits, exec_hdec (by simp [hflip]) (hflip ▸ hfits), ?_⟩
  rw [hammingDecode_flipBits_hammingEncode hlen herr, padTo4_eq]

end Sys2Proof.Proofs
end

section
/-! PROOFS. The reset of the carrier recovery loop (43_pll.md R142). -/

namespace Sys2Proof.Proofs

open Sys2Proof.Machine

/-- PLLRST has no operand to refuse and no result that could be too long, so it acts in every state. -/
theorem exec_pllrst (s : State) : exec .pllrst s = .next ((s.withPll ⟨.zero, .zero, .zero⟩).answered []) := by
  have hfit : s.OperandsFit .pllrst := nofun
  have hfinite : s.OperandsFinite .pllrst := nofun
  calc exec .pllrst s = execPllrst s := rfl
    _ = respond (s.withPll ⟨.zero, .zero, .zero⟩) [] := accept_of_ok hfit hfinite
    _ = _ := respond_of_fits nofun

/-- Settles O39, by the equation of PLLRST. -/
theorem loopReset : Obligations.LoopReset := ⟨rfl, exec_pllrst⟩

end Sys2Proof.Proofs
end

section
/-! PROOFS. The decoder (30_encoding.md R70 to R76): what each operand form accepts, which decoder a code selects, and
the first fault of an operand list. -/

namespace Sys2Proof.Proofs

open Sys2Proof.Machine

/-! ### Operand forms -/

@[simp] theorem digitBit_digit (b : Bit) : digitBit b.digit = some b := by
  cases b <;> rfl

@[simp] theorem digitBits_digits (v : BitVector) : digitBits v.digits = some v := by
  induction v with
  | nil => rfl
  | cons b bs ih =>
    rw [BitVector.digits] at ih ⊢
    rw [List.map_cons, digitBits, digitBit_digit, ih]
    rfl

@[simp] theorem toBits_ofBits (v : BitVector) : (Value.ofBits v).toBits = .ok v := by
  rw [Value.ofBits, Value.toBits, digitBits_digits]

@[simp] theorem toNat_ofNat (M : Numerics) (n : Nat) : (Value.ofNat n).toNat M = .ok n := by
  rw [Value.ofNat, Value.toNat, Numerics.nat?_ofNat]

@[simp] theorem toReal_scalar (x : RealExpr) : (Value.scalar x).toReal = .ok x := rfl
@[simp] theorem toReals_reals (xs : List RealExpr) : (Value.reals xs).toReals = .ok xs := rfl
@[simp] theorem toSample_sample (z : Cplx) : (Value.sample z).toSample = .ok z := rfl

theorem toStream_stream {w : Stream} (h : w.wellFormed = true) : (Value.stream w).toStream = .ok w := if_pos h

theorem wellFormed_of_toStream {v : Value} {w : Stream} (h : v.toStream = .ok w) : w.wellFormed = true := by
  cases v with
  | stream w' =>
    rw [Value.toStream] at h
    split_ifs at h with hw
    cases h
    exact hw
  | _ => cases h

@[simp] theorem ok_bind {α β : Type} (a : α) (f : α → Except DecodeError β) : (Except.ok a >>= f) = f a := rfl

@[simp] theorem pure_eq_ok {α : Type} (a : α) : (pure a : Except DecodeError α) = .ok a := rfl

/-- A decoding step that succeeds took a value from its operand. -/
theorem bind_eq_ok {α β : Type} {r : Except DecodeError α} {f : α → Except DecodeError β} {b : β} :
    (r >>= f) = .ok b ↔ ∃ a, r = .ok a ∧ f a = .ok b := by
  cases r with
  | ok a => exact ⟨fun h => ⟨a, rfl, h⟩, fun ⟨_, ha, h⟩ => by cases ha; exact h⟩
  | error e => exact ⟨nofun, nofun⟩

/-! ### The decoder of each code -/

/-- The decoder of the operand list that the code of an instruction selects (30_encoding.md R73). -/
def operandDecoder (M : Numerics) : Instr → List Value → Except DecodeError Instr
  | .henc _ => decodeBits .henc
  | .hdec _ => decodeBits .hdec
  | .hencb _ => decodeBits .hencb
  | .hdecb _ => decodeBits .hdecb
  | .qmod _ _ _ _ => decodeQmod M
  | .qdem _ _ _ _ _ => decodeQdem M
  | .pllrun _ _ _ => decodePllrun
  | .plladv _ _ _ => decodePlladv
  | .pllrst => decodePllrst
  | .agc _ _ => decodeStreamReal .agc
  | .lpf _ _ _ _ => decodeLpf M
  | .lpfcfg _ _ _ => decodeLpfcfg M
  | .lpfadv _ => decodeLpfadv
  | .awgn _ _ => decodeStreamReal .awgn
  | .rngseed _ => decodeRngseed M
  | .bersweep _ _ _ _ _ _ => decodeBersweep M
  | .bercmp _ _ => decodeBercmp

theorem decode_opcode (M : Numerics) (i : Instr) (vs : List Value) :
    decode M ⟨i.opcode, vs⟩ = operandDecoder M i vs := by
  cases i <;> simp [decode, Instr.opcode, opUnit, opFn, operandDecoder]

/-- Every operand of a well-formed instruction is taken back as it was written. -/
theorem operandDecoder_operands (M : Numerics) {i : Instr} (h : i.wellFormed = true) :
    operandDecoder M i i.operands = .ok i := by
  cases i with
  | qdem | pllrun | agc | lpf | awgn =>
    simp [operandDecoder, decodeStreamReal, decodeQdem, decodePllrun, decodeLpf, Instr.operands, toStream_stream h]
  | plladv | pllrst | lpfadv => rfl
  | _ =>
    simp [operandDecoder, decodeBits, decodeQmod, decodeLpfcfg, decodeRngseed, decodeBersweep, decodeBercmp,
      Instr.operands]

/-- Settles O1, operand by operand. -/
theorem decodeEncode : Obligations.DecodeEncode := by
  intro M i h
  rw [encode, decode_opcode]
  exact operandDecoder_operands M h

/-- A code is its two fields (30_encoding.md R72). -/
theorem opcode_eq_of_fields {op : BitVec 8} {u f : Nat} (hu : (opUnit op).toNat = u) (hf : (opFn op).toNat = f) :
    op = BitVec.ofNat 8 (16 * u + f) := by
  subst hu hf
  apply BitVec.eq_of_toNat_eq
  simp [opUnit, opFn]
  omega

/-- The operand types of an instruction (30_encoding.md R74). -/
def operandTypes : Instr → List OperandType
  | .henc _ | .hdec _ | .hencb _ | .hdecb _ => [.bitVector]
  | .qmod _ _ _ _ => [.bitVector, .real, .real, .natural]
  | .qdem _ _ _ _ _ => [.stream, .realVector, .realVector, .natural, .natural]
  | .pllrun _ _ _ => [.stream, .real, .real]
  | .plladv _ _ _ => [.sample, .real, .real]
  | .pllrst => []
  | .agc _ _ | .awgn _ _ => [.stream, .real]
  | .lpf _ _ _ _ => [.stream, .real, .real, .natural]
  | .lpfcfg _ _ _ => [.real, .real, .natural]
  | .lpfadv _ => [.sample]
  | .rngseed _ => [.natural]
  | .bersweep _ _ _ _ _ _ => [.bitVector, .bitVector, .realVector, .real, .real, .natural]
  | .bercmp _ _ => [.bitVector, .bitVector]

/-- The table's rows, each by an instruction of its code. -/
theorem operandTable_eq : operandTable =
    ([.henc [], .hdec [], .hencb [], .hdecb [], .qmod [] .zero .zero 0, .qdem ⟨.real, []⟩ [] [] 0 0,
      .pllrun ⟨.real, []⟩ .zero .zero, .plladv .zero .zero .zero, .pllrst, .agc ⟨.real, []⟩ .zero,
      .lpf ⟨.real, []⟩ .zero .zero 0, .lpfcfg .zero .zero 0, .lpfadv .zero, .awgn ⟨.real, []⟩ .zero, .rngseed 0,
      .bersweep [] [] [] .zero .zero 0, .bercmp [] []] : List Instr).map fun i => (i.opcode, operandTypes i) := rfl

theorem exists_instr_of_mem_operandTable {row : BitVec 8 × List OperandType} (h : row ∈ operandTable) :
    ∃ i : Instr, i.opcode = row.1 ∧ operandTypes i = row.2 := by
  rw [operandTable_eq, List.mem_map] at h
  obtain ⟨i, -, rfl⟩ := h
  exact ⟨i, rfl, rfl⟩

theorem tableCodes_eq : tableCodes = operandTable.map Prod.fst := rfl

theorem mem_tableCodes_iff {op : BitVec 8} : op ∈ tableCodes ↔ ∃ i : Instr, i.opcode = op := by
  constructor
  · intro h
    rw [tableCodes_eq, List.mem_map] at h
    obtain ⟨row, hrow, rfl⟩ := h
    obtain ⟨i, hi, -⟩ := exists_instr_of_mem_operandTable hrow
    exact ⟨i, hi⟩
  · rintro ⟨i, rfl⟩
    cases i <;> simp [Instr.opcode, tableCodes]

/-- A code of the table selects the decoder of its row, and every other code is reserved. -/
theorem decode_cases (M : Numerics) (c : Command) :
    (∃ i : Instr, i.opcode = c.op ∧ decode M c = operandDecoder M i c.operands) ∨
      (c.op ∉ tableCodes ∧ decode M c = .error .reservedCode) := by
  by_cases h : c.op ∈ tableCodes
  · obtain ⟨i, hi⟩ := mem_tableCodes_iff.1 h
    refine .inl ⟨i, hi, ?_⟩
    rw [← decode_opcode, hi]
  · refine .inr ⟨h, ?_⟩
    unfold decode
    split
    case h_18 => rfl
    all_goals
      next hu hf =>
      rw [opcode_eq_of_fields hu hf] at h
      exact absurd (by decide) h

/-- What a decoder makes of its operands is well formed, of its code and of their number: its pattern gives the number,
and its stream, if it has one, has passed the test of imaginary parts. -/
theorem of_operandDecoder_eq_ok {M : Numerics} {j i : Instr} {vs : List Value} (h : operandDecoder M j vs = .ok i) :
    i.wellFormed = true ∧ i.opcode = j.opcode ∧ i.operands.length = vs.length := by
  cases j with
  | qdem | pllrun | agc | lpf | awgn =>
    simp only [operandDecoder, decodeStreamReal, decodeQdem, decodePllrun, decodeLpf] at h
    split at h
    · obtain ⟨w, hw, h⟩ := bind_eq_ok.1 h
      repeat obtain ⟨_, -, h⟩ := bind_eq_ok.1 h
      cases h
      exact ⟨wellFormed_of_toStream hw, rfl, rfl⟩
    · cases h
  | _ =>
    simp only [operandDecoder, decodeBits, decodeQmod, decodePlladv, decodePllrst, decodeLpfcfg, decodeLpfadv,
      decodeRngseed, decodeBersweep, decodeBercmp] at h
    split at h
    · repeat obtain ⟨_, -, h⟩ := bind_eq_ok.1 h
      cases h
      exact ⟨rfl, rfl, rfl⟩
    · cases h

/-- Settles O2, by the decoder that the code selects. -/
theorem decodedIsOfTheCommand : Obligations.DecodedIsOfTheCommand := by
  intro M c i h
  obtain ⟨j, hj, hdec⟩ | ⟨_, hdec⟩ := decode_cases M c
  · obtain ⟨hwf, hop, hlen⟩ := of_operandDecoder_eq_ok (hdec.symm.trans h)
    exact ⟨hwf, hop.trans hj, hlen⟩
  · rw [hdec] at h
    cases h

/-- Settles O3: a code outside the table is the code of no row. -/
theorem reservedCodesRejected : Obligations.ReservedCodesRejected := by
  refine ⟨fun M op vs hop => ?_, by decide +kernel⟩
  obtain ⟨i, hi, _⟩ | ⟨_, h⟩ := decode_cases M ⟨op, vs⟩
  · exact absurd (mem_tableCodes_iff.2 ⟨i, hi⟩) hop
  · exact h

/-- Settles O4: each decoder has one pattern, of the length of its row, and rejects every other list. -/
theorem operandCountChecked : Obligations.OperandCountChecked := by
  intro M i vs h
  rw [decode_opcode]
  cases i
  all_goals
    simp only [operandDecoder, decodeBits, decodeStreamReal, decodeQmod, decodeQdem, decodePllrun, decodePlladv,
      decodePllrst, decodeLpf, decodeLpfcfg, decodeLpfadv, decodeRngseed, decodeBersweep, decodeBercmp]
    split
    · exact absurd rfl h
    · rfl

/-! ### The first fault -/

/-- The name under which a decoding was rejected, if it was. -/
def faultOf {α : Type} : Except DecodeError α → Option DecodeError
  | .ok _ => none
  | .error e => some e

open Classical in
/-- The name under which a value is rejected where one of the type is expected, if it is not one. -/
noncomputable def typeFault (M : Numerics) (ty : OperandType) (v : Value) : Option DecodeError :=
  if v.Has M ty then none else some (v.rejection ty)

/-- The first fault of an operand list. -/
noncomputable def firstFault (M : Numerics) : List OperandType → List Value → Option DecodeError
  | ty :: tys, v :: vs => (typeFault M ty v).or (firstFault M tys vs)
  | _, _ => none

theorem faultOf_eq_none {α : Type} {r : Except DecodeError α} : faultOf r = none ↔ ∃ a, r = .ok a := by
  cases r <;> simp [faultOf]

theorem faultOf_eq_some {α : Type} {r : Except DecodeError α} {e : DecodeError} : faultOf r = some e ↔ r = .error e := by
  cases r <;> simp [faultOf]

theorem faultOf_bind {α β : Type} {r : Except DecodeError α} {f : α → Except DecodeError β} {k : Option DecodeError}
    (h : ∀ a, faultOf (f a) = k) : faultOf (r >>= f) = (faultOf r).or k := by
  cases r with
  | ok a => exact h a
  | error e => rfl

theorem typeFault_of_has {M : Numerics} {ty : OperandType} {v : Value} (h : v.Has M ty) : typeFault M ty v = none :=
  if_pos h

theorem typeFault_of_not_has {M : Numerics} {ty : OperandType} {v : Value} (h : ¬v.Has M ty) :
    typeFault M ty v = some (v.rejection ty) := if_neg h

theorem faultOf_eq_typeFault {α : Type} {M : Numerics} {ty : OperandType} {v : Value} {r : Except DecodeError α}
    (hok : v.Has M ty → ∃ a, r = .ok a) (herr : ¬v.Has M ty → r = .error (v.rejection ty)) :
    faultOf r = typeFault M ty v := by
  by_cases h : v.Has M ty
  · rw [typeFault_of_has h, faultOf_eq_none]
    exact hok h
  · rw [typeFault_of_not_has h, faultOf_eq_some]
    exact herr h

theorem digitBit_eq_none_iff {d : Nat} : digitBit d = none ↔ ¬d < 2 := by
  unfold digitBit
  split_ifs <;> simp <;> omega

theorem digitBits_eq_none_iff (ds : List Nat) : digitBits ds = none ↔ ¬∀ d ∈ ds, d < 2 := by
  induction ds with
  | nil => simp [digitBits]
  | cons d ds ih =>
    by_cases hd : d < 2
    · obtain ⟨b, hb⟩ := Option.ne_none_iff_exists'.1 (mt digitBit_eq_none_iff.1 (not_not.2 hd))
      rw [digitBits, hb, Option.bind_some, Option.map_eq_none_iff, ih, List.forall_mem_cons]
      simp only [hd, true_and]
    · rw [digitBits, digitBit_eq_none_iff.2 hd, List.forall_mem_cons]
      simp only [hd, Option.bind_none, false_and, not_false_eq_true]

theorem faultOf_toBits (M : Numerics) (v : Value) : faultOf v.toBits = typeFault M .bitVector v := by
  cases v with
  | bits ds =>
    refine faultOf_eq_typeFault (fun h => ?_) fun h => ?_
    · obtain ⟨b, hb⟩ := Option.ne_none_iff_exists'.1 (mt (digitBits_eq_none_iff ds).1 (not_not.2 h))
      exact ⟨b, by rw [Value.toBits, hb]⟩
    · rw [Value.toBits, (digitBits_eq_none_iff ds).2 h]
      rfl
  | _ => exact faultOf_eq_typeFault nofun fun _ => rfl

theorem faultOf_toStream (M : Numerics) (v : Value) : faultOf v.toStream = typeFault M .stream v := by
  cases v with
  | stream w =>
    exact faultOf_eq_typeFault (fun h => ⟨w, if_pos (Stream.wellFormed_iff.2 h)⟩)
      fun h => if_neg (mt Stream.wellFormed_iff.1 h)
  | _ => exact faultOf_eq_typeFault nofun fun _ => rfl

theorem faultOf_toReals (M : Numerics) (v : Value) : faultOf v.toReals = typeFault M .realVector v := by
  cases v with
  | reals xs => exact faultOf_eq_typeFault (fun _ => ⟨xs, rfl⟩) fun h => absurd trivial h
  | _ => exact faultOf_eq_typeFault nofun fun _ => rfl

theorem faultOf_toReal (M : Numerics) (v : Value) : faultOf v.toReal = typeFault M .real v := by
  cases v with
  | scalar x => exact faultOf_eq_typeFault (fun _ => ⟨x, rfl⟩) fun h => absurd trivial h
  | _ => exact faultOf_eq_typeFault nofun fun _ => rfl

theorem faultOf_toNat (M : Numerics) (v : Value) : faultOf (v.toNat M) = typeFault M .natural v := by
  cases v with
  | scalar x =>
    refine faultOf_eq_typeFault (fun h => ?_) fun h => ?_
    · obtain ⟨n, hn⟩ := h
      exact ⟨n, by rw [Value.toNat, Numerics.nat?_eq_some.2 hn]⟩
    · rw [Value.toNat, Numerics.nat?_eq_none.2 h]
      rfl
  | _ => exact faultOf_eq_typeFault nofun fun _ => rfl

theorem faultOf_toSample (M : Numerics) (v : Value) : faultOf v.toSample = typeFault M .sample v := by
  cases v with
  | scalar x => exact faultOf_eq_typeFault (fun _ => ⟨Cplx.ofReal x, rfl⟩) fun h => absurd trivial h
  | sample z => exact faultOf_eq_typeFault (fun _ => ⟨z, rfl⟩) fun h => absurd trivial h
  | _ => exact faultOf_eq_typeFault nofun fun _ => rfl

/-- Each decoder stops at the first fault of its operands. -/
theorem faultOf_operandDecoder (M : Numerics) (i : Instr) (vs : List Value) (h : vs.length = (operandTypes i).length) :
    faultOf (operandDecoder M i vs) = firstFault M (operandTypes i) vs := by
  cases i with
  | pllrst =>
    match vs, h with
    | [], _ => rfl
  | henc | hdec | hencb | hdecb | lpfadv | rngseed =>
    match vs, h with
    | [_], _ =>
      simp only [operandTypes, firstFault, ← faultOf_toBits, ← faultOf_toSample, ← faultOf_toNat]
      exact faultOf_bind fun _ => rfl
  | agc | awgn | bercmp =>
    match vs, h with
    | [_, _], _ =>
      simp only [operandTypes, firstFault, ← faultOf_toBits, ← faultOf_toStream, ← faultOf_toReal]
      exact faultOf_bind fun _ => faultOf_bind fun _ => rfl
  | pllrun | plladv | lpfcfg =>
    match vs, h with
    | [_, _, _], _ =>
      simp only [operandTypes, firstFault, ← faultOf_toStream, ← faultOf_toSample, ← faultOf_toReal, ← faultOf_toNat]
      exact faultOf_bind fun _ => faultOf_bind fun _ => faultOf_bind fun _ => rfl
  | qmod | lpf =>
    match vs, h with
    | [_, _, _, _], _ =>
      simp only [operandTypes, firstFault, ← faultOf_toBits, ← faultOf_toStream, ← faultOf_toReal, ← faultOf_toNat]
      exact faultOf_bind fun _ => faultOf_bind fun _ => faultOf_bind fun _ => faultOf_bind fun _ => rfl
  | qdem =>
    match vs, h with
    | [_, _, _, _, _], _ =>
      simp only [operandTypes, firstFault, ← faultOf_toStream, ← faultOf_toReals, ← faultOf_toNat]
      exact faultOf_bind fun _ => faultOf_bind fun _ => faultOf_bind fun _ => faultOf_bind fun _ =>
        faultOf_bind fun _ => rfl
  | bersweep =>
    match vs, h with
    | [_, _, _, _, _, _], _ =>
      simp only [operandTypes, firstFault, ← faultOf_toBits, ← faultOf_toReals, ← faultOf_toReal, ← faultOf_toNat]
      exact faultOf_bind fun _ => faultOf_bind fun _ => faultOf_bind fun _ => faultOf_bind fun _ =>
        faultOf_bind fun _ => faultOf_bind fun _ => rfl

theorem firstFault_eq_none {M : Numerics} : ∀ {tys : List OperandType} {vs : List Value},
    (∀ (k : Nat) (v : Value) (ty : OperandType), vs[k]? = some v → tys[k]? = some ty → v.Has M ty) →
      firstFault M tys vs = none
  | [], _, _ => rfl
  | _ :: _, [], _ => rfl
  | ty :: tys, v :: vs, h => by
    rw [firstFault, typeFault_of_has (h 0 v ty rfl rfl), Option.none_or]
    exact firstFault_eq_none fun k v' ty' hv hty => h (k + 1) v' ty' hv hty

theorem firstFault_eq_some {M : Numerics} : ∀ {tys : List OperandType} {vs : List Value} {k : Nat} {v : Value}
    {ty : OperandType}, vs[k]? = some v → tys[k]? = some ty → ¬v.Has M ty →
    (∀ (j : Nat) (v' : Value) (ty' : OperandType), j < k → vs[j]? = some v' → tys[j]? = some ty' → v'.Has M ty') →
      firstFault M tys vs = some (v.rejection ty)
  | [], _, _, _, _, _, hty, _, _ => by cases hty
  | _ :: _, [], _, _, _, hv, _, _, _ => by cases hv
  | _ :: _, _ :: _, 0, _, _, hv, hty, hnot, _ => by
    cases hv
    cases hty
    rw [firstFault, typeFault_of_not_has hnot, Option.some_or]
  | ty₀ :: tys, v₀ :: vs, k + 1, v, ty, hv, hty, hnot, hbefore => by
    rw [firstFault, typeFault_of_has (hbefore 0 v₀ ty₀ k.succ_pos rfl rfl), Option.none_or]
    exact firstFault_eq_some hv hty hnot fun j v' ty' hj => hbefore (j + 1) v' ty' (Nat.succ_lt_succ hj)

/-- Settles O5: a decoder answers with the first fault of its operands, and decodes them where there is none. -/
theorem operandTypesChecked : Obligations.OperandTypesChecked := by
  intro M row hrow vs hlen
  obtain ⟨i, hop, htys⟩ := exists_instr_of_mem_operandTable hrow
  have hfault : faultOf (decode M ⟨row.1, vs⟩) = firstFault M row.2 vs := by
    rw [← hop, ← htys, decode_opcode]
    exact faultOf_operandDecoder M i vs (htys ▸ hlen)
  refine ⟨fun hall => ?_, fun k v ty hv hty hnot hbefore => ?_⟩
  · rw [← faultOf_eq_none, hfault]
    exact firstFault_eq_none hall
  · rw [← faultOf_eq_some, hfault]
    exact firstFault_eq_some hv hty hnot hbefore

/-- Settles O6, by evaluation: the words are fixed. -/
theorem tableWordsDecode : Obligations.TableWordsDecode := by
  unfold Obligations.TableWordsDecode
  decide +kernel

end Sys2Proof.Proofs
end

section
/-! PROOFS. What every instruction can do, said once: a refusal for its operands, an error for its cause, or its results
from the state it writes. The statements about errors, refusals and register groups follow (60_exceptions.md R230 to
R240; 10_state.md R29 to R35). -/

namespace Sys2Proof.Proofs

open Sys2Proof.Machine

/-! ### Buffer lengths of values -/

@[simp] theorem bufferLength_stream (w : Stream) : (Value.stream w).bufferLength = w.samples.length := rfl
@[simp] theorem bufferLength_reals (xs : List RealExpr) : (Value.reals xs).bufferLength = xs.length := rfl
@[simp] theorem bufferLength_points (ps : List (Int × Int)) : (Value.points ps).bufferLength = ps.length := rfl
@[simp] theorem bufferLength_curve (cs : List (RealExpr × ℚ)) : (Value.curve cs).bufferLength = cs.length := rfl
@[simp] theorem bufferLength_scalar (x : RealExpr) : (Value.scalar x).bufferLength = 0 := rfl
@[simp] theorem bufferLength_ofNat (n : Nat) : (Value.ofNat n).bufferLength = 0 := rfl
@[simp] theorem bufferLength_sample (z : Cplx) : (Value.sample z).bufferLength = 0 := rfl

/-! ### The one shape of all meanings -/

/-- The registers an instruction leaves where it completes. -/
def writtenState : Instr → State → State
  | .pllrun w fs lbw, s => s.withPll (pllLoop s.arith fs lbw w.samples s.pll).2
  | .plladv x fs lbw, s => s.withPll (pllNext s.arith x fs lbw s.pll)
  | .pllrst, s => s.withPll ⟨.zero, .zero, .zero⟩
  | .lpf w c fs n, s => s.withLpf (filterLoop s.arith w.samples (designFilter s.arith c fs n)).2
  | .lpfcfg c fs n, s => s.withLpf (designFilter s.arith c fs n)
  | .lpfadv x, s => s.withLpf (filterNext s.arith s.lpf x)
  | .awgn w _, s => s.withCount (s.rng.count + drawsFor w)
  | .rngseed n, s => s.withRng ⟨n, 0⟩
  | .bersweep e _ snrs Tb fc N, s =>
    s.withCount (s.rng.count + snrs.length * drawsFor (modulate s.arith e Tb fc N))
  | .henc _, s | .hdec _, s | .hencb _, s | .hdecb _, s | .qmod _ _ _ _, s | .qdem _ _ _ _ _, s | .agc _ _, s
  | .bercmp _ _, s => s

/-- The results of HENCB: of a block its codeword. -/
def blockEncoding : BitVector → List Value
  | [d1, d2, d3, d4] => [.ofBits (encb ⟨d1, d2, d3, d4⟩).toBits]
  | _ => []

/-- The results of HDECB: of a block its data and position. -/
def blockDecoding : BitVector → List Value
  | [r1, r2, r3, r4, r5, r6, r7] =>
    [.ofBits (decb ⟨r1, r2, r3, r4, r5, r6, r7⟩).1.toBits, .ofNat (decb ⟨r1, r2, r3, r4, r5, r6, r7⟩).2]
  | _ => []

/-- The results of AGC: a nonempty signal scaled by the target over its peak. -/
def gainAnswer (M : Numerics) (kind : Kind) (target : RealExpr) : List Cplx → List Value
  | [] => []
  | z :: zs => [.stream (.make kind ((z :: zs).map (M.cscale (M.div target (peak M z zs)))))]

/-- The results of an instruction where it completes. -/
def answersOf : Instr → State → List Value
  | .henc v, _ => [.ofBits (hammingEncode v)]
  | .hdec e, _ => [.ofBits (hammingDecode e), .positions (hammingPositions e)]
  | .hencb d, _ => blockEncoding d
  | .hdecb r, _ => blockDecoding r
  | .qmod e Tb fc N, s =>
    [.stream (modulate s.arith e Tb fc N), .reals (timeAxis s.arith (e.length / 2) Tb N), .points (constellation e)]
  | .qdem w rc rs nb N, s => [.ofBits (demodulate s.arith w.samples rc rs N (nb / 2))]
  | .pllrun w fs lbw, s =>
    [.stream (.make .cplx (pllLoop s.arith fs lbw w.samples s.pll).1),
      .scalar (pllLoop s.arith fs lbw w.samples s.pll).2.freq]
  | .plladv x fs lbw, s =>
    [.sample (pllOutput s.arith x fs lbw s.pll), .scalar (pllNext s.arith x fs lbw s.pll).freq]
  | .agc w target, s => gainAnswer s.arith w.kind target w.samples
  | .lpf w c fs n, s => [.stream (.make w.kind (filterLoop s.arith w.samples (designFilter s.arith c fs n)).1)]
  | .lpfadv x, s => [.sample (filterOutput s.arith s.lpf x)]
  | .awgn w x, s => [.stream (addNoise s.arith w x s.rng.seed s.rng.count)]
  | .bersweep e o snrs Tb fc N, s =>
    [.curve (sweepCurve s.arith (modulate s.arith e Tb fc N) (matchingCos s.arith Tb fc N) (matchingSin s.arith Tb fc N)
      N e.length o s.rng.seed s.rng.count snrs)]
  | .bercmp o d, _ => [.ofNat (bitErrors o d), .scalar (.rat (bitErrorRate o d))]
  | .pllrst, _ | .lpfcfg _ _ _, _ | .rngseed _, _ => []

/-- What an accepted instruction does: its domain is checked before its errors (60_exceptions.md R236, R239). -/
def outcomeOf (i : Instr) (s : State) : StepResult :=
  match parameterRefusal i s with
  | some r => .refused r
  | none =>
    match formatCause i with
    | some n => .next (s.failed .formatError n)
    | none =>
      match degenerateCause i s with
      | some n => .next (s.failed .degenerateSignalError n)
      | none => respond (writtenState i s) (answersOf i s)

/-- Every meaning checks its operands and then has the outcome above. -/
theorem exec_eq_accept (i : Instr) (s : State) : exec i s = accept s i (outcomeOf i s) := by
  cases i with
  | henc | pllrst | awgn | rngseed => rfl
  | hencb d =>
    refine congrArg (accept s _) ?_
    split
    · rfl
    · next hshape =>
      have hlen : d.length ≠ 4 := fun h => by
        match d, h with
        | [d1, d2, d3, d4], _ => exact hshape d1 d2 d3 d4 rfl
      simp only [outcomeOf, parameterRefusal, formatCause, if_pos hlen, raise_eq]
  | hdecb r =>
    refine congrArg (accept s _) ?_
    split
    · rfl
    · next hshape =>
      have hlen : r.length ≠ 7 := fun h => by
        match r, h with
        | [r1, r2, r3, r4, r5, r6, r7], _ => exact hshape r1 r2 r3 r4 r5 r6 r7 rfl
      simp only [outcomeOf, parameterRefusal, formatCause, if_pos hlen, raise_eq]
  | agc w target =>
    obtain ⟨kind, _ | ⟨z, zs⟩⟩ := w
    · rfl
    · refine congrArg (accept s _) ?_
      simp only [outcomeOf, parameterRefusal, formatCause, degenerateCause]
      split_ifs <;> rfl
  | hdec | bercmp =>
    refine congrArg (accept s _) ?_
    simp only [outcomeOf, parameterRefusal, formatCause, degenerateCause]
    split_ifs <;> rfl
  | qmod | pllrun | plladv | lpf | lpfcfg | lpfadv | bersweep =>
    refine congrArg (accept s _) ?_
    simp only [outcomeOf, parameterRefusal, formatCause, degenerateCause, ← Bool.not_eq_true]
    split_ifs <;> rfl
  | qdem w rc rs nb N =>
    refine congrArg (accept s _) ?_
    have hN : N = 0 ↔ ¬1 ≤ N := by omega
    simp only [outcomeOf, parameterRefusal, formatCause, degenerateCause, hN]
    split_ifs <;> rfl

/-! ### The cases of a meaning, in the order of its checks -/

theorem domainRefusal_eq_none_iff {i : Instr} {s : State} :
    domainRefusal i s = none ↔ s.OperandsFinite i ∧ parameterRefusal i s = none := by
  rw [State.operandsFinite_iff, domainRefusal]
  split_ifs with h <;> simp [h]

/-- The two errors are errors of different commands (60_exceptions.md R231, R232). -/
theorem formatCause_eq_none_of_degenerateCause {i : Instr} {s : State} {n : ErrorInfo}
    (h : degenerateCause i s = some n) : formatCause i = none := by
  cases i with
  | agc => rfl
  | _ => cases h

theorem exec_of_not_fits {i : Instr} {s : State} (h : ¬s.OperandsFit i) : exec i s = .refused .overMaxLen := by
  rw [exec_eq_accept, accept_of_not_fits h]

theorem exec_of_domainRefusal {i : Instr} {s : State} {r : Refusal} (hfit : s.OperandsFit i)
    (h : domainRefusal i s = some r) : exec i s = .refused r := by
  rw [exec_eq_accept]
  by_cases hfinite : s.OperandsFinite i
  · rw [domainRefusal, if_pos (State.operandsFinite_iff.1 hfinite)] at h
    rw [accept_of_ok hfit hfinite, outcomeOf, h]
  · rw [domainRefusal, if_neg (mt State.operandsFinite_iff.2 hfinite)] at h
    cases h
    exact accept_of_not_finite hfit hfinite

theorem exec_of_formatCause {i : Instr} {s : State} {n : ErrorInfo} (hfit : s.OperandsFit i)
    (hdomain : domainRefusal i s = none) (h : formatCause i = some n) :
    exec i s = .next (s.failed .formatError n) := by
  obtain ⟨hfinite, hparameter⟩ := domainRefusal_eq_none_iff.1 hdomain
  rw [exec_eq_accept, accept_of_ok hfit hfinite, outcomeOf, hparameter, h]

theorem exec_of_degenerateCause {i : Instr} {s : State} {n : ErrorInfo} (hfit : s.OperandsFit i)
    (hdomain : domainRefusal i s = none) (h : degenerateCause i s = some n) :
    exec i s = .next (s.failed .degenerateSignalError n) := by
  obtain ⟨hfinite, hparameter⟩ := domainRefusal_eq_none_iff.1 hdomain
  rw [exec_eq_accept, accept_of_ok hfit hfinite, outcomeOf, hparameter, formatCause_eq_none_of_degenerateCause h, h]

theorem exec_of_no_cause {i : Instr} {s : State} (hfit : s.OperandsFit i) (hdomain : domainRefusal i s = none)
    (hformat : formatCause i = none) (hdegenerate : degenerateCause i s = none) :
    exec i s = respond (writtenState i s) (answersOf i s) := by
  obtain ⟨hfinite, hparameter⟩ := domainRefusal_eq_none_iff.1 hdomain
  rw [exec_eq_accept, accept_of_ok hfit hfinite, outcomeOf, hparameter, hformat, hdegenerate]

/-- The conditions under which an instruction completes, its results' lengths apart. -/
structure Completes (i : Instr) (s : State) : Prop where
  fits : s.OperandsFit i
  domain : domainRefusal i s = none
  format : formatCause i = none
  degenerate : degenerateCause i s = none

theorem Completes.exec_eq {i : Instr} {s : State} (h : Completes i s) :
    exec i s = respond (writtenState i s) (answersOf i s) :=
  exec_of_no_cause h.fits h.domain h.format h.degenerate

/-! ### The registers written -/

@[simp] theorem writtenState_host (i : Instr) (s : State) : (writtenState i s).host = s.host := by
  cases i <;> rfl

@[simp] theorem writtenState_maxLen (i : Instr) (s : State) : (writtenState i s).maxLen = s.maxLen := by
  cases i <;> rfl

@[simp] theorem writtenState_num (i : Instr) (s : State) : (writtenState i s).num = s.num := by
  cases i <;> rfl

@[simp] theorem fits_writtenState {i : Instr} {s : State} {n : Nat} : (writtenState i s).Fits n ↔ s.Fits n := by
  unfold State.Fits
  rw [writtenState_maxLen]

theorem writtenState_pll {i : Instr} (h : writesPll i = false) (s : State) : (writtenState i s).pll = s.pll := by
  cases i with
  | pllrst | plladv | pllrun => cases h
  | _ => rfl

theorem writtenState_lpf {i : Instr} (h : writesLpf i = false) (s : State) : (writtenState i s).lpf = s.lpf := by
  cases i with
  | lpfcfg | lpfadv | lpf => cases h
  | _ => rfl

theorem writtenState_rng {i : Instr} (h : writesRng i = false) (s : State) : (writtenState i s).rng = s.rng := by
  cases i with
  | rngseed | awgn | bersweep => cases h
  | _ => rfl

/-- An instruction that answers has failed for a cause, with nothing written, or has completed. -/
theorem exec_next_cases {i : Instr} {s t : State} (h : exec i s = .next t) :
    (∃ n, formatCause i = some n ∧ t = s.failed .formatError n) ∨
    (∃ n, degenerateCause i s = some n ∧ t = s.failed .degenerateSignalError n) ∨
    (Completes i s ∧ (∀ v ∈ answersOf i s, s.Fits v.bufferLength) ∧ t = (writtenState i s).answered (answersOf i s)) := by
  by_cases hfit : s.OperandsFit i
  swap
  · rw [exec_of_not_fits hfit] at h
    cases h
  cases hdomain : domainRefusal i s with
  | some r =>
    rw [exec_of_domainRefusal hfit hdomain] at h
    cases h
  | none =>
    cases hformat : formatCause i with
    | some n =>
      rw [exec_of_formatCause hfit hdomain hformat] at h
      cases h
      exact .inl ⟨n, rfl, rfl⟩
    | none =>
      cases hdegenerate : degenerateCause i s with
      | some n =>
        rw [exec_of_degenerateCause hfit hdomain hdegenerate] at h
        cases h
        exact .inr (.inl ⟨n, rfl, rfl⟩)
      | none =>
        rw [exec_of_no_cause hfit hdomain hformat hdegenerate, respond_next_iff] at h
        simp only [fits_writtenState] at h
        exact .inr (.inr ⟨⟨hfit, hdomain, hformat, hdegenerate⟩, h⟩)

/-- All the refusals there are. -/
theorem exec_refused_cases {i : Instr} {s : State} {r : Refusal} (h : exec i s = .refused r) :
    (¬s.OperandsFit i ∧ r = .overMaxLen) ∨ (s.OperandsFit i ∧ domainRefusal i s = some r) ∨
    (Completes i s ∧ r = .overMaxLen ∧ ∃ v ∈ answersOf i s, ¬s.Fits v.bufferLength) := by
  by_cases hfit : s.OperandsFit i
  swap
  · rw [exec_of_not_fits hfit] at h
    cases h
    exact .inl ⟨hfit, rfl⟩
  cases hdomain : domainRefusal i s with
  | some r' =>
    rw [exec_of_domainRefusal hfit hdomain] at h
    cases h
    exact .inr (.inl ⟨hfit, rfl⟩)
  | none =>
    cases hformat : formatCause i with
    | some n =>
      rw [exec_of_formatCause hfit hdomain hformat] at h
      cases h
    | none =>
      cases hdegenerate : degenerateCause i s with
      | some n =>
        rw [exec_of_degenerateCause hfit hdomain hdegenerate] at h
        cases h
      | none =>
        rw [exec_of_no_cause hfit hdomain hformat hdegenerate, respond_refused_iff] at h
        simp only [fits_writtenState] at h
        exact .inr (.inr ⟨⟨hfit, hdomain, hformat, hdegenerate⟩, h⟩)

theorem Completes.exec_of_fits {i : Instr} {s : State} (h : Completes i s)
    (hresults : ∀ v ∈ answersOf i s, s.Fits v.bufferLength) :
    exec i s = .next ((writtenState i s).answered (answersOf i s)) := by
  rw [h.exec_eq]
  exact respond_of_fits (by simpa only [fits_writtenState] using hresults)

/-! ### The registers read -/

section
variable {i : Instr} {s s' : State}

theorem arith_congr (h : s.num = s'.num) : s.arith = s'.arith := congrArg NumFormat.num h

theorem operandsFit_congr (h : s.maxLen = s'.maxLen) : s.OperandsFit i ↔ s'.OperandsFit i := by
  unfold State.OperandsFit State.Fits
  rw [h]

theorem domainRefusal_congr (hnum : s.num = s'.num) (hlpf : readsLpf i = true → s.lpf = s'.lpf) :
    domainRefusal i s = domainRefusal i s' := by
  unfold domainRefusal
  rw [arith_congr hnum]
  cases i with
  | lpfadv => simp only [parameterRefusal, hlpf rfl]
  | _ => simp only [parameterRefusal, arith_congr hnum]

theorem degenerateCause_congr (hnum : s.num = s'.num) : degenerateCause i s = degenerateCause i s' := by
  unfold degenerateCause
  rw [arith_congr hnum]

/-- The results of an instruction are a function of its operands and of the groups it reads. -/
theorem answersOf_congr (hnum : s.num = s'.num) (hpll : readsPll i = true → s.pll = s'.pll)
    (hlpf : readsLpf i = true → s.lpf = s'.lpf) (hrng : readsRng i = true → s.rng = s'.rng) :
    answersOf i s = answersOf i s' := by
  cases i with
  | plladv | pllrun => simp only [answersOf, arith_congr hnum, hpll rfl]
  | lpfadv => simp only [answersOf, arith_congr hnum, hlpf rfl]
  | awgn | bersweep => simp only [answersOf, arith_congr hnum, hrng rfl]
  | qmod | qdem | lpf | agc => simp only [answersOf, arith_congr hnum]
  | _ => rfl

theorem writtenState_congr (hnum : s.num = s'.num) (hpll : readsPll i = true → s.pll = s'.pll)
    (hlpf : readsLpf i = true → s.lpf = s'.lpf) (hrng : readsRng i = true → s.rng = s'.rng) :
    (writesPll i = true → (writtenState i s).pll = (writtenState i s').pll) ∧
      (writesLpf i = true → (writtenState i s).lpf = (writtenState i s').lpf) ∧
      (writesRng i = true → (writtenState i s).rng = (writtenState i s').rng) := by
  cases i with
  | plladv | pllrun => exact ⟨fun _ => by simp [writtenState, arith_congr hnum, hpll rfl], nofun, nofun⟩
  | lpfadv => exact ⟨nofun, fun _ => by simp [writtenState, arith_congr hnum, hlpf rfl], nofun⟩
  | lpf | lpfcfg => exact ⟨nofun, fun _ => by simp [writtenState, arith_congr hnum], nofun⟩
  | awgn | bersweep => exact ⟨nofun, nofun, fun _ => by simp [writtenState, arith_congr hnum, hrng rfl]⟩
  | pllrst => exact ⟨fun _ => rfl, nofun, nofun⟩
  | rngseed => exact ⟨nofun, nofun, fun _ => rfl⟩
  | _ => exact ⟨nofun, nofun, nofun⟩

end

/-! ### Errors and refusals -/

/-- Settles O15: nothing is left to refuse or to raise, and every length fits. -/
theorem everyOperationCompletes : Obligations.EveryOperationCompletes := by
  intro i s hmax hdomain hformat hdegenerate
  have h : Completes i s := ⟨s.operandsFit_of_unbounded hmax i, hdomain, hformat, hdegenerate⟩
  exact ⟨_, _, h.exec_of_fits fun v _ => s.fits_of_unbounded hmax v.bufferLength, rfl⟩

/-- Settles O16, by the two error cases. -/
theorem errorCausesRaise : Obligations.ErrorCausesRaise :=
  fun _ _ _ hfit hdomain => ⟨exec_of_formatCause hfit hdomain, exec_of_degenerateCause hfit hdomain⟩

/-- Settles O17, by the cases of an answer. -/
theorem statusHasItsCause : Obligations.StatusHasItsCause := by
  intro i s t h
  obtain hformat | hdegenerate | ⟨hc, -, rfl⟩ := exec_next_cases h
  · exact .inr (.inl hformat)
  · exact .inr (.inr hdegenerate)
  · exact .inl ⟨_, rfl, hc.format, hc.degenerate⟩

/-- Settles O18, by the cases of a refusal; the results do not depend on MAXLEN. -/
theorem refusalCauses : Obligations.RefusalCauses := by
  intro i s
  refine ⟨exec_of_not_fits, fun hfit r hr => exec_of_domainRefusal hfit hr, fun r h => ?_, fun t vs h hresponse => ?_⟩
  · obtain hfit | hdomain | ⟨hc, rfl, v, hv, hlong⟩ := exec_refused_cases h
    · exact .inl hfit
    · exact .inr (.inl hdomain)
    · have hunbounded : Completes i { s with maxLen := none } :=
        ⟨State.operandsFit_of_unbounded rfl i, (domainRefusal_congr rfl fun _ => rfl).trans hc.domain, hc.format,
          (degenerateCause_congr rfl).trans hc.degenerate⟩
      refine .inr (.inr ⟨hc.fits, hc.domain, rfl, _, _,
        hunbounded.exec_of_fits fun v _ => State.fits_of_unbounded rfl v.bufferLength, rfl, v, ?_, hlong⟩)
      rwa [answersOf_congr (s := { s with maxLen := none }) (s' := s) rfl (fun _ => rfl) (fun _ => rfl) fun _ => rfl]
  · obtain ⟨n, -, rfl⟩ | ⟨n, -, rfl⟩ | ⟨-, hfits, rfl⟩ := exec_next_cases h
    · simp at hresponse
    · simp at hresponse
    · rw [State.answered_host_response] at hresponse
      cases hresponse
      exact hfits

theorem parameterRefusal_ne_nonFinite (i : Instr) (s : State) : parameterRefusal i s ≠ some .nonFinite := by
  cases i with
  | qmod | qdem | pllrun | plladv | lpf | lpfcfg | lpfadv | bersweep =>
    simp only [parameterRefusal]
    split_ifs <;> simp
  | _ => nofun

/-- Settles O20: `accept` alone refuses so, before any other test but that of MAXLEN. -/
theorem nonFiniteRefused : Obligations.NonFiniteRefused := by
  intro i s hfit
  have hiff : exec i s = .refused .nonFinite ↔ ¬s.OperandsFinite i := by
    constructor
    · intro h hfinite
      obtain ⟨hno, -⟩ | ⟨-, hdomain⟩ | ⟨-, hr, -⟩ := exec_refused_cases h
      · exact hno hfit
      · rw [domainRefusal, if_pos (State.operandsFinite_iff.1 hfinite)] at hdomain
        exact parameterRefusal_ne_nonFinite i s hdomain
      · cases hr
    · intro hno
      exact exec_of_domainRefusal hfit (if_neg (mt State.operandsFinite_iff.2 hno))
  refine ⟨hiff.trans ?_, fun href => mt hiff.1 (not_not.2 (href.operandsFinite i))⟩
  simp [State.OperandsFinite]

/-! ### The register groups -/

/-- Settles O21: an error writes nothing, and a command that completes writes its groups. -/
theorem groupsWritten : Obligations.GroupsWritten := by
  intro i s t h
  obtain ⟨n, -, rfl⟩ | ⟨n, -, rfl⟩ | ⟨-, -, rfl⟩ := exec_next_cases h
  · simp
  · simp
  · exact ⟨fun hw => writtenState_pll hw s, fun hw => writtenState_lpf hw s, fun hw => writtenState_rng hw s,
      by simp⟩

/-- An instruction that can fail writes no group that it does not read, so its errors leave it what it read. -/
theorem reads_of_writes_of_cause {i : Instr}
    (h : (∃ n, formatCause i = some n) ∨ ∃ s n, degenerateCause i s = some n) :
    (writesPll i = true → readsPll i = true) ∧ (writesLpf i = true → readsLpf i = true) ∧
      (writesRng i = true → readsRng i = true) := by
  cases i with
  | pllrun | plladv | pllrst | lpf | lpfcfg | lpfadv | awgn | rngseed =>
    obtain ⟨_, h⟩ | ⟨_, _, h⟩ := h <;> cases h
  | _ => exact ⟨nofun, nofun, fun h => h⟩

/-- Two runs of an instruction answer alike and agree on the groups it writes. -/
def AnswerAlike (i : Instr) (o o' : StepResult) : Prop :=
  responseOf o = responseOf o' ∧ (∀ r, o = .refused r ↔ o' = .refused r) ∧
    ∀ t t', o = .next t → o' = .next t' →
      (writesPll i = true → t.pll = t'.pll) ∧ (writesLpf i = true → t.lpf = t'.lpf) ∧
        (writesRng i = true → t.rng = t'.rng)

theorem answerAlike_refused (i : Instr) (r : Refusal) : AnswerAlike i (.refused r) (.refused r) :=
  ⟨rfl, fun _ => Iff.rfl, fun _ _ h => by cases h⟩

theorem answerAlike_next {i : Instr} {t t' : State} (hresponse : t.host.response = t'.host.response)
    (hpll : writesPll i = true → t.pll = t'.pll) (hlpf : writesLpf i = true → t.lpf = t'.lpf)
    (hrng : writesRng i = true → t.rng = t'.rng) : AnswerAlike i (.next t) (.next t') := by
  refine ⟨hresponse, by simp, fun u u' h h' => ?_⟩
  cases h
  cases h'
  exact ⟨hpll, hlpf, hrng⟩

theorem answerAlike_respond {i : Instr} {t t' : State} (vs : List Value) (hmax : t.maxLen = t'.maxLen)
    (hpll : writesPll i = true → t.pll = t'.pll) (hlpf : writesLpf i = true → t.lpf = t'.lpf)
    (hrng : writesRng i = true → t.rng = t'.rng) : AnswerAlike i (respond t vs) (respond t' vs) := by
  have hfits : ∀ n, t.Fits n ↔ t'.Fits n := by simp [State.Fits, hmax]
  by_cases h : ∀ v ∈ vs, t.Fits v.bufferLength
  · rw [respond_of_fits h, respond_of_fits fun v hv => (hfits _).1 (h v hv)]
    exact answerAlike_next rfl hpll hlpf hrng
  · push Not at h
    rw [respond_refused_iff.2 ⟨rfl, h⟩, respond_refused_iff.2 ⟨rfl, by simpa only [← hfits] using h⟩]
    exact answerAlike_refused i _

/-- Settles O22: every check, every result and every register written is a function of operands and groups read. -/
theorem groupsRead : Obligations.GroupsRead := by
  intro i s s' hmax hnum hpll hlpf hrng
  change AnswerAlike i (exec i s) (exec i s')
  by_cases hfit : s.OperandsFit i
  swap
  · rw [exec_of_not_fits hfit, exec_of_not_fits (mt (operandsFit_congr hmax).2 hfit)]
    exact answerAlike_refused i _
  have hfit' := (operandsFit_congr hmax).1 hfit
  cases hdomain : domainRefusal i s with
  | some r =>
    rw [exec_of_domainRefusal hfit hdomain, exec_of_domainRefusal hfit' (domainRefusal_congr hnum hlpf ▸ hdomain)]
    exact answerAlike_refused i r
  | none =>
  have hdomain' : domainRefusal i s' = none := domainRefusal_congr hnum hlpf ▸ hdomain
  cases hformat : formatCause i with
  | some n =>
    obtain ⟨wpll, wlpf, wrng⟩ := reads_of_writes_of_cause (.inl ⟨n, hformat⟩)
    rw [exec_of_formatCause hfit hdomain hformat, exec_of_formatCause hfit' hdomain' hformat]
    exact answerAlike_next rfl (hpll ∘ wpll) (hlpf ∘ wlpf) (hrng ∘ wrng)
  | none =>
  cases hdegenerate : degenerateCause i s with
  | some n =>
    obtain ⟨wpll, wlpf, wrng⟩ := reads_of_writes_of_cause (.inr ⟨s, n, hdegenerate⟩)
    rw [exec_of_degenerateCause hfit hdomain hdegenerate,
      exec_of_degenerateCause hfit' hdomain' (degenerateCause_congr hnum ▸ hdegenerate)]
    exact answerAlike_next rfl (hpll ∘ wpll) (hlpf ∘ wlpf) (hrng ∘ wrng)
  | none =>
    obtain ⟨wpll, wlpf, wrng⟩ := writtenState_congr hnum hpll hlpf hrng
    rw [exec_of_no_cause hfit hdomain hformat hdegenerate,
      exec_of_no_cause hfit' hdomain' hformat (degenerateCause_congr hnum ▸ hdegenerate),
      ← answersOf_congr hnum hpll hlpf hrng]
    exact answerAlike_respond _ (by simpa using hmax) wpll wlpf wrng

/-- Settles O23, by the three instructions that write the RNG group. -/
theorem drawCountGrows : Obligations.DrawCountGrows := by
  intro i s t hseed h
  obtain ⟨n, -, rfl⟩ | ⟨n, -, rfl⟩ | ⟨-, -, rfl⟩ := exec_next_cases h
  · simp
  · simp
  · cases i with
    | rngseed n => exact absurd rfl (hseed n)
    | awgn | bersweep => simp [writtenState]
    | _ => simp [writtenState]

end Sys2Proof.Proofs
end

section
/-! PROOFS. The step of the host's run (30_encoding.md R80; 60_exceptions.md R235 to R248) and its invariant
(10_state.md R29). -/

namespace Sys2Proof.Proofs

open Sys2Proof.Machine

/-! ### One step -/

theorem present_of_decode {h : HostRun} {M : Numerics} {c : HostCommand} {vs : List Value} {i : Instr}
    (hargs : h.argValues c.operands = .ok vs) (hdec : decode M ⟨c.op, vs⟩ = .ok i) : h.present M c = .ok i := by
  simp only [HostRun.present, hargs, hdec]

theorem step_of_next {s t : State} {c : HostCommand} {i : Instr} (hc : s.host.nextCommand = some c)
    (hi : s.host.present s.arith c = .ok i) (h : exec i s = .next t) : step s = .next (t.takeResponse c) := by
  simp only [step, hc, hi, h]

theorem step_of_refused {s : State} {c : HostCommand} {i : Instr} {r : Refusal} (hc : s.host.nextCommand = some c)
    (hi : s.host.present s.arith c = .ok i) (h : exec i s = .refused r) : step s = .refused r := by
  simp only [step, hc, hi, h]

theorem step_of_error {s : State} {c : HostCommand} {r : Refusal} (hc : s.host.nextCommand = some c)
    (hi : s.host.present s.arith c = .error r) : step s = .refused r := by
  simp only [step, hc, hi]

theorem step_of_ended {s : State} (h : s.host.stopped ≠ none ∨ s.host.program.length ≤ s.host.pc) :
    step s = .next s := by
  simp only [step, HostRun.nextCommand_eq_none.2 h]

/-- Settles O7, by the definition of a step at a command that presents an instruction. -/
theorem stepRunsDecodedInstruction : Obligations.StepRunsDecodedInstruction := by
  intro s c vs i hstop hpc hargs hdec
  have hc := HostRun.nextCommand_eq_some.2 ⟨hstop, hpc⟩
  exact ⟨fun t => step_of_next hc (present_of_decode hargs hdec), fun r => step_of_refused hc (present_of_decode hargs hdec)⟩

/-- Settles O10: no instruction is presented. -/
theorem stepRefusesUndecodable : Obligations.StepRefusesUndecodable := by
  intro s c hstop hpc
  have hc := HostRun.nextCommand_eq_some.2 ⟨hstop, hpc⟩
  refine ⟨fun r hargs => step_of_error hc ?_, fun vs e hargs hdec => step_of_error hc ?_⟩
  · simp only [HostRun.present, hargs]
  · simp only [HostRun.present, hargs, hdec]

/-- Settles O11: there is no next command. -/
theorem stepIdleAfterEnd : Obligations.StepIdleAfterEnd := fun _ => step_of_ended

/-- A command leaves the host's run but for the response. -/
theorem host_of_exec {i : Instr} {s t : State} (h : exec i s = .next t) :
    t.host = ⟨s.host.program, s.host.pc, s.host.names, t.host.response, s.host.stopped⟩ := by
  obtain ⟨_, _, _, _, _, hprogram, hpc, hnames, hstopped⟩ := groupsWritten i s t h
  rw [← hprogram, ← hpc, ← hnames, ← hstopped]

/-- Settles O8: the command leaves the run as it was, and the host takes the response. -/
theorem stepAfterOk : Obligations.StepAfterOk := by
  intro s t c vs results i hstop hpc hargs hdec hexec hresponse
  have hc := HostRun.nextCommand_eq_some.2 ⟨hstop, hpc⟩
  obtain ⟨_, _, _, hmax, hnum, _⟩ := groupsWritten i s t hexec
  refine ⟨_, step_of_next hc (present_of_decode hargs hdec) hexec, ?_, by simpa using hmax, by simpa using hnum, ?_⟩
  · simp [SameRegisters]
  · rw [State.takeResponse_of_ok hresponse rfl, host_of_exec hexec, hresponse, hstop]

/-- Settles O9: an error answers from the state before the command, and the host stops at it. -/
theorem stepAfterError : Obligations.StepAfterError := by
  intro s t c vs i r hstop hpc hargs hdec hexec hresponse hstatus
  have hc := HostRun.nextCommand_eq_some.2 ⟨hstop, hpc⟩
  obtain ⟨e, n, rfl⟩ : ∃ e n, t = s.failed e n := by
    obtain ⟨n, -, ht⟩ | ⟨n, -, ht⟩ | ⟨-, -, rfl⟩ := exec_next_cases hexec
    · exact ⟨_, n, ht⟩
    · exact ⟨_, n, ht⟩
    · rw [State.answered_host_response] at hresponse
      cases hresponse
      exact absurd rfl hstatus
  rw [State.failed_host_response] at hresponse
  cases hresponse
  refine ⟨rfl, _, step_of_next hc (present_of_decode hargs hdec) hexec, ?_⟩
  rw [State.takeResponse_of_error rfl hstatus]
  exact ⟨⟨rfl, rfl, rfl⟩, rfl, rfl, rfl, step_of_ended (.inl (by simp))⟩

/-! ### The invariant -/

theorem length_timesRootFactor (z before : Cplx) (cs : List Cplx) :
    (timesRootFactor z before cs).length = cs.length + 1 := by
  induction cs generalizing before with
  | nil => rfl
  | cons c cs ih => rw [timesRootFactor, List.length_cons, ih, List.length_cons]

@[simp] theorem length_denominator (n : Nat) (Wn : RealExpr) (m : Nat) : (denominator n Wn m).length = m := by
  induction m with
  | zero => rfl
  | succ m ih => rw [denominator, length_timesRootFactor, ih]

@[simp] theorem length_butterA (n : Nat) (Wn : RealExpr) : (butterA n Wn).length = n := by simp [butterA]

@[simp] theorem length_butterB (n : Nat) (Wn : RealExpr) : (butterB n Wn).length = n + 1 := by simp [butterB]

theorem shape_designFilter (M : Numerics) (c fs : RealExpr) {n : Nat} (hn : 1 ≤ n) : (designFilter M c fs n).Shape := by
  simpa [Lpf.Shape, designFilter] using hn

theorem shape_filterNext (M : Numerics) {l : Lpf} (h : l.Shape) (hcfgd : l.cfgd = true) (x : Cplx) :
    (filterNext M l x).Shape := by
  rw [Lpf.Shape, if_pos hcfgd] at h
  obtain ⟨hord, hb, ha, hxh, hyh⟩ := h
  rw [Lpf.Shape, if_pos (show (filterNext M l x).cfgd = true from hcfgd)]
  refine ⟨hord, hb, ha, ?_, ?_⟩
  · simp [filterNext, hxh, hord]
  · simp [filterNext, hyh, hord]

theorem shape_filterLoop (M : Numerics) (xs : List Cplx) {l : Lpf} (h : l.Shape) (hcfgd : l.cfgd = true) :
    (filterLoop M xs l).2.Shape := by
  induction xs generalizing l with
  | nil => exact h
  | cons x xs ih => exact ih (shape_filterNext M h hcfgd x) hcfgd

theorem parameterRefusal_of_domainRefusal {i : Instr} {s : State} (h : domainRefusal i s = none) :
    parameterRefusal i s = none := (domainRefusal_eq_none_iff.1 h).2

theorem one_le_of_filterDomain {M : Numerics} {c fs : RealExpr} {n : Nat} (h : filterDomain M c fs n = true) : 1 ≤ n := by
  simp only [filterDomain, Bool.and_eq_true, decide_eq_true_eq] at h
  obtain ⟨⟨⟨-, hn⟩, -⟩, -⟩ := h
  exact hn

/-- The filter registers keep their shape (10_state.md R29). -/
theorem lpf_shape_of_exec {i : Instr} {s t : State} (hs : s.lpf.Shape) (h : exec i s = .next t) : t.lpf.Shape := by
  obtain ⟨n, -, rfl⟩ | ⟨n, -, rfl⟩ | ⟨hc, -, rfl⟩ := exec_next_cases h
  · exact hs
  · exact hs
  · have hdomain := parameterRefusal_of_domainRefusal hc.domain
    rw [State.answered_lpf]
    cases i with
    | lpf w c fs n =>
      have hn := one_le_of_filterDomain (by simpa [parameterRefusal] using hdomain)
      exact shape_filterLoop _ _ (shape_designFilter _ c fs hn) rfl
    | lpfcfg c fs n =>
      have hn := one_le_of_filterDomain (by simpa [parameterRefusal] using hdomain)
      exact shape_designFilter _ c fs hn
    | lpfadv x => exact shape_filterNext _ hs (by simpa [parameterRefusal] using hdomain) x
    | _ => exact hs

/-- Every command that answers leaves a proper response (60_exceptions.md R233, R235). -/
theorem exists_proper_response_of_exec {i : Instr} {s t : State} (h : exec i s = .next t) :
    ∃ r, t.host.response = some r ∧ r.Proper := by
  obtain ⟨n, -, rfl⟩ | ⟨n, -, rfl⟩ | ⟨-, -, rfl⟩ := exec_next_cases h
  · exact ⟨_, rfl, by simp [Response.Proper]⟩
  · exact ⟨_, rfl, by simp [Response.Proper]⟩
  · exact ⟨_, rfl, by simp [Response.Proper]⟩

/-- The host keeps its run in shape when it takes a proper response to a command of its list. -/
theorem host_shape_takeResponse {t : State} {c : HostCommand} {r : Response} (hr : t.host.response = some r)
    (hproper : r.Proper) (hstop : t.host.stopped = none) (hpc : t.host.pc < t.host.program.length) :
    (t.takeResponse c).host.Shape := by
  have hresponse : ∀ r', t.host.response = some r' → r'.Proper := fun r' hr' => by
    rw [hr] at hr'
    cases hr'
    exact hproper
  by_cases hstatus : r.status = .ok
  · rw [State.takeResponse_of_ok hr hstatus]
    refine ⟨hpc, fun e he => ?_, hresponse⟩
    rw [hstop] at he
    cases he
  · rw [State.takeResponse_of_error hr hstatus]
    refine ⟨hpc.le, fun e he => ?_, hresponse⟩
    cases he
    exact ⟨hstatus, hproper.1, hpc⟩

/-- Settles O14: a step performs a command of the list, which keeps the filter in shape and answers properly, or
nothing at all. -/
theorem stepKeepsInvariant : Obligations.StepKeepsInvariant := by
  intro s u hs hstep
  obtain ⟨-, rfl⟩ | ⟨c, i, t, hc, -, hexec, rfl⟩ := step_next_cases hstep
  · exact hs
  obtain ⟨hlpf, -⟩ := hs
  obtain ⟨hstop, hcommand⟩ := HostRun.nextCommand_eq_some.1 hc
  obtain ⟨hpc, -⟩ := List.getElem?_eq_some_iff.1 hcommand
  obtain ⟨r, hr, hproper⟩ := exists_proper_response_of_exec hexec
  have hhost := host_of_exec hexec
  refine ⟨by simpa using lpf_shape_of_exec hlpf hexec, host_shape_takeResponse hr hproper ?_ ?_⟩
  · rw [hhost]
    exact hstop
  · rw [hhost]
    exact hpc

/-- Settles O12: the registers are written out. -/
theorem resetValues : Obligations.ResetValues :=
  ⟨rfl, rfl, rfl, rfl, rfl, rfl, rfl, rfl, rfl, rfl, rfl⟩

/-- Settles O13: at reset the filter is unconfigured and the list empty. -/
theorem resetMeetsInvariant : Obligations.ResetMeetsInvariant :=
  ⟨⟨rfl, rfl, rfl, rfl, rfl⟩, Nat.le_refl 0, nofun, nofun⟩

end Sys2Proof.Proofs
end

section
/-! PROOFS. The Hamming commands block by block (41_hamming.md R91 to R103). -/

namespace Sys2Proof.Proofs

open Sys2Proof.Machine

/-! ### Single blocks -/

/-- A command without numbers and outside the parameter domains' rows has nothing to be refused for. -/
theorem domainRefusal_of_no_numbers {i : Instr} {s : State} (hnumbers : i.numbers = [])
    (hparameter : parameterRefusal i s = none) : domainRefusal i s = none := by
  rw [domainRefusal_eq_none_iff, State.OperandsFinite, hnumbers]
  exact ⟨nofun, hparameter⟩

/-- Settles O24: a block of four bits is within every bound that its codeword is within. -/
theorem encodeBlock : Obligations.EncodeBlock := by
  intro s d1 d2 d3 d4 h
  have hc : Completes (.hencb [d1, d2, d3, d4]) s :=
    ⟨by simpa [State.OperandsFit, Instr.operands] using State.fits_of_le (by decide : 4 ≤ 7) h,
      domainRefusal_of_no_numbers rfl rfl, rfl, rfl⟩
  exact hc.exec_of_fits (by simpa [answersOf, blockEncoding] using h)

theorem toBits_flipAt (r : Block7) {p : Nat} (hp : p ≤ 7) :
    (flipAt r p).toBits = if p = 0 then r.toBits else r.toBits.modify (p - 1) not := by
  interval_cases p <;> rfl

theorem toBits_dataOf (r : Block7) : (dataOf r).toBits = r.toBits.take 4 := rfl

theorem blockDecoding_toBits (r : Block7) :
    blockDecoding r.toBits = [.ofBits (decb r).1.toBits, .ofNat (decb r).2] := rfl

/-- Settles O25: correction flips the position of the syndrome, which is one of the seven. -/
theorem decodeBlock : Obligations.DecodeBlock := by
  intro s r h
  have hc : Completes (.hdecb r.toBits) s :=
    ⟨by simpa [State.OperandsFit, Instr.operands] using h, domainRefusal_of_no_numbers rfl rfl, rfl, rfl⟩
  have hanswer : answersOf (.hdecb r.toBits) s = [.ofBits (decb r).1.toBits, .ofNat (decb r).2] := blockDecoding_toBits r
  have hfour : s.Fits 4 := State.fits_of_le (by decide) h
  rw [hc.exec_of_fits (by simpa [hanswer] using hfour), hanswer, ← toBits_flipAt r (synpos_le r), ← toBits_dataOf]
  rfl

/-! ### The matrices -/

theorem gfApply_parityCheckMatrix (r : Block7) :
    gfApply parityCheckMatrix r.toBits = [(syndrome r).1, (syndrome r).2.1, (syndrome r).2.2] := by
  simp [gfApply, parityCheckMatrix, Block7.toBits, syndrome]

theorem synpos_eq_zero_iff {r : Block7} : synpos r = 0 ↔ syndrome r = (false, false, false) := by
  have hdigit (b : Bit) : b.digit = 0 ↔ b = false := by cases b <;> decide
  simp only [synpos, Nat.add_eq_zero_iff, Nat.mul_eq_zero, hdigit, Prod.ext_iff]
  simp [and_assoc]

/-- The codewords are the words of syndrome 0 (41_hamming.md R94). -/
theorem exists_eq_encb_iff {r : Block7} : (∃ d, r = encb d) ↔ synpos r = 0 := by
  constructor
  · rintro ⟨d, rfl⟩
    exact synpos_encb d
  · exact fun h => ⟨_, eq_encb_of_synpos_eq_zero h⟩

theorem three_le_weight_encb {d : Block4} (h : d ≠ dataOf zeroBlock) : 3 ≤ weight (encb d).toBits := by
  obtain ⟨d1, d2, d3, d4⟩ := d
  revert d1 d2 d3 d4
  decide

/-- Settles O28: `G` and `H` by their columns, the distance by linearity. -/
theorem codeMatrices : Obligations.CodeMatrices := by
  refine ⟨fun d => ?_, fun r => ⟨gfApply_parityCheckMatrix r, ?_⟩, by decide, fun d e hne => ?_⟩
  · simp [gfProduct, generatorMatrix, encb, Block7.toBits, Block4.toBits, List.range_succ]
  · rw [exists_eq_encb_iff, synpos_eq_zero_iff, gfApply_parityCheckMatrix]
    simp [Prod.ext_iff]
  · rw [distance, ← encb_addData]
    refine three_le_weight_encb fun h => hne ?_
    calc d = addData d (dataOf zeroBlock) := (addData_eq_left_iff.2 rfl).symm
      _ = addData d (addData d e) := by rw [h]
      _ = e := addData_cancel_left d e

/-! ### Vectors -/

theorem blockOf_append_zero {v rest : BitVector} {w : Nat} (hv : v.length = w) : blockOf (v ++ rest) w 0 = v := by
  simp [blockOf, ← hv]

theorem blockOf_append_succ {v rest : BitVector} {w : Nat} (hv : v.length = w) (m : Nat) :
    blockOf (v ++ rest) w (m + 1) = blockOf rest w m := by
  rw [blockOf, Nat.mul_succ, Nat.add_comm, ← hv, List.drop_length_add_append, blockOf]

/-- Block `m` of a vector made of blocks of one width. -/
theorem blockOf_flatMap {α : Type} {f : α → BitVector} {w : Nat} (hf : ∀ a, (f a).length = w) {l : List α} {m : Nat}
    {a : α} (h : l[m]? = some a) : blockOf (l.flatMap f) w m = f a := by
  induction l generalizing m with
  | nil => cases h
  | cons b l ih =>
    rw [List.flatMap_cons]
    cases m with
    | zero =>
      cases h
      exact blockOf_append_zero (hf a)
    | succ m => rw [blockOf_append_succ (hf _), ih h]

theorem getElem?_blocks4 (v : BitVector) {m : Nat} (h : m < v.length / 4) :
    (blocks4 v)[m]? = some ⟨v.getD (4 * m) false, v.getD (4 * m + 1) false, v.getD (4 * m + 2) false,
      v.getD (4 * m + 3) false⟩ := by
  induction v using blocks4.induct generalizing m with
  | case1 d1 d2 d3 d4 rest ih =>
    cases m with
    | zero => rfl
    | succ m =>
      simp only [List.length_cons] at h
      rw [blocks4, List.getElem?_cons_succ, ih (by omega)]
      rfl
  | case2 v hshort =>
    obtain ⟨d, rest, rfl⟩ := exists_block4_append (v := v) (by omega)
    exact absurd rfl (hshort d.d1 d.d2 d.d3 d.d4 rest)

theorem getD_padTo4 (v : BitVector) (k : Nat) : (padTo4 v).getD k false = v.getD k false := by
  rw [padTo4_eq]
  by_cases h : k < v.length
  · rw [List.getD_append _ _ _ _ h]
  · rw [List.getD_append_right _ _ _ _ (not_lt.1 h), List.getD_eq_default v _ (not_lt.1 h)]
    simp

/-- Settles O26: each block of the padded vector is encoded in its place. -/
theorem encodeVector : Obligations.EncodeVector := by
  intro s data h
  refine ⟨hammingEncode data, exec_henc h, length_hammingEncode data, fun m hm => ?_⟩
  have hblock := getElem?_blocks4 (padTo4 data) (m := m) (by simpa using hm)
  simp only [getD_padTo4] at hblock
  exact blockOf_flatMap (f := fun d => (encb d).toBits) (fun d => rfl) hblock

theorem toBits_injective {r e : Block7} (h : r.toBits = e.toBits) : r = e := by
  simp only [Block7.toBits, List.cons.injEq] at h
  obtain ⟨h1, h2, h3, h4, h5, h6, h7, -⟩ := h
  cases r
  cases e
  congr

theorem getElem?_blocks7 {v : BitVector} {m : Nat} {r : Block7} (h : blockOf v 7 m = r.toBits) :
    (blocks7 v)[m]? = some r := by
  induction v using blocks7.induct generalizing m with
  | case1 r1 r2 r3 r4 r5 r6 r7 rest ih =>
    cases m with
    | zero => exact congrArg some (toBits_injective h)
    | succ m => exact ih ((blockOf_append_succ (v := [r1, r2, r3, r4, r5, r6, r7]) rfl m).symm.trans h)
  | case2 v hshort =>
    have hlen := congrArg List.length h
    rw [blockOf, List.length_take, List.length_drop, length_toBits_block7] at hlen
    obtain ⟨d, rest, rfl⟩ := exists_block7_append (v := v) (by omega)
    exact absurd rfl (hshort d.r1 d.r2 d.r3 d.r4 d.r5 d.r6 d.r7 rest)

/-- Settles O27: each block is decoded in its place. -/
theorem decodeVector : Obligations.DecodeVector := by
  intro s encoded hlen h
  refine ⟨_, _, exec_hdec hlen h, length_hammingDecode encoded, length_hammingPositions encoded, fun m r _ hr => ?_⟩
  have hblock := getElem?_blocks7 hr
  refine ⟨blockOf_flatMap (f := fun r => (decb r).1.toBits) (fun r => rfl) hblock, ?_⟩
  rw [hammingPositions, List.getElem?_map, hblock, Option.map_some]

end Sys2Proof.Proofs
end

section
/-! PROOFS. The parameter domains over the real numbers (42_qpsk.md R131, 43_pll.md R146, 44_conditioner.md R171). -/

namespace Sys2Proof.Proofs

open Sys2Proof.Machine

theorem domainRefusal_of_reference {s : State} (h : s.IsReference) (i : Instr) :
    domainRefusal i s = parameterRefusal i s :=
  if_pos (State.operandsFinite_iff.1 (h.operandsFinite i))

theorem isPos_reference {x : RealExpr} : Numerics.reference.isPos x = true ↔ 0 < x.val :=
  Numerics.isPos_iff (Numerics.reference_finite x)

theorem modulationDomain_reference {Tb : RealExpr} {N : Nat} :
    modulationDomain .reference Tb N = true ↔ 0 < Tb.val ∧ 1 ≤ N := by
  rw [modulationDomain, Bool.and_eq_true, decide_eq_true_iff, isPos_reference]

@[simp] theorem normalisedCutoff_reference_val (c fs : RealExpr) :
    (normalisedCutoff .reference c fs).val = c.val / (fs.val / 2) := by
  simp [normalisedCutoff]

theorem filterDomain_reference {c fs : RealExpr} {n : Nat} :
    filterDomain .reference c fs n = true ↔
      0 < fs.val ∧ 1 ≤ n ∧ 0 < c.val / (fs.val / 2) ∧ c.val / (fs.val / 2) < 1 := by
  simp only [filterDomain, Bool.and_eq_true, decide_eq_true_iff, isPos_reference, normalisedCutoff_reference_val,
    Numerics.isBelowOne_iff (Numerics.reference_finite (normalisedCutoff .reference c fs)), and_assoc]

/-- Where lengths are unbounded and arithmetic is exact, a parameter outside its domain refuses the command. -/
theorem exec_of_parameterRefusal {i : Instr} {s : State} {r : Refusal} (href : s.IsReference) (hmax : s.maxLen = none)
    (h : parameterRefusal i s = some r) : exec i s = .refused r :=
  exec_of_domainRefusal (State.operandsFit_of_unbounded hmax i) ((domainRefusal_of_reference href i).trans h)

/-- Settles O19, each domain by its bounds over the reals. -/
theorem refusalsOverTheReals : Obligations.RefusalsOverTheReals := by
  intro s href hmax
  refine ⟨fun e o xs Tb fc N h => ?_, fun w rc rs nb => exec_of_parameterRefusal href hmax rfl,
    fun x w fs lbw h => ?_, fun w c fs n h => ?_⟩
  · have hout : ¬modulationDomain s.arith Tb N = true := by
      rw [href.arith_eq, modulationDomain_reference]
      rintro ⟨hTb, hN⟩
      rcases h with h | h
      · exact h.not_gt hTb
      · omega
    exact ⟨exec_of_parameterRefusal href hmax (if_neg hout), exec_of_parameterRefusal href hmax (if_neg hout)⟩
  · have hout : ¬s.arith.isPos fs = true := by
      rw [href.arith_eq, isPos_reference]
      exact h.not_gt
    exact ⟨exec_of_parameterRefusal href hmax (if_neg hout), exec_of_parameterRefusal href hmax (if_neg hout)⟩
  · have hout : ¬filterDomain s.arith c fs n = true := by
      rw [href.arith_eq, filterDomain_reference]
      rintro ⟨hfs, hn, hlow, hhigh⟩
      rcases h with h | h | h | h
      · exact h.not_gt hfs
      · omega
      · exact h.not_gt hlow
      · exact h.not_gt hhigh
    exact ⟨exec_of_parameterRefusal href hmax (if_neg hout), exec_of_parameterRefusal href hmax (if_neg hout)⟩

end Sys2Proof.Proofs
end

section
/-! PROOFS. QMOD and QDEM (42_qpsk.md R121 to R131): the samples by symbol and index, the decisions by symbol, and the
two together. -/

namespace Sys2Proof.Proofs

open Sys2Proof.Machine

/-! ### Lists made of blocks -/

/-- Element `k` of block `m` of a list made of blocks of `N` elements. -/
theorem getElem?_flatMap_range {α β : Type} (l : List α) (g : α → Nat → β) {N k : Nat} (hk : k < N) (m : Nat) :
    (l.flatMap fun a => (List.range N).map (g a))[m * N + k]? = l[m]?.map fun a => g a k := by
  induction l generalizing m with
  | nil => rfl
  | cons a l ih =>
    rw [List.flatMap_cons]
    cases m with
    | zero =>
      rw [List.getElem?_append_left (by simpa using hk)]
      simp [hk]
    | succ m =>
      rw [List.getElem?_append_right (by simp; nlinarith), List.length_map, List.length_range]
      rw [show (m + 1) * N + k - N = m * N + k by rw [Nat.succ_mul]; omega, ih]
      rfl

/-- The two elements of block `m` of a list made of pairs. -/
theorem getElem?_flatMap_pair {α β : Type} (l : List α) (f g : α → β) (m : Nat) :
    (l.flatMap fun a => [f a, g a])[2 * m]? = l[m]?.map f ∧ (l.flatMap fun a => [f a, g a])[2 * m + 1]? = l[m]?.map g := by
  induction l generalizing m with
  | nil => exact ⟨rfl, rfl⟩
  | cons a l ih =>
    cases m with
    | zero => exact ⟨rfl, rfl⟩
    | succ m => exact ih m

theorem length_flatMap_pair {α β : Type} (l : List α) (f g : α → β) :
    (l.flatMap fun a => [f a, g a]).length = 2 * l.length := by
  simp [List.length_flatMap, Nat.mul_comm]

/-! ### The modulator -/

theorem getElem?_symbolPairs (e : BitVector) {m : Nat} (h : m < e.length / 2) :
    (symbolPairs e)[m]? = some (e.getD (2 * m) false, e.getD (2 * m + 1) false) := by
  induction e using symbolPairs.induct generalizing m with
  | case1 b0 b1 rest ih =>
    cases m with
    | zero => rfl
    | succ m =>
      simp only [List.length_cons] at h
      rw [symbolPairs, List.getElem?_cons_succ, ih (by omega)]
      rfl
  | case2 e hshort =>
    match e, h with
    | [_], h => simp at h
    | b0 :: b1 :: rest, _ => exact absurd rfl (hshort b0 b1 rest)

@[simp] theorem length_symbolPairs (e : BitVector) : (symbolPairs e).length = e.length / 2 := by
  induction e using symbolPairs.induct with
  | case1 b0 b1 rest ih =>
    simp only [symbolPairs, List.length_cons, ih]
    omega
  | case2 e hshort =>
    match e with
    | [] | [_] => simp [symbolPairs]
    | b0 :: b1 :: rest => exact absurd rfl (hshort b0 b1 rest)

@[simp] theorem length_constellation (e : BitVector) : (constellation e).length = e.length / 2 := by
  simp [constellation]

@[simp] theorem length_modulate (M : Numerics) (e : BitVector) (Tb fc : RealExpr) (N : Nat) :
    (modulate M e Tb fc N).samples.length = e.length / 2 * N := by
  simp [modulate, List.length_flatMap]

@[simp] theorem length_timeAxis (M : Numerics) (K : Nat) (Tb : RealExpr) (N : Nat) :
    (timeAxis M K Tb N).length = K * N := by
  simp [timeAxis, List.length_flatMap]

theorem getElem?_modulate (M : Numerics) (e : BitVector) (Tb fc : RealExpr) {N m k : Nat} (hm : m < e.length / 2)
    (hk : k < N) : (modulate M e Tb fc N).samples[m * N + k]? =
      some (.ofReal (symbolSample M Tb fc N (e.getD (2 * m) false, e.getD (2 * m + 1) false) k)) := by
  rw [modulate, getElem?_flatMap_range _ (fun b k => Cplx.ofReal (symbolSample M Tb fc N b k)) hk,
    getElem?_symbolPairs e hm, Option.map_some]

theorem timeAxis_eq (M : Numerics) (K : Nat) (Tb : RealExpr) (N : Nat) :
    timeAxis M K Tb N = (List.range K).flatMap fun (m : Nat) =>
      (List.range N).map fun k => M.add (M.mul (M.const m) Tb) (sampleInstant M Tb N k) := by
  simp only [timeAxis, bind_pure_comp, List.map_eq_map, List.flatMap_map]

theorem getElem?_timeAxis (M : Numerics) (Tb : RealExpr) {K N m k : Nat} (hm : m < K) (hk : k < N) :
    (timeAxis M K Tb N)[m * N + k]? = some (M.add (M.mul (M.const m) Tb) (sampleInstant M Tb N k)) := by
  rw [timeAxis_eq, getElem?_flatMap_range _ (fun (m k : Nat) => M.add (M.mul (M.const m) Tb) (sampleInstant M Tb N k)) hk,
    List.getElem?_range hm, Option.map_some]

@[simp] theorem sampleInstant_val (Tb : RealExpr) (N k : Nat) :
    (sampleInstant .reference Tb N k).val = instantReal Tb.val N k := by
  simp [sampleInstant, instantReal]

@[simp] theorem carrierArg_val (Tb fc : RealExpr) (N k : Nat) :
    (carrierArg .reference Tb fc N k).val = 2 * Real.pi * fc.val * instantReal Tb.val N k := by
  simp [carrierArg]

theorem symbolSample_val (Tb fc : RealExpr) (N : Nat) (b : Bit × Bit) (k : Nat) :
    (symbolSample .reference Tb fc N b k).val = symbolReal Tb.val fc.val N b.1 b.2 k := by
  simp [symbolSample, symbolReal, amplitudeScale, ampReal]

/-- QMOD inside its domain, on an even number of bits. -/
theorem exec_qmod {s : State} {e : BitVector} {Tb fc : RealExpr} {N : Nat} (href : s.IsReference) (hTb : 0 < Tb.val)
    (hN : 1 ≤ N) (heven : e.length % 2 = 0) (hbits : s.Fits e.length) (hsamples : s.Fits (e.length / 2 * N)) :
    exec (.qmod e Tb fc N) s = .next (s.answered [.stream (modulate .reference e Tb fc N),
      .reals (timeAxis .reference (e.length / 2) Tb N), .points (constellation e)]) := by
  have hdomain : domainRefusal (.qmod e Tb fc N) s = none := by
    rw [domainRefusal_of_reference href, parameterRefusal, href.arith_eq, if_pos (modulationDomain_reference.2 ⟨hTb, hN⟩)]
  have hc : Completes (.qmod e Tb fc N) s :=
    ⟨by simpa [State.OperandsFit, Instr.operands] using hbits, hdomain, if_neg (not_not.2 heven), rfl⟩
  have hpoints : s.Fits (e.length / 2) := State.fits_of_le (Nat.div_le_self ..) hbits
  rw [hc.exec_of_fits (by simpa [answersOf] using ⟨hsamples, hpoints⟩), answersOf, href.arith_eq]
  rfl

/-- Settles O34, sample by sample, each at its place in its symbol. -/
theorem modulatorSynthesis : Obligations.ModulatorSynthesis := by
  intro s e Tb fc N href hTb hN heven hbits hsamples
  refine ⟨_, _, _, exec_qmod href hTb hN heven hbits hsamples, rfl, length_modulate .., length_timeAxis ..,
    length_constellation e, fun m hm => ⟨?_, fun k hk => ⟨?_, ?_⟩⟩⟩
  · rw [constellation, List.getElem?_map, getElem?_symbolPairs e hm]
    rfl
  · rw [List.getD_eq_getElem?_getD, getElem?_modulate _ e Tb fc hm hk, Option.getD_some, Cplx.ofReal_val, symbolSample_val]
  · rw [List.getD_eq_getElem?_getD, getElem?_timeAxis _ Tb hm hk, Option.getD_some]
    simp

/-! ### The demodulator -/

@[simp] theorem length_demodulate (M : Numerics) (r : List Cplx) (refc refs : List RealExpr) (N K : Nat) :
    (demodulate M r refc refs N K).length = 2 * K := by
  rw [demodulate, length_flatMap_pair, List.length_range]

theorem getD_demodulate (M : Numerics) (r : List Cplx) (refc refs : List RealExpr) (N : Nat) {K m : Nat} (hm : m < K) :
    (demodulate M r refc refs N K).getD (2 * m) false = M.dec (correlation M r refc N m) ∧
      (demodulate M r refc refs N K).getD (2 * m + 1) false = M.dec (correlation M r refs N m) := by
  obtain ⟨h0, h1⟩ := getElem?_flatMap_pair (List.range K) (fun m => M.dec (correlation M r refc N m))
    (fun m => M.dec (correlation M r refs N m)) m
  rw [List.getElem?_range hm] at h0 h1
  rw [demodulate, List.getD_eq_getElem?_getD, List.getD_eq_getElem?_getD, h0, h1]
  exact ⟨rfl, rfl⟩

theorem getD_samplesOf (r : List Cplx) (k : Nat) : (samplesOf r).getD k 0 = (r.getD k .zero).val := by
  rw [samplesOf, ← Cplx.zero_val, List.getD_map]

theorem getD_valsOf (l : List RealExpr) (k : Nat) : (valsOf l).getD k 0 = (l.getD k .zero).val := by
  rw [valsOf, show (0 : ℝ) = RealExpr.zero.val by simp, List.getD_map]

theorem correlation_val (r : List Cplx) (ref : List RealExpr) (N m : Nat) :
    (correlation .reference r ref N m).val = correlationReal (samplesOf r) (valsOf ref) N m := by
  simp only [correlation, correlationReal, Numerics.reference_sumRange_val, Numerics.reference_mul_val, getD_samplesOf,
    getD_valsOf, Cplx.val_re]

theorem operandsFit_qdem_iff {s : State} {w : Stream} {refc refs : List RealExpr} {numBits N : Nat} :
    s.OperandsFit (.qdem w refc refs numBits N) ↔
      s.Fits w.samples.length ∧ s.Fits refc.length ∧ s.Fits refs.length := by
  simp [State.OperandsFit, Instr.operands]

/-- QDEM inside its domain, without an error cause. -/
theorem exec_qdem {s : State} {w : Stream} {refc refs : List RealExpr} {numBits N : Nat} (hN : 1 ≤ N)
    (heven : numBits % 2 = 0) (hrefc : refc.length = N) (hrefs : refs.length = N)
    (hlen : numBits / 2 * N ≤ w.samples.length) (hfit : s.OperandsFit (.qdem w refc refs numBits N))
    (hfinite : s.OperandsFinite (.qdem w refc refs numBits N)) (hbits : s.Fits numBits) :
    exec (.qdem w refc refs numBits N) s =
      .next (s.answered [.ofBits (demodulate s.arith w.samples refc refs N (numBits / 2))]) := by
  have hformat : formatCause (.qdem w refc refs numBits N) = none := by
    simp [formatCause, heven, hrefc, hrefs, hlen]
  have hc : Completes (.qdem w refc refs numBits N) s :=
    ⟨hfit, domainRefusal_eq_none_iff.2 ⟨hfinite, if_pos hN⟩, hformat, rfl⟩
  exact hc.exec_of_fits (by simpa [answersOf, Nat.mul_div_cancel' (Nat.dvd_of_mod_eq_zero heven)] using hbits)

/-- Settles O36: the decision is the sign of the computed correlation wherever that is a finite number. -/
theorem decisionsAsComputed : Obligations.DecisionsAsComputed := by
  intro s w refc refs numBits N hN heven hrefc hrefs hlen hfit hfinite hbits
  refine ⟨_, exec_qdem hN heven hrefc hrefs hlen hfit hfinite hbits, ?_, fun m hm => ?_⟩
  · rw [length_demodulate]
    omega
  · obtain ⟨h0, h1⟩ := getD_demodulate s.arith w.samples refc refs N hm
    rw [h0, h1]
    exact ⟨Numerics.dec_iff, Numerics.dec_iff⟩

/-- Settles O35, as the decisions of the reference, whose correlations are the real ones. -/
theorem demodulatorDecisions : Obligations.DemodulatorDecisions := by
  intro s w refc refs numBits N href hN heven hrefc hrefs hlen hfit hbits
  obtain ⟨bits, hexec, hbitsLen, hdec⟩ :=
    decisionsAsComputed s w refc refs numBits N hN heven hrefc hrefs hlen hfit (href.operandsFinite _) hbits
  refine ⟨bits, hexec, hbitsLen, fun m hm => ?_⟩
  have h := hdec m hm
  simp only [href.arith_eq, Numerics.reference_finite, correlation_val, true_implies] at h
  exact h

/-! ### Scale invariance -/

theorem dec_reference_iff {x : RealExpr} : Numerics.reference.dec x = true ↔ 0 ≤ x.val :=
  Numerics.dec_iff (Numerics.reference_finite x)

/-- A correlation scales with its stream and its reference. -/
theorem correlation_scale_val (c d : RealExpr) (r : List Cplx) (ref : List RealExpr) (N m : Nat) :
    (correlation .reference (r.map (Cplx.scale c)) (ref.map (RealExpr.mul d)) N m).val =
      c.val * d.val * (correlation .reference r ref N m).val := by
  have hsample (k : Nat) : ((r.map (Cplx.scale c)).getD k .zero).re.val = c.val * (r.getD k .zero).re.val := by
    simp only [List.getD_eq_getElem?_getD, List.getElem?_map]
    cases r[k]? <;> simp [Cplx.scale]
  have href (k : Nat) : ((ref.map (RealExpr.mul d)).getD k .zero).val = d.val * (ref.getD k .zero).val := by
    simp only [List.getD_eq_getElem?_getD, List.getElem?_map]
    cases ref[k]? <;> simp
  simp only [correlation, Numerics.reference_sumRange_val, Numerics.reference_mul_val, hsample, href, Finset.mul_sum]
  exact Finset.sum_congr rfl fun k _ => by ring

theorem dec_correlation_scale {c d : RealExpr} (hc : 0 < c.val) (hd : 0 < d.val) (r : List Cplx) (ref : List RealExpr)
    (N m : Nat) : Numerics.reference.dec (correlation .reference (r.map (Cplx.scale c)) (ref.map (RealExpr.mul d)) N m) =
      Numerics.reference.dec (correlation .reference r ref N m) := by
  rw [Bool.eq_iff_iff, dec_reference_iff, dec_reference_iff, correlation_scale_val,
    mul_nonneg_iff_of_pos_left (mul_pos hc hd)]

/-- Settles O37: scaling keeps every length, so every check, and the sign of every correlation. -/
theorem demodulatorScaleInvariant : Obligations.DemodulatorScaleInvariant := by
  intro s kind xs refc refs numBits N c d f href hc hd hf
  have hfit : s.OperandsFit (.qdem ⟨kind, xs.map (Cplx.scale c)⟩ (refc.map (RealExpr.mul d))
      (refs.map (RealExpr.mul f)) numBits N) ↔ s.OperandsFit (.qdem ⟨kind, xs⟩ refc refs numBits N) := by
    simp [operandsFit_qdem_iff]
  by_cases h : s.OperandsFit (.qdem ⟨kind, xs⟩ refc refs numBits N)
  swap
  · rw [exec_of_not_fits h, exec_of_not_fits (mt hfit.1 h)]
  · rw [exec_eq_accept, exec_eq_accept, accept_of_reference href h, accept_of_reference href (hfit.2 h)]
    simp only [outcomeOf, parameterRefusal, formatCause, degenerateCause, answersOf, writtenState, List.length_map,
      href.arith_eq, demodulate, dec_correlation_scale hc hd, dec_correlation_scale hc hf]

/-! ### The demodulator on the modulator's output (42_qpsk.md R129) -/

/-- `Scc`, `Scs` and `Sss` of 42_qpsk.md R129. -/
noncomputable def carrierSum (f g : Nat → ℝ) (N : Nat) : ℝ := ∑ k ∈ Finset.range N, f k * g k

theorem carriersSeparate_iff (Tb fc : ℝ) (N : Nat) :
    carriersSeparate Tb fc N ↔
      |carrierSum (refCosReal Tb fc N) (refSinReal Tb fc N) N| < carrierSum (refCosReal Tb fc N) (refCosReal Tb fc N) N ∧
        |carrierSum (refCosReal Tb fc N) (refSinReal Tb fc N) N| <
          carrierSum (refSinReal Tb fc N) (refSinReal Tb fc N) N := by
  simp only [carriersSeparate, carrierSum, pow_two]

theorem getD_matchingCos_val (Tb fc : RealExpr) {N k : Nat} (hk : k < N) :
    ((matchingCos .reference Tb fc N).getD k .zero).val = refCosReal Tb.val fc.val N k := by
  simp [matchingCos, hk, refCosReal]

theorem getD_matchingSin_val (Tb fc : RealExpr) {N k : Nat} (hk : k < N) :
    ((matchingSin .reference Tb fc N).getD k .zero).val = refSinReal Tb.val fc.val N k := by
  simp [matchingSin, hk, refSinReal]

/-- Symbol `m` of the modulator's output, correlated with a reference, is the sum over both rails. -/
theorem correlation_modulate_val {e : BitVector} {Tb fc : RealExpr} {N m : Nat} {ref : List RealExpr} {f : Nat → ℝ}
    (hm : m < e.length / 2) (href : ∀ k, k < N → (ref.getD k .zero).val = f k) :
    (correlation .reference (modulate .reference e Tb fc N).samples ref N m).val =
      √(2 / Tb.val) * (ampReal (e.getD (2 * m) false) * carrierSum (refCosReal Tb.val fc.val N) f N +
        ampReal (e.getD (2 * m + 1) false) * carrierSum (refSinReal Tb.val fc.val N) f N) := by
  simp only [correlation, Numerics.reference_sumRange_val, Numerics.reference_mul_val, carrierSum, Finset.mul_sum,
    ← Finset.sum_add_distrib]
  refine Finset.sum_congr rfl fun k hk => ?_
  rw [Finset.mem_range] at hk
  rw [href k hk, List.getD_eq_getElem?_getD, getElem?_modulate _ e Tb fc hm hk, Option.getD_some, Cplx.ofReal,
    symbolSample_val, symbolReal, refCosReal, refSinReal]
  ring

/-- The sign test on one rail reads the bit of that rail whatever the other bit is, exactly if the cross talk is
smaller than the rail's own sum. -/
theorem rail_decides_iff (own cross : ℝ) :
    (∀ b c : Bit, (0 ≤ ampReal b * own + ampReal c * cross) ↔ b = true) ↔ |cross| < own := by
  rw [abs_lt]
  constructor
  · intro h
    have h0 := not_le.1 (mt (h false true).1 (by decide))
    have h1 := not_le.1 (mt (h false false).1 (by decide))
    simp only [ampReal, Bool.false_eq_true, if_false, if_true] at h0 h1
    constructor <;> linarith
  · rintro ⟨hlow, hhigh⟩ b c
    cases b <;> cases c <;> simp [ampReal] <;> linarith

theorem ofBits_injective {v w : BitVector} (h : Value.ofBits v = Value.ofBits w) : v = w := by
  have hbits := congrArg Value.toBits h
  rw [toBits_ofBits, toBits_ofBits] at hbits
  exact Except.ok.inj hbits

theorem next_answered_inj {s : State} {vs ws : List Value}
    (h : (.next (s.answered vs) : StepResult) = .next (s.answered ws)) : vs = ws := by
  have hresponse := congrArg responseOf h
  simpa [responseOf] using hresponse

/-- A vector of even length is given by its pairs of bits. -/
theorem eq_of_getD_pairs {v w : BitVector} (hv : v.length % 2 = 0) (hlen : v.length = w.length)
    (h : ∀ m, m < v.length / 2 → v.getD (2 * m) false = w.getD (2 * m) false ∧
      v.getD (2 * m + 1) false = w.getD (2 * m + 1) false) : v = w := by
  refine List.ext_getElem hlen fun i hi hi' => ?_
  rw [← List.getD_eq_getElem v false hi, ← List.getD_eq_getElem w false hi']
  obtain ⟨h0, h1⟩ := h (i / 2) (by omega)
  rcases Nat.mod_two_eq_zero_or_one i with hmod | hmod
  · rwa [show 2 * (i / 2) = i by omega] at h0
  · rwa [show 2 * (i / 2) + 1 = i by omega] at h1

section
variable {Tb fc : RealExpr} {N : Nat}

/-- The I-rail decision of a symbol of the modulator's own output. -/
theorem dec_modulate_cos_iff (hTb : 0 < Tb.val) {e : BitVector} {m : Nat} (hm : m < e.length / 2) :
    Numerics.reference.dec
        (correlation .reference (modulate .reference e Tb fc N).samples (matchingCos .reference Tb fc N) N m) = true ↔
      0 ≤ ampReal (e.getD (2 * m) false) * carrierSum (refCosReal Tb.val fc.val N) (refCosReal Tb.val fc.val N) N +
        ampReal (e.getD (2 * m + 1) false) * carrierSum (refCosReal Tb.val fc.val N) (refSinReal Tb.val fc.val N) N := by
  have hA : 0 < √(2 / Tb.val) := Real.sqrt_pos.2 (div_pos two_pos hTb)
  have hcomm : carrierSum (refSinReal Tb.val fc.val N) (refCosReal Tb.val fc.val N) N =
      carrierSum (refCosReal Tb.val fc.val N) (refSinReal Tb.val fc.val N) N := by simp only [carrierSum, mul_comm]
  rw [dec_reference_iff, correlation_modulate_val hm fun k hk => getD_matchingCos_val Tb fc hk,
    mul_nonneg_iff_of_pos_left hA, hcomm]

/-- The Q-rail decision of a symbol of the modulator's own output. -/
theorem dec_modulate_sin_iff (hTb : 0 < Tb.val) {e : BitVector} {m : Nat} (hm : m < e.length / 2) :
    Numerics.reference.dec
        (correlation .reference (modulate .reference e Tb fc N).samples (matchingSin .reference Tb fc N) N m) = true ↔
      0 ≤ ampReal (e.getD (2 * m + 1) false) * carrierSum (refSinReal Tb.val fc.val N) (refSinReal Tb.val fc.val N) N +
        ampReal (e.getD (2 * m) false) * carrierSum (refCosReal Tb.val fc.val N) (refSinReal Tb.val fc.val N) N := by
  have hA : 0 < √(2 / Tb.val) := Real.sqrt_pos.2 (div_pos two_pos hTb)
  rw [dec_reference_iff, correlation_modulate_val hm fun k hk => getD_matchingSin_val Tb fc hk,
    mul_nonneg_iff_of_pos_left hA, add_comm]

/-- Every vector of even length comes back exactly if both rails decide by themselves. -/
theorem demodulate_modulate_iff (hTb : 0 < Tb.val) :
    (∀ e : BitVector, e.length % 2 = 0 → demodulate .reference (modulate .reference e Tb fc N).samples
      (matchingCos .reference Tb fc N) (matchingSin .reference Tb fc N) N (e.length / 2) = e) ↔
      carriersSeparate Tb.val fc.val N := by
  rw [carriersSeparate_iff, ← rail_decides_iff, ← rail_decides_iff]
  constructor
  · intro h
    have hback (b c : Bit) : demodulate .reference (modulate .reference [b, c] Tb fc N).samples
        (matchingCos .reference Tb fc N) (matchingSin .reference Tb fc N) N 1 = [b, c] := by
      have hpair := h [b, c] (by simp)
      rwa [show [b, c].length / 2 = 1 by simp] at hpair
    refine ⟨fun b c => ?_, fun b c => ?_⟩
    · obtain ⟨h0, -⟩ := getD_demodulate .reference (modulate .reference [b, c] Tb fc N).samples
        (matchingCos .reference Tb fc N) (matchingSin .reference Tb fc N) N (K := 1) (m := 0) one_pos
      have hbit := dec_modulate_cos_iff (fc := fc) (N := N) hTb (e := [b, c]) (m := 0) (by simp)
      rw [← h0, hback b c] at hbit
      exact hbit.symm
    · obtain ⟨-, h1⟩ := getD_demodulate .reference (modulate .reference [c, b] Tb fc N).samples
        (matchingCos .reference Tb fc N) (matchingSin .reference Tb fc N) N (K := 1) (m := 0) one_pos
      have hbit := dec_modulate_sin_iff (fc := fc) (N := N) hTb (e := [c, b]) (m := 0) (by simp)
      rw [← h1, hback c b] at hbit
      exact hbit.symm
  · rintro ⟨hcos, hsin⟩ e heven
    refine eq_of_getD_pairs ?_ ?_ fun m hm => ?_
    · simp
    · rw [length_demodulate]
      omega
    · rw [length_demodulate, Nat.mul_div_cancel_left _ two_pos] at hm
      obtain ⟨h0, h1⟩ := getD_demodulate .reference (modulate .reference e Tb fc N).samples
        (matchingCos .reference Tb fc N) (matchingSin .reference Tb fc N) N hm
      rw [h0, h1]
      exact ⟨Bool.eq_iff_iff.2 ((dec_modulate_cos_iff hTb hm).trans (hcos _ _)),
        Bool.eq_iff_iff.2 ((dec_modulate_sin_iff hTb hm).trans (hsin _ _))⟩

end

/-- Over whole turns that are none at each step, the carriers of twice the frequency sum to 0. -/
theorem sum_exp_eq_zero {N : Nat} {p : Int} (hN : 1 ≤ N) (hp : ¬(N : Int) ∣ 2 * p) :
    ∑ k ∈ Finset.range N, Complex.exp ((2 * (2 * Real.pi * p * k / N) : ℝ) * Complex.I) = 0 := by
  have hN0 : (N : ℂ) ≠ 0 := by exact_mod_cast (by omega : N ≠ 0)
  set ω : ℂ := Complex.exp (2 * (2 * Real.pi * p / N) * Complex.I) with hω
  have hterm (k : Nat) : Complex.exp ((2 * (2 * Real.pi * p * k / N) : ℝ) * Complex.I) = ω ^ k := by
    rw [hω, ← Complex.exp_nat_mul]
    push_cast
    ring_nf
  have hωN : ω ^ N = 1 := by
    rw [hω, ← Complex.exp_nat_mul, Complex.exp_eq_one_iff]
    refine ⟨2 * p, ?_⟩
    push_cast
    field_simp
  have hω1 : ω ≠ 1 := by
    intro h
    obtain ⟨n, hn⟩ := Complex.exp_eq_one_iff.1 h
    refine hp ⟨n, ?_⟩
    have hpi : (Real.pi : ℂ) ≠ 0 := by exact_mod_cast Real.pi_ne_zero
    have hmul : ((2 * p : Int) : ℂ) = ((N * n : Int) : ℂ) := by
      field_simp at hn
      push_cast
      linear_combination hn
    exact_mod_cast hmul
  simp only [hterm]
  rw [geom_sum_eq hω1, hωN, sub_self, zero_div]

/-- With `fc·Tb` an integer `p` and `N` no divisor of `2p`, `Scc = Sss = N/2` and `Scs = 0` (42_qpsk.md R129). -/
theorem carriersSeparate_of_int {Tb fc : ℝ} {N : Nat} {p : Int} (hN : 1 ≤ N) (hint : fc * Tb = p)
    (hp : ¬(N : Int) ∣ 2 * p) : carriersSeparate Tb fc N := by
  have hN0 : (0 : ℝ) < N := by exact_mod_cast hN
  have harg (k : Nat) : 2 * Real.pi * fc * instantReal Tb N k = 2 * Real.pi * p * k / N := by
    rw [instantReal, ← hint]
    ring
  have hzero := sum_exp_eq_zero hN hp
  have hcos : ∑ k ∈ Finset.range N, Real.cos (2 * (2 * Real.pi * p * k / N)) = 0 := by
    have := congrArg Complex.re hzero
    simpa only [Complex.re_sum, Complex.exp_ofReal_mul_I_re, Complex.zero_re] using this
  have hsin : ∑ k ∈ Finset.range N, Real.sin (2 * (2 * Real.pi * p * k / N)) = 0 := by
    have := congrArg Complex.im hzero
    simpa only [Complex.im_sum, Complex.exp_ofReal_mul_I_im, Complex.zero_im] using this
  have hScc : ∑ k ∈ Finset.range N, refCosReal Tb fc N k ^ 2 = N / 2 := by
    simp only [refCosReal, harg, Real.cos_sq, Finset.sum_add_distrib, ← Finset.sum_div, hcos]
    simp
  have hSss : ∑ k ∈ Finset.range N, refSinReal Tb fc N k ^ 2 = N / 2 := by
    simp only [refSinReal, harg, Real.sin_sq_eq_half_sub, Finset.sum_sub_distrib, ← Finset.sum_div, hcos]
    simp
  have hScs : ∑ k ∈ Finset.range N, refCosReal Tb fc N k * refSinReal Tb fc N k = 0 := by
    have hhalf (x : ℝ) : Real.cos x * Real.sin x = Real.sin (2 * x) / 2 := by
      rw [Real.sin_two_mul]
      ring
    simp only [refCosReal, refSinReal, harg, hhalf, ← Finset.sum_div, hsin, zero_div]
  rw [carriersSeparate, hScc, hSss, hScs, abs_zero]
  exact ⟨half_pos hN0, half_pos hN0⟩

/-- Settles O38: QDEM answers the decisions of `demodulate_modulate_iff`. -/
theorem noiselessRoundTrip : Obligations.NoiselessRoundTrip := by
  intro s Tb fc N href hmax hTb hN
  refine ⟨?_, fun p => carriersSeparate_of_int hN⟩
  rw [← demodulate_modulate_iff hTb]
  refine forall₂_congr fun e heven => ?_
  have hqmod := exec_qmod (s := s) (fc := fc) href hTb hN heven (s.fits_of_unbounded hmax _) (s.fits_of_unbounded hmax _)
  have hqdem := exec_qdem (s := s) (w := modulate .reference e Tb fc N) (refc := matchingCos .reference Tb fc N)
    (refs := matchingSin .reference Tb fc N) hN heven (by simp [matchingCos]) (by simp [matchingSin]) (by simp)
    (s.operandsFit_of_unbounded hmax _) (href.operandsFinite _) (s.fits_of_unbounded hmax _)
  rw [href.arith_eq] at hqdem
  constructor
  · rintro ⟨w, time, points, hw, he⟩
    have hwave := next_answered_inj (hqmod.symm.trans hw)
    cases hwave
    have hbits := next_answered_inj (hqdem.symm.trans he)
    exact ofBits_injective (List.cons.inj hbits).1
  · intro h
    rw [h] at hqdem
    exact ⟨_, _, _, hqmod, hqdem⟩

end Sys2Proof.Proofs
end

section
/-! PROOFS. The carrier recovery loop (43_pll.md R140 to R149). -/

namespace Sys2Proof.Proofs

open Sys2Proof.Machine

/-! ### The commands -/

theorem exec_plladv {s : State} {x : Cplx} {fs lbw : RealExpr} (h : domainRefusal (.plladv x fs lbw) s = none) :
    exec (.plladv x fs lbw) s = .next ((s.withPll (pllNext s.arith x fs lbw s.pll)).answered
      [.sample (pllOutput s.arith x fs lbw s.pll), .scalar (pllNext s.arith x fs lbw s.pll).freq]) := by
  have hc : Completes (.plladv x fs lbw) s := ⟨by simp [State.OperandsFit, Instr.operands], h, rfl, rfl⟩
  exact hc.exec_of_fits (by simp [answersOf])

@[simp] theorem length_pllLoop (M : Numerics) (fs lbw : RealExpr) (xs : List Cplx) (p : Pll) :
    (pllLoop M fs lbw xs p).1.length = xs.length := by
  induction xs generalizing p with
  | nil => rfl
  | cons x xs ih => exact congrArg (· + 1) (ih _)

theorem exec_pllrun {s : State} {w : Stream} {fs lbw : RealExpr} (h : domainRefusal (.pllrun w fs lbw) s = none)
    (hfit : s.Fits w.samples.length) :
    exec (.pllrun w fs lbw) s = .next ((s.withPll (pllLoop s.arith fs lbw w.samples s.pll).2).answered
      [.stream ⟨.cplx, (pllLoop s.arith fs lbw w.samples s.pll).1⟩,
        .scalar (pllLoop s.arith fs lbw w.samples s.pll).2.freq]) := by
  have hc : Completes (.pllrun w fs lbw) s := ⟨by simpa [State.OperandsFit, Instr.operands] using hfit, h, rfl, rfl⟩
  exact hc.exec_of_fits (by simpa [answersOf, Stream.make] using hfit)

theorem pllLoop_append (M : Numerics) (fs lbw : RealExpr) (xs ys : List Cplx) (p : Pll) :
    pllLoop M fs lbw (xs ++ ys) p =
      ((pllLoop M fs lbw xs p).1 ++ (pllLoop M fs lbw ys (pllLoop M fs lbw xs p).2).1,
        (pllLoop M fs lbw ys (pllLoop M fs lbw xs p).2).2) := by
  induction xs generalizing p with
  | nil => rfl
  | cons x xs ih => simp only [List.cons_append, pllLoop, ih]

/-! ### Values over the reals -/

@[simp] theorem gainKp_val (lbw : RealExpr) : (gainKp .reference lbw).val = 2 * Real.pi * lbw.val := by
  simp [gainKp]

@[simp] theorem gainKi_val (lbw : RealExpr) : (gainKi .reference lbw).val = (2 * Real.pi * lbw.val) ^ 2 / 4 := by
  simp [gainKi, pow_two]

@[simp] theorem derotate_val (x : Cplx) (phase : RealExpr) :
    (derotate .reference x phase).val = x.val * Complex.exp (-(phase.val * Complex.I)) := by
  simp [derotate]

@[simp] theorem phaseError_val (x : Cplx) (p : Pll) :
    (phaseError .reference x p).val = phaseErrorReal x.val p.val := by
  simp [phaseError, phaseErrorReal, Pll.val]

theorem pllNext_val (x : Cplx) (fs lbw : RealExpr) (p : Pll) :
    (pllNext .reference x fs lbw p).val = pllStepReal fs.val lbw.val x.val p.val := by
  simp [pllNext, pllStepReal, Pll.val]

theorem pllOutput_val (x : Cplx) (fs lbw : RealExpr) (p : Pll) :
    (pllOutput .reference x fs lbw p).val = pllOutReal fs.val lbw.val x.val p.val := by
  rw [pllOutput, derotate_val, pllOutReal, ← pllNext_val]
  rfl

theorem pllLoop_val (fs lbw : RealExpr) (xs : List Cplx) (p : Pll) :
    samplesOf (pllLoop .reference fs lbw xs p).1 = (pllRunReal fs.val lbw.val (samplesOf xs) p.val).1 ∧
      (pllLoop .reference fs lbw xs p).2.val = (pllRunReal fs.val lbw.val (samplesOf xs) p.val).2 := by
  induction xs generalizing p with
  | nil => exact ⟨rfl, rfl⟩
  | cons x xs ih =>
    obtain ⟨hout, hreg⟩ := ih (pllNext .reference x fs lbw p)
    rw [pllNext_val] at hout hreg
    refine ⟨?_, hreg⟩
    rw [samplesOf] at hout ⊢
    rw [pllLoop, List.map_cons, pllOutput_val, hout]
    rfl

theorem norm_derotate (x : Cplx) (phase : RealExpr) : ‖(derotate .reference x phase).val‖ = ‖x.val‖ := by
  rw [derotate_val, norm_mul, ← neg_mul, ← Complex.ofReal_neg, Complex.norm_exp_ofReal_mul_I, mul_one]

theorem norm_pllLoop (fs lbw : RealExpr) (xs : List Cplx) (p : Pll) :
    (pllLoop .reference fs lbw xs p).1.map (fun y => ‖y.val‖) = xs.map fun x => ‖x.val‖ := by
  induction xs generalizing p with
  | nil => rfl
  | cons x xs ih => rw [pllLoop, List.map_cons, List.map_cons, ih, pllOutput, norm_derotate]

theorem domainRefusal_plladv_of_pos {s : State} {x : Cplx} {fs lbw : RealExpr} (href : s.IsReference) (hfs : 0 < fs.val) :
    domainRefusal (.plladv x fs lbw) s = none := by
  rw [domainRefusal_of_reference href, parameterRefusal, href.arith_eq, if_pos (isPos_reference.2 hfs)]

theorem domainRefusal_pllrun_of_pos {s : State} {w : Stream} {fs lbw : RealExpr} (href : s.IsReference)
    (hfs : 0 < fs.val) : domainRefusal (.pllrun w fs lbw) s = none := by
  rw [domainRefusal_of_reference href, parameterRefusal, href.arith_eq, if_pos (isPos_reference.2 hfs)]

/-- Settles O40, assignment by assignment. -/
theorem loopAdvance : Obligations.LoopAdvance := by
  intro s x fs lbw href hfs
  have hexec := exec_plladv (domainRefusal_plladv_of_pos (x := x) (lbw := lbw) href hfs)
  rw [href.arith_eq] at hexec
  exact ⟨_, _, hexec, pllNext_val x fs lbw s.pll, pllOutput_val x fs lbw s.pll⟩

/-- Settles O41, by induction over the stream; each output is its sample turned. -/
theorem loopRun : Obligations.LoopRun := by
  intro s w fs lbw href hfs hfit
  have hexec := exec_pllrun (domainRefusal_pllrun_of_pos (lbw := lbw) href hfs) hfit
  rw [href.arith_eq] at hexec
  obtain ⟨hout, hreg⟩ := pllLoop_val fs lbw w.samples s.pll
  exact ⟨_, _, hexec, hout, hreg, norm_pllLoop fs lbw w.samples s.pll⟩

/-! ### Sample by sample -/

/-- A list of commands begins with one that answers. -/
theorem runAll_cons {i : Instr} {is : List Instr} {s t : State} {vs : List Value}
    (h : exec i s = .next (t.answered vs)) :
    runAll (i :: is) s = (runAll is (t.answered vs)).map fun r => (vs :: r.1, r.2) := by
  rw [runAll, h]
  rfl

/-- The loop over a stream, as one PLLADV a sample. -/
theorem runAll_plladv (fs lbw : RealExpr) (xs : List Cplx) (s : State)
    (h : ∀ x ∈ xs, domainRefusal (.plladv x fs lbw) s = none) :
    ∃ (answers : List (List Value)) (u : State), runAll (xs.map fun x => .plladv x fs lbw) s = some (answers, u) ∧
      answers.map List.head? = (pllLoop s.arith fs lbw xs s.pll).1.map (fun y => some (.sample y)) ∧
      u.pll = (pllLoop s.arith fs lbw xs s.pll).2 := by
  induction xs generalizing s with
  | nil => exact ⟨[], s, rfl, rfl, rfl⟩
  | cons x xs ih =>
    obtain ⟨hx, hxs⟩ := List.forall_mem_cons.1 h
    have hexec := exec_plladv hx
    set vs : List Value := [.sample (pllOutput s.arith x fs lbw s.pll), .scalar (pllNext s.arith x fs lbw s.pll).freq]
    set t := (s.withPll (pllNext s.arith x fs lbw s.pll)).answered vs
    obtain ⟨answers, u, hrun, hanswers, hpll⟩ := ih t fun y hy => (domainRefusal_congr (i := .plladv y fs lbw) rfl nofun).trans (hxs y hy)
    refine ⟨vs :: answers, u, ?_, ?_, hpll⟩
    · rw [List.map_cons, runAll_cons hexec, hrun]
      rfl
    · rw [List.map_cons, hanswers]
      rfl

/-- Settles O42, by the loop's own recursion. -/
theorem loopRunIsAdvances : Obligations.LoopRunIsAdvances := by
  intro s w fs lbw hrun hadv hfit
  obtain ⟨answers, u, hall, hanswers, hpll⟩ := runAll_plladv fs lbw w.samples s hadv
  refine ⟨answers, u, _, hall, hanswers, ?_⟩
  rw [exec_pllrun hrun hfit, hpll]

theorem domainRefusal_pllrun_of_subset {s : State} {kind : Kind} {xs ys : List Cplx} {fs lbw : RealExpr}
    (hsub : xs ⊆ ys) (h : domainRefusal (.pllrun ⟨kind, ys⟩ fs lbw) s = none) :
    domainRefusal (.pllrun ⟨kind, xs⟩ fs lbw) s = none := by
  obtain ⟨hfinite, hparameter⟩ := domainRefusal_eq_none_iff.1 h
  refine domainRefusal_eq_none_iff.2 ⟨fun x hx => hfinite x ?_, hparameter⟩
  simp only [Instr.numbers, Stream.numbers, List.mem_append, List.mem_flatMap] at hx ⊢
  exact hx.imp_left fun ⟨z, hz, hxz⟩ => ⟨z, hsub hz, hxz⟩

/-- Settles O43: the loop starts from the registers as they are. -/
theorem loopRunSplits : Obligations.LoopRunSplits := by
  intro s kind xs ys fs lbw h hfit
  have hxs := exec_pllrun (domainRefusal_pllrun_of_subset (List.subset_append_left xs ys) h)
    (State.fits_of_le (Nat.le_add_right ..) hfit)
  set t1 := (s.withPll (pllLoop s.arith fs lbw xs s.pll).2).answered
    [.stream ⟨.cplx, (pllLoop s.arith fs lbw xs s.pll).1⟩, .scalar (pllLoop s.arith fs lbw xs s.pll).2.freq]
  have hys := exec_pllrun (s := t1) (w := ⟨kind, ys⟩) (fs := fs) (lbw := lbw)
    ((domainRefusal_congr (i := .pllrun ⟨kind, ys⟩ fs lbw) rfl nofun).trans (domainRefusal_pllrun_of_subset (List.subset_append_right xs ys) h))
    (State.fits_of_le (Nat.le_add_left ..) hfit)
  refine ⟨t1, _, _, _, hxs, hys, rfl, rfl, ?_⟩
  rw [exec_pllrun h (by simpa using hfit), pllLoop_append]
  rfl

/-! ### Two cases of the update -/

/-- Settles O44: either the phase error is 0 or both gains are. -/
theorem loopCoasts : Obligations.LoopCoasts := by
  intro s x fs lbw href hfs hzero
  obtain ⟨p, y, hexec, hp, -⟩ := loopAdvance s x fs lbw href hfs
  have herror : 2 * Real.pi * lbw.val * phaseErrorReal x.val s.pll.val = 0 := by
    rcases hzero with h | h
    · simp [phaseErrorReal, h]
    · simp [h]
  have hKi : (2 * Real.pi * lbw.val) ^ 2 / 4 * phaseErrorReal x.val s.pll.val = 0 := by
    linear_combination (2 * Real.pi * lbw.val) / 4 * herror
  have hinteg := congrArg PllReal.integ hp
  have hfreq := congrArg PllReal.freq hp
  have hphase := congrArg PllReal.phase hp
  simp only [pllStepReal, herror, hKi, add_zero] at hinteg hfreq hphase
  exact ⟨p, y, hexec, hinteg, hfreq, hphase⟩

theorem arg_exp_of_mem {φ : ℝ} (h1 : -Real.pi < φ) (h2 : φ ≤ Real.pi) : Complex.arg (Complex.exp (φ * Complex.I)) = φ := by
  rw [Complex.exp_mul_I, Complex.arg_cos_add_sin_mul_I ⟨h1, h2⟩]

/-- Settles O45: with the phase at 0 the error is the offset itself. -/
theorem loopPureOffset : Obligations.LoopPureOffset := by
  intro s x fs lbw φ href hfs hpll h1 h2 hx
  obtain ⟨p, y, hexec, hp, hy⟩ := loopAdvance s x fs lbw href hfs
  have herror : phaseErrorReal x.val s.pll.val = φ := by
    simp [phaseErrorReal, hpll, hx, arg_exp_of_mem h1 h2]
  rw [pllOutReal, ← hp, hx, ← Complex.exp_add] at hy
  rw [pllStepReal, herror, hpll] at hp
  have hinteg := congrArg PllReal.integ hp
  have hfreq := congrArg PllReal.freq hp
  have hphase := congrArg PllReal.phase hp
  simp only [zero_add] at hinteg hfreq hphase
  rw [← add_mul] at hfreq hphase
  refine ⟨p, y, hexec, hinteg, hfreq, hphase, ?_⟩
  rw [hy, hphase]
  push_cast
  ring_nf

end Sys2Proof.Proofs
end

section
/-! PROOFS. The gain control (44_conditioner.md R161 to R164). -/

namespace Sys2Proof.Proofs

open Sys2Proof.Machine

/-! ### Result streams -/

@[simp] theorem make_kind (kind : Kind) (ys : List Cplx) : (Stream.make kind ys).kind = kind := by
  cases kind <;> rfl

@[simp] theorem length_make (kind : Kind) (ys : List Cplx) : (Stream.make kind ys).samples.length = ys.length := by
  cases kind <;> simp [Stream.make]

theorem make_eq (kind : Kind) (ys : List Cplx) : Stream.make kind ys = ⟨kind, (Stream.make kind ys).samples⟩ := by
  cases kind <;> rfl

/-- Samples without imaginary parts stand in a REAL result with their values, and any samples in a CPLX one. -/
theorem samplesOf_make {kind : Kind} {ys : List Cplx} (h : kind = .real → ∀ y ∈ ys, y.im.val = 0) :
    samplesOf (Stream.make kind ys).samples = samplesOf ys := by
  cases kind with
  | cplx => rfl
  | real =>
    simp only [Stream.make, samplesOf, List.map_map]
    refine List.map_congr_left fun y hy => Complex.ext ?_ ?_
    · simp
    · simp [h rfl y hy]

/-! ### The peak -/

/-- The larger of `m` and every magnitude of a list. -/
def peakFrom (m : RealExpr) (xs : List Cplx) : RealExpr :=
  xs.foldl (fun m z => Numerics.reference.max m (Numerics.reference.cabs z)) m

theorem peak_reference (z : Cplx) (zs : List Cplx) :
    peak .reference z zs = peakFrom (Numerics.reference.cabs z) zs := rfl

theorem peakFrom_val (m : RealExpr) (xs : List Cplx) :
    m.val ≤ (peakFrom m xs).val ∧ (∀ x ∈ xs, ‖x.val‖ ≤ (peakFrom m xs).val) ∧
      ((peakFrom m xs).val = m.val ∨ ∃ x ∈ xs, ‖x.val‖ = (peakFrom m xs).val) := by
  induction xs generalizing m with
  | nil => exact ⟨le_rfl, nofun, .inl rfl⟩
  | cons x xs ih =>
    obtain ⟨hstart, hall, hattained⟩ := ih (Numerics.reference.max m (Numerics.reference.cabs x))
    rw [Numerics.reference_max_val, Numerics.reference_cabs_val] at hstart hattained
    obtain ⟨hm, hx⟩ := max_le_iff.1 hstart
    refine ⟨hm, List.forall_mem_cons.2 ⟨hx, hall⟩, ?_⟩
    rcases hattained with heq | ⟨y, hy, heq⟩
    · rcases max_choice m.val ‖x.val‖ with hmax | hmax
      · exact .inl (heq.trans hmax)
      · exact .inr ⟨x, List.mem_cons_self, (heq.trans hmax).symm⟩
    · exact .inr ⟨y, List.mem_cons_of_mem x hy, heq⟩

/-- The peak is the greatest magnitude. -/
theorem peak_val (z : Cplx) (zs : List Cplx) :
    (∀ x ∈ z :: zs, ‖x.val‖ ≤ (peak .reference z zs).val) ∧ ∃ x ∈ z :: zs, ‖x.val‖ = (peak .reference z zs).val := by
  rw [peak_reference]
  obtain ⟨hstart, hall, hattained⟩ := peakFrom_val (Numerics.reference.cabs z) zs
  rw [Numerics.reference_cabs_val] at hstart hattained
  refine ⟨List.forall_mem_cons.2 ⟨hstart, hall⟩, ?_⟩
  rcases hattained with heq | ⟨y, hy, heq⟩
  · exact ⟨z, List.mem_cons_self, heq.symm⟩
  · exact ⟨y, List.mem_cons_of_mem z hy, heq⟩

theorem isZero_peak_iff {z : Cplx} {zs : List Cplx} :
    Numerics.reference.isZero (peak .reference z zs) = true ↔ ∀ x ∈ z :: zs, x.val = 0 := by
  obtain ⟨hall, x, hx, heq⟩ := peak_val z zs
  rw [Numerics.isZero_iff (Numerics.reference_finite _)]
  constructor
  · intro h y hy
    exact norm_le_zero_iff.1 (h ▸ hall y hy)
  · intro h
    rw [← heq, h x hx, norm_zero]

/-! ### The command -/

theorem operandsFit_agc {s : State} {w : Stream} {target : RealExpr} (h : s.Fits w.samples.length) :
    s.OperandsFit (.agc w target) := by
  simpa [State.OperandsFit, Instr.operands] using h

/-- AGC on a signal that is not all zero. -/
theorem exec_agc {s : State} {kind : Kind} {z : Cplx} {zs : List Cplx} {target : RealExpr} (href : s.IsReference)
    (hfit : s.Fits (z :: zs).length) (h : ∃ x ∈ z :: zs, x.val ≠ 0) :
    exec (.agc ⟨kind, z :: zs⟩ target) s = .next (s.answered [.stream (.make kind
      ((z :: zs).map (Numerics.reference.cscale (Numerics.reference.div target (peak .reference z zs)))))]) := by
  have hdegenerate : degenerateCause (.agc ⟨kind, z :: zs⟩ target) s = none := by
    rw [degenerateCause, href.arith_eq]
    refine if_neg fun hzero => ?_
    obtain ⟨x, hx, hne⟩ := h
    exact hne (isZero_peak_iff.1 hzero x hx)
  have hc : Completes (.agc ⟨kind, z :: zs⟩ target) s :=
    ⟨operandsFit_agc hfit, domainRefusal_of_reference href _, rfl, hdegenerate⟩
  rw [hc.exec_of_fits (by simpa [answersOf, gainAnswer] using hfit)]
  simp only [answersOf, gainAnswer, href.arith_eq]
  rfl

/-- Settles O46, by the value of the peak. -/
theorem gainNormalises : Obligations.GainNormalises := by
  intro s kind xs target href hfit hwf
  have hdomain := domainRefusal_of_reference href (.agc ⟨kind, xs⟩ target)
  refine ⟨?_, ?_, ?_⟩
  · rintro rfl
    exact exec_of_degenerateCause (operandsFit_agc hfit) hdomain rfl
  · intro hne hzero
    obtain ⟨z, zs, rfl⟩ := List.exists_cons_of_ne_nil hne
    refine exec_of_degenerateCause (operandsFit_agc hfit) hdomain ?_
    rw [degenerateCause, href.arith_eq]
    exact if_pos (isZero_peak_iff.2 hzero)
  · intro hex
    obtain ⟨x, hx, hxne⟩ := hex
    obtain ⟨z, zs, rfl⟩ := List.exists_cons_of_ne_nil (List.ne_nil_of_mem hx)
    obtain ⟨hall, hattained⟩ := peak_val z zs
    have hexec := exec_agc (kind := kind) (target := target) href hfit ⟨x, hx, hxne⟩
    rw [make_eq] at hexec
    refine ⟨_, _, hexec, (norm_pos_iff.2 hxne).trans_le (hall x hx), hall, hattained, ?_⟩
    rw [samplesOf_make fun hreal y hy => ?_]
    · simp [samplesOf]
    · obtain ⟨x, hx, rfl⟩ := List.mem_map.1 hy
      have him := Stream.wellFormed_iff.1 hwf hreal x hx
      rw [← Cplx.val_im, Numerics.reference_cscale_val]
      simp [him]

/-- Settles O47: every sample is scaled by the target over the peak. -/
theorem gainPeak : Obligations.GainPeak := by
  intro s kind xs target href hfit hwf hex
  obtain ⟨-, -, hgain⟩ := gainNormalises s kind xs target href hfit hwf
  obtain ⟨out, mx, hexec, hpos, hall, ⟨x₀, hx₀, hmax⟩, hout⟩ := hgain hex
  have hnorm (x : Cplx) : ‖((target.val / mx : ℝ) : ℂ) * x.val‖ = |target.val| / mx * ‖x.val‖ := by
    rw [norm_mul, Complex.norm_real, Real.norm_eq_abs, abs_div, abs_of_pos hpos]
  have hpeak (x : Cplx) (hx : ‖x.val‖ = mx) : ‖((target.val / mx : ℝ) : ℂ) * x.val‖ = |target.val| := by
    rw [hnorm, hx, div_mul_cancel₀ _ hpos.ne']
  have hlen : out.length = xs.length := by simpa [samplesOf] using congrArg List.length hout
  have hsample (k : Nat) : (out.getD k .zero).val = ((target.val / mx : ℝ) : ℂ) * (xs.getD k .zero).val := by
    rw [← getD_samplesOf, hout, ← List.getD_map (f := fun x : Cplx => ((target.val / mx : ℝ) : ℂ) * x.val), Cplx.zero_val,
      mul_zero]
  have hmem (y : Cplx) (hy : y ∈ out) : ∃ x ∈ xs, y.val = ((target.val / mx : ℝ) : ℂ) * x.val := by
    have : y.val ∈ samplesOf out := List.mem_map_of_mem hy
    rw [hout] at this
    obtain ⟨x, hx, heq⟩ := List.mem_map.1 this
    exact ⟨x, hx, heq.symm⟩
  refine ⟨out, hexec, hlen, ?_, ?_, ?_, ?_⟩
  · intro y hy
    obtain ⟨x, hx, heq⟩ := hmem y hy
    rw [heq, hnorm]
    calc |target.val| / mx * ‖x.val‖ ≤ |target.val| / mx * mx := by gcongr; exact hall x hx
      _ = |target.val| := div_mul_cancel₀ _ hpos.ne'
  · have : ((target.val / mx : ℝ) : ℂ) * x₀.val ∈ samplesOf out := hout ▸ List.mem_map_of_mem hx₀
    obtain ⟨y, hy, heq⟩ := List.mem_map.1 this
    exact ⟨y, hy, by rw [heq, hpeak x₀ hmax]⟩
  · intro k hk hgreatest
    rw [hsample k]
    refine hpeak _ (le_antisymm (hall _ ?_) ?_)
    · rw [List.getD_eq_getElem _ _ hk]
      exact List.getElem_mem hk
    · exact hmax ▸ hgreatest x₀ hx₀
  · intro htarget k _
    rw [hsample k, Complex.arg_real_mul _ (div_pos htarget hpos)]

end Sys2Proof.Proofs
end

section
/-! PROOFS. The noise source (45_channel.md R191 to R195), two runs under one seed, and the kinds of result streams
(20_memory.md R52). -/

namespace Sys2Proof.Proofs

open Sys2Proof.Machine

/-! ### The noise level -/

@[simp] theorem noiseStd_val (x : RealExpr) : (noiseStd .reference x).val = noiseStdReal x.val := by
  simp [noiseStd, noiseStdReal]

theorem noiseStdReal_pos (x : ℝ) : 0 < noiseStdReal x := Real.sqrt_pos.2 (by positivity)

theorem noiseStdReal_strictAnti : StrictAnti noiseStdReal := by
  intro x y h
  have hpow : (10 : ℝ) ^ (x / 10) < (10 : ℝ) ^ (y / 10) := Real.rpow_lt_rpow_of_exponent_lt (by norm_num) (by linarith)
  have hpos : (0 : ℝ) < (10 : ℝ) ^ (x / 10) := by positivity
  refine Real.sqrt_lt_sqrt (by positivity) ?_
  exact one_div_lt_one_div_of_lt (by positivity) (by linarith)

/-- Settles O57, by the value of the formula. -/
theorem noiseLevel : Obligations.NoiseLevel := by
  intro x y
  simp only [noiseStd_val]
  exact ⟨trivial, noiseStdReal_pos x.val, fun h => noiseStdReal_strictAnti h⟩

/-! ### Noise added -/

@[simp] theorem length_addNoise (M : Numerics) (w : Stream) (x : RealExpr) (seed c : Nat) :
    (addNoise M w x seed c).samples.length = w.samples.length := by
  simp [addNoise]

theorem exec_awgn {s : State} {w : Stream} {x : RealExpr} (href : s.IsReference) (hfit : s.Fits w.samples.length) :
    exec (.awgn w x) s = .next ((s.withCount (s.rng.count + drawsFor w)).answered
      [.stream (addNoise .reference w x s.rng.seed s.rng.count)]) := by
  have hc : Completes (.awgn w x) s := ⟨by simpa [State.OperandsFit, Instr.operands] using hfit,
    domainRefusal_of_reference href _, rfl, rfl⟩
  rw [hc.exec_of_fits (by simpa [answersOf] using hfit), answersOf, href.arith_eq]
  rfl

theorem noisySample_real_val (x : RealExpr) (seed c : Nat) (z : Cplx) (i : Nat) :
    (noisySample .reference .real (noiseStd .reference x) seed c z i).val =
      z.val + noiseStdReal x.val * Config.gauss seed (c + i) := by
  apply Complex.ext <;> simp [noisySample, scaledDraw]

theorem noisySample_cplx_val (x : RealExpr) (seed c : Nat) (z : Cplx) (i : Nat) :
    (noisySample .reference .cplx (noiseStd .reference x) seed c z i).val =
      z.val + (noiseStdReal x.val * Config.gauss seed (c + 2 * i) +
        Complex.I * (noiseStdReal x.val * Config.gauss seed (c + 2 * i + 1))) := by
  rw [noisySample, Numerics.reference_cadd_val]
  congr 1
  apply Complex.ext <;> simp [scaledDraw]

/-- Sample `i` of the noisy stream has the value of the noisy sample `i`. -/
theorem getD_addNoise_val {w : Stream} (hwf : w.wellFormed = true) (x : RealExpr) (seed c : Nat) {i : Nat}
    (hi : i < w.samples.length) : ((addNoise .reference w x seed c).samples.getD i .zero).val =
      (noisySample .reference w.kind (noiseStd .reference x) seed c (w.samples.getD i .zero) i).val := by
  rw [← getD_samplesOf, addNoise, samplesOf_make, getD_samplesOf]
  · simp [hi]
  · intro hreal y hy
    obtain ⟨k, hk, rfl⟩ := List.mem_mapIdx.1 hy
    rw [hreal]
    exact Stream.wellFormed_iff.1 hwf hreal w.samples[k] (List.getElem_mem hk)

/-- Settles O55, sample by sample. -/
theorem noiseAdded : Obligations.NoiseAdded := by
  intro s w x href hwf hfit
  have hexec := exec_awgn (x := x) href hfit
  have hstream : addNoise .reference w x s.rng.seed s.rng.count =
      ⟨w.kind, (addNoise .reference w x s.rng.seed s.rng.count).samples⟩ := make_eq ..
  rw [hstream] at hexec
  refine ⟨_, hexec, length_addNoise .., fun i hi => ?_⟩
  rw [getD_addNoise_val hwf x _ _ hi]
  constructor
  · intro hreal
    rw [hreal, noisySample_real_val]
  · intro hcplx
    rw [hcplx, noisySample_cplx_val]

/-! ### Two runs under one seed -/

theorem exec_rngseed (s : State) (n : Nat) : exec (.rngseed n) s = .next ((s.withRng ⟨n, 0⟩).answered []) := by
  have hc : Completes (.rngseed n) s :=
    ⟨by simp [State.OperandsFit, Instr.operands], domainRefusal_of_no_numbers rfl rfl, rfl, rfl⟩
  exact hc.exec_of_fits nofun

theorem exec_ne_fault (i : Instr) (s : State) (f : Fault) : exec i s ≠ .fault f := nomatch f

/-- A register group after a command, where it was equal before if read or kept. -/
theorem group_eq_after {α : Type} {writes : Bool} {g g' h h' : α} (hwrites : writes = true → h = h')
    (hkeep : writes = false → h = g) (hkeep' : writes = false → h' = g') (heq : g = g') : h = h' := by
  cases writes with
  | true => exact hwrites rfl
  | false => rw [hkeep rfl, hkeep' rfl, heq]

theorem map_results_cons {o o' : Option (List (List Value) × State)} (vs : List Value)
    (h : o.map (fun r => (r.1, r.2.rng)) = o'.map fun r => (r.1, r.2.rng)) :
    (o.map fun r => (vs :: r.1, r.2)).map (fun r => (r.1, r.2.rng)) =
      (o'.map fun r => (vs :: r.1, r.2)).map fun r => (r.1, r.2.rng) := by
  have hcons := congrArg (Option.map fun q => (vs :: q.1, q.2)) h
  simpa only [Option.map_map, Function.comp_def] using hcons

/-- Runs from states that agree on the noise source and on whatever the commands read give the same results. -/
theorem runAll_congr (is : List Instr) (s s' : State) (hmax : s.maxLen = s'.maxLen) (hnum : s.num = s'.num)
    (hrng : s.rng = s'.rng) (hpll : ∀ i ∈ is, readsPll i = true → s.pll = s'.pll)
    (hlpf : ∀ i ∈ is, readsLpf i = true → s.lpf = s'.lpf) :
    (runAll is s).map (fun r => (r.1, r.2.rng)) = (runAll is s').map fun r => (r.1, r.2.rng) := by
  induction is generalizing s s' with
  | nil => simp [runAll, hrng]
  | cons i is ih =>
    obtain ⟨hpll₀, hpll⟩ := List.forall_mem_cons.1 hpll
    obtain ⟨hlpf₀, hlpf⟩ := List.forall_mem_cons.1 hlpf
    obtain ⟨hresponse, hrefused, hnext⟩ := groupsRead i s s' hmax hnum hpll₀ hlpf₀ fun _ => hrng
    cases h : exec i s with
    | fault f => exact absurd h (exec_ne_fault i s f)
    | refused r => simp only [runAll, h, (hrefused r).1 h]
    | next t =>
      cases h' : exec i s' with
      | fault f => exact absurd h' (exec_ne_fault i s' f)
      | refused r =>
        rw [(hrefused r).2 h'] at h
        cases h
      | next t' =>
        obtain ⟨wpll, wlpf, wrng⟩ := hnext t t' h h'
        obtain ⟨kpll, klpf, krng, kmax, knum, -⟩ := groupsWritten i s t h
        obtain ⟨kpll', klpf', krng', kmax', knum', -⟩ := groupsWritten i s' t' h'
        have hresults : resultsOf (.next t) = resultsOf (.next t') := by
          rw [h, h'] at hresponse
          simp only [resultsOf, hresponse]
        have hrest := ih t t' (by rw [kmax, kmax', hmax]) (by rw [knum, knum', hnum])
          (group_eq_after wrng krng krng' hrng)
          (fun j hj hread => group_eq_after wpll kpll kpll' (hpll j hj hread))
          (fun j hj hread => group_eq_after wlpf klpf klpf' (hlpf j hj hread))
        simp only [runAll, h, h', ← hresults]
        cases resultsOf (.next t) with
        | none => rfl
        | some vs => exact map_results_cons vs hrest

/-- Settles O56: after the seeding the two runs agree on the noise source. -/
theorem noiseSeeded : Obligations.NoiseSeeded := by
  refine ⟨exec_rngseed, fun s s' n is hmax hnum hpll hlpf => ?_⟩
  rw [runAll_cons (exec_rngseed s n), runAll_cons (exec_rngseed s' n)]
  exact map_results_cons [] (runAll_congr is _ _ hmax hnum rfl hpll hlpf)

/-! ### Kinds of result streams -/

theorem wellFormed_make (kind : Kind) (ys : List Cplx) : (Stream.make kind ys).wellFormed = true := by
  rw [Stream.wellFormed_iff]
  cases kind with
  | cplx => nofun
  | real =>
    intro _ z hz
    obtain ⟨y, -, rfl⟩ := List.mem_map.1 hz
    simp [Cplx.ofReal]

theorem wellFormed_modulate (M : Numerics) (e : BitVector) (Tb fc : RealExpr) (N : Nat) :
    (modulate M e Tb fc N).wellFormed = true := by
  rw [Stream.wellFormed_iff]
  intro _ z hz
  simp only [modulate, List.mem_flatMap, List.mem_map] at hz
  obtain ⟨b, -, k, -, rfl⟩ := hz
  simp [Cplx.ofReal]

@[simp] theorem length_filterLoop (M : Numerics) (xs : List Cplx) (l : Lpf) :
    (filterLoop M xs l).1.length = xs.length := by
  induction xs generalizing l with
  | nil => rfl
  | cons x xs ih => exact congrArg (· + 1) (ih _)

/-- Settles O54, by the stream that each of the five instructions makes. -/
theorem realStreamsStayReal : Obligations.RealStreamsStayReal := by
  intro s t w e x c fs n i vs y hi hexec hresponse hhead
  obtain rfl : vs = answersOf i s := by
    obtain ⟨n, -, rfl⟩ | ⟨n, -, rfl⟩ | ⟨-, -, rfl⟩ := exec_next_cases hexec
    · simp at hresponse
    · simp at hresponse
    · simpa using hresponse.symm
  simp only [List.mem_cons, List.not_mem_nil, or_false] at hi
  obtain rfl | rfl | rfl | rfl | rfl := hi
  · obtain ⟨kind, _ | ⟨z, zs⟩⟩ := w
    · cases hhead
    · obtain rfl := Value.stream.inj (Option.some.inj hhead)
      exact ⟨wellFormed_make .., fun _ => ⟨make_kind .., by simp [Stream.length]⟩, nofun, nofun⟩
  · obtain rfl := Value.stream.inj (Option.some.inj hhead)
    exact ⟨wellFormed_make .., fun _ => ⟨make_kind .., by simp [Stream.length]⟩, nofun, nofun⟩
  · obtain rfl := Value.stream.inj (Option.some.inj hhead)
    exact ⟨wellFormed_make .., fun _ => ⟨make_kind .., by simp [Stream.length]⟩, nofun, nofun⟩
  · obtain rfl := Value.stream.inj (Option.some.inj hhead)
    exact ⟨wellFormed_make .., by simp, fun _ => ⟨make_kind .., by simp [Stream.length]⟩, nofun⟩
  · obtain rfl := Value.stream.inj (Option.some.inj hhead)
    exact ⟨wellFormed_modulate .., by simp, nofun, fun _ => rfl⟩

end Sys2Proof.Proofs
end

section
/-! PROOFS. Bit errors, the sweep against its written-out commands (46_ber.md R201 to R206), and the text codec
(47_boundaries.md R215, R216). -/

namespace Sys2Proof.Proofs

open Sys2Proof.Machine

/-! ### Bit errors -/

theorem bitErrors_eq_card {o d : BitVector} (h : o.length ≤ d.length) :
    bitErrors o d = ((Finset.range o.length).filter fun i => o.getD i false ≠ d.getD i false).card := by
  rw [Finset.card_filter]
  induction o generalizing d with
  | nil => rfl
  | cons b o ih =>
    cases d with
    | nil => simp at h
    | cons c d =>
      rw [bitErrors, ih (Nat.le_of_succ_le_succ h), List.length_cons, Finset.sum_range_succ']
      simp [Nat.add_comm]

theorem bitErrors_eq_zero_iff {o d : BitVector} (h : o.length ≤ d.length) :
    bitErrors o d = 0 ↔ d.take o.length = o := by
  induction o generalizing d with
  | nil => simp [bitErrors]
  | cons b o ih =>
    cases d with
    | nil => simp at h
    | cons c d =>
      rw [bitErrors, Nat.add_eq_zero_iff, ih (Nat.le_of_succ_le_succ h), List.length_cons, List.take_succ_cons,
        List.cons.injEq]
      simp [eq_comm]

theorem bitErrors_le_length (o d : BitVector) : bitErrors o d ≤ o.length := by
  induction o generalizing d with
  | nil => simp [bitErrors]
  | cons b o ih =>
    cases d with
    | nil => simp [bitErrors]
    | cons c d =>
      rw [bitErrors, List.length_cons]
      have := ih d
      split_ifs <;> omega

theorem exec_bercmp {s : State} {o d : BitVector} (ho : 1 ≤ o.length) (hd : o.length ≤ d.length)
    (hfit : s.Fits d.length) : exec (.bercmp o d) s =
      .next (s.answered [.ofNat (bitErrors o d), .scalar (.rat (bitErrorRate o d))]) := by
  have hfits : s.OperandsFit (.bercmp o d) := by
    simpa [State.OperandsFit, Instr.operands] using ⟨State.fits_of_le hd hfit, hfit⟩
  have hformat : formatCause (.bercmp o d) = none := by
    rw [formatCause, if_neg (by omega), if_neg (by omega)]
  have hc : Completes (.bercmp o d) s := ⟨hfits, domainRefusal_of_no_numbers rfl rfl, hformat, rfl⟩
  exact hc.exec_of_fits (by simp [answersOf])

/-- Settles O58, by the number of positions that differ. -/
theorem bitErrorsCounted : Obligations.BitErrorsCounted := by
  intro s o d ho hd hfit
  have hpos : (0 : ℚ) < o.length := by exact_mod_cast ho
  have hle : (bitErrors o d : ℚ) ≤ o.length := by exact_mod_cast bitErrors_le_length o d
  rw [← bitErrors_eq_card hd]
  refine ⟨bitErrorRate o d, exec_bercmp ho hd hfit, rfl, ?_, ?_, ?_⟩
  · exact div_nonneg (Nat.cast_nonneg _) hpos.le
  · exact (div_le_one hpos).2 hle
  · rw [← bitErrors_eq_zero_iff hd, bitErrorRate, div_eq_zero_iff, Nat.cast_eq_zero, or_iff_left hpos.ne']

/-! ### The sweep -/

/-- One command that answers, as a list of its own. -/
theorem runAll_singleton {i : Instr} {s t : State} {vs : List Value} (h : exec i s = .next (t.answered vs)) :
    runAll [i] s = some ([vs], t.answered vs) := by
  rw [runAll_cons h]
  rfl

/-- One sweep point, as its four commands. -/
theorem sweepByCommands_cons {w : Stream} {refc refs : List RealExpr} {numBits N : Nat} {original : BitVector}
    {x : RealExpr} {xs : List RealExpr} {s : State} (href : s.IsReference) (hmax : s.maxLen = none) (hN : 1 ≤ N)
    (htwo : numBits % 2 = 0) (hseven : numBits % 7 = 0) (hrefc : refc.length = N) (hrefs : refs.length = N)
    (hw : numBits / 2 * N ≤ w.samples.length) (ho : 1 ≤ original.length) (hd : original.length ≤ 4 * numBits / 7) :
    ∃ t : State, t.rng = ⟨s.rng.seed, s.rng.count + drawsFor w⟩ ∧ t.num = s.num ∧ t.maxLen = s.maxLen ∧
      sweepByCommands w refc refs numBits N original (x :: xs) s =
        (sweepByCommands w refc refs numBits N original xs t).map fun r =>
          (sweepPoint .reference w refc refs N numBits original s.rng.seed s.rng.count x :: r.1, r.2) := by
  have hawgn := runAll_singleton (exec_awgn (w := w) (x := x) href (s.fits_of_unbounded hmax _))
  set noisy := addNoise .reference w x s.rng.seed s.rng.count
  set s1 := (s.withCount (s.rng.count + drawsFor w)).answered [.stream noisy]
  have href1 : s1.IsReference := href
  have hmax1 : s1.maxLen = none := hmax
  have hqdem := runAll_singleton (exec_qdem (s := s1) (w := noisy) hN htwo hrefc hrefs (by simpa [noisy] using hw)
    (s1.operandsFit_of_unbounded hmax1 _) (href1.operandsFinite _) (s1.fits_of_unbounded hmax1 _))
  rw [href1.arith_eq] at hqdem
  set bits := demodulate .reference noisy.samples refc refs N (numBits / 2)
  have hbits : bits.length = numBits := by
    simp only [bits, length_demodulate]
    omega
  set s2 := s1.answered [.ofBits bits]
  have hmax2 : s2.maxLen = none := hmax
  have hhdec := runAll_singleton (exec_hdec (s := s2) (e := bits) (by rw [hbits, hseven]) (s2.fits_of_unbounded hmax2 _))
  set s3 := s2.answered [.ofBits (hammingDecode bits), .positions (hammingPositions bits)]
  have hmax3 : s3.maxLen = none := hmax
  have hdecoded : original.length ≤ (hammingDecode bits).length := by
    rw [length_hammingDecode, hbits]
    omega
  have hbercmp := runAll_singleton (exec_bercmp (s := s3) ho hdecoded (s3.fits_of_unbounded hmax3 _))
  set s4 := s3.answered [.ofNat (bitErrors original (hammingDecode bits)),
    .scalar (.rat (bitErrorRate original (hammingDecode bits)))]
  refine ⟨s4, rfl, rfl, rfl, ?_⟩
  rw [sweepByCommands]
  simp only [hawgn, hqdem, Value.ofBits, digitBits_digits, hhdec, hbercmp, Value.ofNat, Option.bind_eq_bind, Option.bind_some]
  cases sweepByCommands w refc refs numBits N original xs s4 <;> rfl

/-- The written-out loop draws and decides as the sweep does, point by point. -/
theorem sweepByCommands_eq {w : Stream} {refc refs : List RealExpr} {numBits N : Nat} {original : BitVector}
    (hN : 1 ≤ N) (htwo : numBits % 2 = 0) (hseven : numBits % 7 = 0) (hrefc : refc.length = N) (hrefs : refs.length = N)
    (hw : numBits / 2 * N ≤ w.samples.length) (ho : 1 ≤ original.length) (hd : original.length ≤ 4 * numBits / 7)
    (snrs : List RealExpr) (s : State) (href : s.IsReference) (hmax : s.maxLen = none) :
    ∃ u : State, sweepByCommands w refc refs numBits N original snrs s =
        some (sweepCurve .reference w refc refs N numBits original s.rng.seed s.rng.count snrs, u) ∧
      u.rng.count = s.rng.count + snrs.length * drawsFor w := by
  induction snrs generalizing s with
  | nil => exact ⟨s, rfl, by simp⟩
  | cons x xs ih =>
    obtain ⟨t, hrng, hnum, htmax, hpoint⟩ := sweepByCommands_cons (refc := refc) (refs := refs) (x := x) (xs := xs) href
      hmax hN htwo hseven hrefc hrefs hw ho hd
    obtain ⟨u, hrest, hcount⟩ := ih t (hnum.trans href) (htmax.trans hmax)
    rw [hrng] at hrest hcount
    refine ⟨u, ?_, ?_⟩
    · rw [hpoint, hrest]
      rfl
    · rw [hcount, List.length_cons]
      ring

theorem map_fst_sweepCurve (M : Numerics) (w : Stream) (refc refs : List RealExpr) (N numBits : Nat)
    (original : BitVector) (seed c : Nat) (snrs : List RealExpr) :
    (sweepCurve M w refc refs N numBits original seed c snrs).map Prod.fst = snrs := by
  induction snrs generalizing c with
  | nil => rfl
  | cons x xs ih => exact congrArg (x :: ·) (ih _)

theorem drawsFor_modulate (M : Numerics) (e : BitVector) (Tb fc : RealExpr) (N : Nat) :
    drawsFor (modulate M e Tb fc N) = e.length / 2 * N := length_modulate ..

/-- Settles O59, by induction over the points. -/
theorem sweepIsExpansion : Obligations.SweepIsExpansion := by
  intro s e o snrs Tb fc N href hmax hTb hN htwo hseven ho hd
  have hqmod := exec_qmod (s := s) (fc := fc) href hTb hN htwo (s.fits_of_unbounded hmax _) (s.fits_of_unbounded hmax _)
  obtain ⟨u, hsweep, hcount⟩ := sweepByCommands_eq (w := modulate .reference e Tb fc N)
    (refc := matchingCos .reference Tb fc N) (refs := matchingSin .reference Tb fc N) hN htwo hseven
    (by simp [matchingCos]) (by simp [matchingSin]) (by simp) ho hd snrs s href hmax
  have hdomain : domainRefusal (.bersweep e o snrs Tb fc N) s = none := by
    rw [domainRefusal_of_reference href, parameterRefusal, href.arith_eq, if_pos (modulationDomain_reference.2 ⟨hTb, hN⟩)]
  have hformat : formatCause (.bersweep e o snrs Tb fc N) = none := by
    rw [formatCause, if_neg (not_not.2 htwo), if_neg (not_not.2 hseven), if_neg (by omega), if_neg (by omega)]
  have hc : Completes (.bersweep e o snrs Tb fc N) s := ⟨s.operandsFit_of_unbounded hmax _, hdomain, hformat, rfl⟩
  refine ⟨_, _, _, _, u, hqmod, hsweep, map_fst_sweepCurve .., ?_, ?_⟩
  · rw [hcount, drawsFor_modulate]
  · rw [hc.exec_of_fits fun v _ => s.fits_of_unbounded hmax _, hcount]
    simp only [answersOf, writtenState, href.arith_eq]

/-! ### The text codec -/

theorem digit_decide_mod_two (n : Nat) : Bit.digit (decide (n % 2 = 1)) = n % 2 := by
  rcases Nat.mod_two_eq_zero_or_one n with h | h <;> simp [Bit.digit, h]

/-- The number of the bits from `q` on, from that of the bits above `q`. -/
theorem two_mul_div_add_mod (c q : Nat) : 2 * (c / 2 ^ (q + 1)) + c / 2 ^ q % 2 = c / 2 ^ q := by
  rw [pow_succ, ← Nat.div_div_eq_div_mul, Nat.div_add_mod]

/-- Eight bits, the most significant first, are the number of the character. -/
theorem bitsToText_charBits_append {c : Nat} (h : c < 256) (rest : BitVector) :
    bitsToText (charBits c ++ rest) = c :: bitsToText rest := by
  have hfirst : 2 * 0 + c / 2 ^ 7 % 2 = c / 2 ^ 7 := by
    have hstep := two_mul_div_add_mod c 7
    rwa [Nat.div_eq_of_lt (show c < 2 ^ (7 + 1) from h)] at hstep
  have hvalue : (charBits c).foldl (fun n b => 2 * n + b.digit) 0 = c := by
    simp only [charBits, List.map_cons, List.map_nil, List.foldl_cons, List.foldl_nil, digit_decide_mod_two]
    rw [hfirst, two_mul_div_add_mod c 6, two_mul_div_add_mod c 5, two_mul_div_add_mod c 4, two_mul_div_add_mod c 3,
      two_mul_div_add_mod c 2, two_mul_div_add_mod c 1, two_mul_div_add_mod c 0, pow_zero, Nat.div_one]
  calc bitsToText (charBits c ++ rest) = (charBits c).foldl (fun n b => 2 * n + b.digit) 0 :: bitsToText rest := rfl
    _ = c :: bitsToText rest := by rw [hvalue]

theorem bitsToText_textToBits {codes : List Nat} (h : ∀ c ∈ codes, c < 256) : bitsToText (textToBits codes) = codes := by
  induction codes with
  | nil => rfl
  | cons c cs ih =>
    obtain ⟨hc, hcs⟩ := List.forall_mem_cons.1 h
    rw [textToBits, List.flatMap_cons, bitsToText_charBits_append hc]
    exact congrArg (c :: ·) (ih hcs)

theorem charBits_foldl : ∀ b7 b6 b5 b4 b3 b2 b1 b0 : Bit,
    charBits ([b7, b6, b5, b4, b3, b2, b1, b0].foldl (fun n b => 2 * n + b.digit) 0) =
      [b7, b6, b5, b4, b3, b2, b1, b0] := by
  decide +kernel

theorem textToBits_bitsToText (v : BitVector) (h : v.length % 8 = 0) : textToBits (bitsToText v) = v := by
  induction v using bitsToText.induct with
  | case1 b7 b6 b5 b4 b3 b2 b1 b0 rest ih =>
    have hrest : rest.length % 8 = 0 := by
      simp only [List.length_cons] at h
      omega
    rw [bitsToText, textToBits, List.flatMap_cons, charBits_foldl]
    exact congrArg ([b7, b6, b5, b4, b3, b2, b1, b0] ++ ·) (ih hrest)
  | case2 v hshort =>
    match v, h with
    | [], _ => rfl
    | b7 :: b6 :: b5 :: b4 :: b3 :: b2 :: b1 :: b0 :: rest, _ =>
      exact absurd rfl (hshort b7 b6 b5 b4 b3 b2 b1 b0 rest)

/-- Settles O60, character by character. -/
theorem textRoundTrip : Obligations.TextRoundTrip := by
  refine ⟨fun codes h => ⟨?_, bitsToText_textToBits h⟩, textToBits_bitsToText⟩
  simp [textToBits, charBits, List.length_flatMap, Nat.mul_comm]

end Sys2Proof.Proofs
end

section
/-! PROOFS. The low-pass filter's stream and sample commands (44_conditioner.md R169 to R172, R176). -/

namespace Sys2Proof.Proofs

open Sys2Proof.Machine

/-! ### The commands -/

theorem exec_lpfcfg {s : State} {c fs : RealExpr} {n : Nat} (h : domainRefusal (.lpfcfg c fs n) s = none) :
    exec (.lpfcfg c fs n) s = .next ((s.withLpf (designFilter s.arith c fs n)).answered []) := by
  have hc : Completes (.lpfcfg c fs n) s := ⟨by simp [State.OperandsFit, Instr.operands], h, rfl, rfl⟩
  exact hc.exec_of_fits nofun

theorem exec_lpfadv {s : State} {x : Cplx} (h : domainRefusal (.lpfadv x) s = none) :
    exec (.lpfadv x) s =
      .next ((s.withLpf (filterNext s.arith s.lpf x)).answered [.sample (filterOutput s.arith s.lpf x)]) := by
  have hc : Completes (.lpfadv x) s := ⟨by simp [State.OperandsFit, Instr.operands], h, rfl, rfl⟩
  exact hc.exec_of_fits (by simp [answersOf])

theorem exec_lpf {s : State} {w : Stream} {c fs : RealExpr} {n : Nat} (h : domainRefusal (.lpf w c fs n) s = none)
    (hfit : s.Fits w.samples.length) : exec (.lpf w c fs n) s =
      .next ((s.withLpf (filterLoop s.arith w.samples (designFilter s.arith c fs n)).2).answered
        [.stream (.make w.kind (filterLoop s.arith w.samples (designFilter s.arith c fs n)).1)]) := by
  have hc : Completes (.lpf w c fs n) s := ⟨by simpa [State.OperandsFit, Instr.operands] using hfit, h, rfl, rfl⟩
  exact hc.exec_of_fits (by simpa [answersOf] using hfit)

theorem domainRefusal_lpfadv {s : State} {x : Cplx} (hfinite : s.OperandsFinite (.lpfadv x))
    (hcfgd : s.lpf.cfgd = true) : domainRefusal (.lpfadv x) s = none :=
  domainRefusal_eq_none_iff.2 ⟨hfinite, if_pos hcfgd⟩

/-- LPFCFG has the parameter domain of LPF. -/
theorem domainRefusal_lpfcfg_of_lpf {s : State} {w : Stream} {c fs : RealExpr} {n : Nat}
    (h : domainRefusal (.lpf w c fs n) s = none) : domainRefusal (.lpfcfg c fs n) s = none := by
  obtain ⟨hfinite, hparameter⟩ := domainRefusal_eq_none_iff.1 h
  exact domainRefusal_eq_none_iff.2 ⟨fun x hx => hfinite x (List.mem_append_right _ hx), hparameter⟩

/-! ### Sample by sample -/

/-- The filter over a stream, as one LPFADV a sample. -/
theorem runAll_lpfadv (xs : List Cplx) (s : State) (hcfgd : s.lpf.cfgd = true)
    (h : ∀ x ∈ xs, s.OperandsFinite (.lpfadv x)) :
    ∃ u : State, runAll (xs.map .lpfadv) s =
        some ((filterLoop s.arith xs s.lpf).1.map (fun y => [.sample y]), u) ∧
      u.lpf = (filterLoop s.arith xs s.lpf).2 := by
  induction xs generalizing s with
  | nil => exact ⟨s, rfl, rfl⟩
  | cons x xs ih =>
    obtain ⟨hx, hxs⟩ := List.forall_mem_cons.1 h
    have hexec := exec_lpfadv (domainRefusal_lpfadv hx hcfgd)
    set t := (s.withLpf (filterNext s.arith s.lpf x)).answered [.sample (filterOutput s.arith s.lpf x)]
    obtain ⟨u, hrun, hlpf⟩ := ih t hcfgd hxs
    refine ⟨u, ?_, hlpf⟩
    rw [List.map_cons, runAll_cons hexec, hrun]
    rfl

/-- Settles O52, by the loop's own recursion. -/
theorem filterStreamIsAdvances : Obligations.FilterStreamIsAdvances := by
  intro s w c fs n hdomain hfinite hfit
  have hcfg := exec_lpfcfg (domainRefusal_lpfcfg_of_lpf hdomain)
  obtain ⟨u, hrun, hlpf⟩ := runAll_lpfadv w.samples ((s.withLpf (designFilter s.arith c fs n)).answered []) rfl hfinite
  refine ⟨u, (filterLoop s.arith w.samples (designFilter s.arith c fs n)).1, ?_, ?_⟩
  · rw [runAll_cons hcfg, hrun]
    rfl
  · rw [exec_lpf hdomain hfit, hlpf]
    rfl

/-! ### The difference equation over the complex numbers -/

theorem re_sum_mul (f : Nat → ℝ) (g : Nat → ℂ) (n : Nat) :
    (∑ k ∈ Finset.range n, (f k : ℂ) * g k).re = ∑ k ∈ Finset.range n, f k * (g k).re := by
  simp [Complex.re_sum]

theorem im_sum_mul (f : Nat → ℝ) (g : Nat → ℂ) (n : Nat) :
    (∑ k ∈ Finset.range n, (f k : ℂ) * g k).im = ∑ k ∈ Finset.range n, f k * (g k).im := by
  simp [Complex.im_sum]

theorem filterOutput_val (l : Lpf) (x : Cplx) :
    (filterOutput .reference l x).val = (l.b.getD 0 .zero).val * x.val +
      ∑ k ∈ Finset.range l.ord, (l.b.getD (k + 1) .zero).val * (l.xh.getD k .zero).val -
      ∑ k ∈ Finset.range l.ord, (l.a.getD k .zero).val * (l.yh.getD k .zero).val := by
  apply Complex.ext
  · rw [Complex.sub_re, Complex.add_re, Complex.re_ofReal_mul, re_sum_mul, re_sum_mul]
    simp [filterOutput, filterPart]
  · rw [Complex.sub_im, Complex.add_im, Complex.im_ofReal_mul, im_sum_mul, im_sum_mul]
    simp [filterOutput, filterPart]

/-- Settles O51, part by part. -/
theorem filterAdvance : Obligations.FilterAdvance := by
  intro s x href hcfgd
  have hexec := exec_lpfadv (domainRefusal_lpfadv (x := x) (href.operandsFinite _) hcfgd)
  rw [href.arith_eq] at hexec
  exact ⟨_, hexec, filterOutput_val s.lpf x⟩

/-! ### Linearity -/

theorem getD_take_val (l : List Cplx) (n k : Nat) :
    ((l.take n).getD k .zero).val = if k < n then (l.getD k .zero).val else 0 := by
  simp only [List.getD_eq_getElem?_getD, List.getElem?_take]
  split_ifs <;> simp

/-- Filters of one design whose histories combine linearly. -/
structure Superposed (α β : ℂ) (l₁ l₂ l₃ : Lpf) : Prop where
  ord₁ : l₁.ord = l₃.ord
  ord₂ : l₂.ord = l₃.ord
  b₁ : l₁.b = l₃.b
  b₂ : l₂.b = l₃.b
  a₁ : l₁.a = l₃.a
  a₂ : l₂.a = l₃.a
  xh : ∀ k, (l₃.xh.getD k .zero).val = α * (l₁.xh.getD k .zero).val + β * (l₂.xh.getD k .zero).val
  yh : ∀ k, (l₃.yh.getD k .zero).val = α * (l₁.yh.getD k .zero).val + β * (l₂.yh.getD k .zero).val

theorem Superposed.filterOutput_val {α β : ℂ} {l₁ l₂ l₃ : Lpf} (h : Superposed α β l₁ l₂ l₃) {x₁ x₂ x₃ : Cplx}
    (hx : x₃.val = α * x₁.val + β * x₂.val) : (filterOutput .reference l₃ x₃).val =
      α * (filterOutput .reference l₁ x₁).val + β * (filterOutput .reference l₂ x₂).val := by
  simp only [Proofs.filterOutput_val, h.ord₁, h.ord₂, h.b₁, h.b₂, h.a₁, h.a₂, h.xh, h.yh, hx, mul_add,
    Finset.sum_add_distrib, mul_sub, Finset.mul_sum, mul_left_comm α, mul_left_comm β]
  ring

theorem getD_shift {α β : ℂ} {h₁ h₂ h₃ : List Cplx} {x₁ x₂ x₃ : Cplx} (n : Nat)
    (h : ∀ k, (h₃.getD k .zero).val = α * (h₁.getD k .zero).val + β * (h₂.getD k .zero).val)
    (hx : x₃.val = α * x₁.val + β * x₂.val) (k : Nat) : ((x₃ :: h₃.take n).getD k .zero).val =
      α * ((x₁ :: h₁.take n).getD k .zero).val + β * ((x₂ :: h₂.take n).getD k .zero).val := by
  cases k with
  | zero => exact hx
  | succ k =>
    simp only [List.getD_cons_succ, getD_take_val, h]
    split_ifs <;> simp

theorem Superposed.filterNext {α β : ℂ} {l₁ l₂ l₃ : Lpf} (h : Superposed α β l₁ l₂ l₃) {x₁ x₂ x₃ : Cplx}
    (hx : x₃.val = α * x₁.val + β * x₂.val) :
    Superposed α β (filterNext .reference l₁ x₁) (filterNext .reference l₂ x₂) (filterNext .reference l₃ x₃) where
  ord₁ := h.ord₁
  ord₂ := h.ord₂
  b₁ := h.b₁
  b₂ := h.b₂
  a₁ := h.a₁
  a₂ := h.a₂
  xh k := by
    simp only [Machine.filterNext, h.ord₁, h.ord₂]
    exact getD_shift _ h.xh hx k
  yh k := by
    simp only [Machine.filterNext, h.ord₁, h.ord₂]
    exact getD_shift _ h.yh (h.filterOutput_val hx) k

theorem Superposed.filterLoop {α β : Cplx} {us vs : List Cplx} (hlen : us.length = vs.length) {l₁ l₂ l₃ : Lpf}
    (h : Superposed α.val β.val l₁ l₂ l₃) :
    samplesOf (filterLoop .reference (List.zipWith (fun u v => (α.mul u).add (β.mul v)) us vs) l₃).1 =
      List.zipWith (fun a b => α.val * a + β.val * b) (samplesOf (filterLoop .reference us l₁).1)
        (samplesOf (filterLoop .reference vs l₂).1) := by
  induction us generalizing vs l₁ l₂ l₃ with
  | nil => rfl
  | cons u us ih =>
    match vs, hlen with
    | v :: vs, hlen =>
      have hx : ((α.mul u).add (β.mul v)).val = α.val * u.val + β.val * v.val := by simp
      have hrest := ih (Nat.succ.inj hlen) (h.filterNext hx)
      simp only [samplesOf] at hrest
      simp only [List.zipWith_cons_cons, Machine.filterLoop, samplesOf, List.map_cons, h.filterOutput_val hx, hrest]

/-- Histories without imaginary parts. -/
def RealHistories (l : Lpf) : Prop := (∀ z ∈ l.xh, z.im.val = 0) ∧ ∀ z ∈ l.yh, z.im.val = 0

theorem im_getD {h : List Cplx} (hh : ∀ z ∈ h, z.im.val = 0) (k : Nat) : (h.getD k .zero).im.val = 0 := by
  by_cases hk : k < h.length
  · rw [List.getD_eq_getElem _ _ hk]
    exact hh _ (List.getElem_mem hk)
  · rw [List.getD_eq_default _ _ (not_lt.1 hk)]
    simp

theorem im_filterOutput {l : Lpf} (hl : RealHistories l) {x : Cplx} (hx : x.im.val = 0) :
    (filterOutput .reference l x).im.val = 0 := by
  simp only [filterOutput, filterPart, Numerics.reference_sub_val, Numerics.reference_add_val,
    Numerics.reference_mul_val, Numerics.reference_sumRange_val, hx, im_getD hl.1, im_getD hl.2, mul_zero,
    Finset.sum_const_zero, add_zero, sub_zero]

theorem im_filterLoop {xs : List Cplx} (hxs : ∀ x ∈ xs, x.im.val = 0) {l : Lpf} (hl : RealHistories l) :
    ∀ y ∈ (filterLoop .reference xs l).1, y.im.val = 0 := by
  induction xs generalizing l with
  | nil => nofun
  | cons x xs ih =>
    obtain ⟨hx, hxs⟩ := List.forall_mem_cons.1 hxs
    have hy := im_filterOutput hl hx
    refine List.forall_mem_cons.2 ⟨hy, ih hxs ⟨List.forall_mem_cons.2 ⟨hx, fun z hz => ?_⟩,
      List.forall_mem_cons.2 ⟨hy, fun z hz => ?_⟩⟩⟩
    · exact hl.1 z (List.mem_of_mem_take hz)
    · exact hl.2 z (List.mem_of_mem_take hz)

theorem realHistories_designFilter (M : Numerics) (c fs : RealExpr) (n : Nat) : RealHistories (designFilter M c fs n) := by
  constructor <;>
  · intro z hz
    rw [List.eq_of_mem_replicate hz]
    simp

theorem domainRefusal_lpf_of_reference {s : State} {w : Stream} {c fs : RealExpr} {n : Nat} (href : s.IsReference)
    (hfs : 0 < fs.val) (hn : 1 ≤ n) (hlow : 0 < c.val / (fs.val / 2)) (hhigh : c.val / (fs.val / 2) < 1) :
    domainRefusal (.lpf w c fs n) s = none := by
  rw [domainRefusal_of_reference href, parameterRefusal, href.arith_eq,
    if_pos (filterDomain_reference.2 ⟨hfs, hn, hlow, hhigh⟩)]

/-- The result of LPF on a stream of its kind has the values of the loop's outputs. -/
theorem samplesOf_make_filterLoop {kind : Kind} {xs : List Cplx} (hwf : (⟨kind, xs⟩ : Stream).wellFormed = true)
    (c fs : RealExpr) (n : Nat) :
    samplesOf (Stream.make kind (filterLoop .reference xs (designFilter .reference c fs n)).1).samples =
      samplesOf (filterLoop .reference xs (designFilter .reference c fs n)).1 :=
  samplesOf_make fun hreal => im_filterLoop (Stream.wellFormed_iff.1 hwf hreal) (realHistories_designFilter ..)

/-- Settles O53, by induction over the stream from cleared histories. -/
theorem filterIsLinear : Obligations.FilterIsLinear := by
  intro s kind us vs α β c fs n href hfs hn hlow hhigh hlen hfit hus hvs hsum
  have hexec (xs : List Cplx) (hxs : xs.length = us.length) : exec (.lpf ⟨kind, xs⟩ c fs n) s =
      .next ((s.withLpf (filterLoop .reference xs (designFilter .reference c fs n)).2).answered
        [.stream ⟨kind, (Stream.make kind (filterLoop .reference xs (designFilter .reference c fs n)).1).samples⟩]) := by
    rw [exec_lpf (domainRefusal_lpf_of_reference href hfs hn hlow hhigh) (hxs ▸ hfit), href.arith_eq, ← make_eq]
  have hsumLen : (List.zipWith (fun u v => (α.mul u).add (β.mul v)) us vs).length = us.length := by simp [hlen]
  have hcleared : Superposed α.val β.val (designFilter .reference c fs n) (designFilter .reference c fs n)
      (designFilter .reference c fs n) :=
    ⟨rfl, rfl, rfl, rfl, rfl, rfl, by simp [designFilter], by simp [designFilter]⟩
  refine ⟨_, _, _, _, _, _, hexec us rfl, hexec vs hlen.symm, hexec _ hsumLen, rfl, rfl, rfl, ?_⟩
  rw [samplesOf_make_filterLoop hus, samplesOf_make_filterLoop hvs, samplesOf_make_filterLoop hsum]
  exact hcleared.filterLoop hlen

end Sys2Proof.Proofs
end

section
/-! PROOFS. The Butterworth design (44_conditioner.md R167, R174, R176): the coefficients as those of a product over the
poles, the poles in pairs of conjugates inside the unit circle, and the closed forms of the small orders. -/

namespace Sys2Proof.Proofs

open Sys2Proof.Machine

/-! ### Products over poles -/

/-- `Π_{k<m} (1 − z_k·x)`. -/
noncomputable def polePoly (z : Nat → ℂ) (m : Nat) : Polynomial ℂ :=
  ∏ k ∈ Finset.range m, (1 - Polynomial.C (z k) * Polynomial.X)

theorem polePoly_zero (z : Nat → ℂ) : polePoly z 0 = 1 := Finset.prod_range_zero _

theorem polePoly_succ (z : Nat → ℂ) (m : Nat) :
    polePoly z (m + 1) = polePoly z m - Polynomial.C (z m) * (polePoly z m * Polynomial.X) := by
  rw [polePoly, Finset.prod_range_succ, ← polePoly]
  ring

@[simp] theorem coeff_zero_polePoly (z : Nat → ℂ) (m : Nat) : (polePoly z m).coeff 0 = 1 := by
  induction m with
  | zero => simp [polePoly_zero]
  | succ m ih => simp [polePoly_succ, ih]

theorem coeff_succ_polePoly_zero (z : Nat → ℂ) (i : Nat) : (polePoly z 0).coeff (i + 1) = 0 := by
  rw [polePoly_zero, Polynomial.coeff_one, if_neg i.succ_ne_zero]

/-- A further factor takes `z` times the coefficient before from each coefficient. -/
theorem coeff_succ_polePoly_succ (z : Nat → ℂ) (m i : Nat) :
    (polePoly z (m + 1)).coeff (i + 1) = (polePoly z m).coeff (i + 1) - z m * (polePoly z m).coeff i := by
  rw [polePoly_succ, Polynomial.coeff_sub, Polynomial.coeff_C_mul, Polynomial.coeff_mul_X]

theorem getD_timesRootFactor_val (z before : Cplx) (cs : List Cplx) (i : Nat) :
    ((timesRootFactor z before cs).getD i .zero).val =
      (cs.getD i .zero).val - z.val * ((before :: cs).getD i .zero).val := by
  induction cs generalizing before i with
  | nil => cases i <;> simp [timesRootFactor]
  | cons c cs ih =>
    cases i with
    | zero => simp [timesRootFactor]
    | succ i => simpa only [timesRootFactor, List.getD_cons_succ] using ih c i

/-- The denominator's coefficients are those of the product over the poles, the constant 1 apart. -/
theorem getD_denominator_val (n : Nat) (Wn : RealExpr) (m i : Nat) :
    ((denominator n Wn m).getD i .zero).val = (polePoly (fun k => (digitalPole n Wn k).val) m).coeff (i + 1) := by
  induction m generalizing i with
  | zero => simp [denominator, coeff_succ_polePoly_zero]
  | succ m ih =>
    rw [denominator, getD_timesRootFactor_val, coeff_succ_polePoly_succ, ih]
    cases i with
    | zero => simp
    | succ i => rw [List.getD_cons_succ, ih]

/-! ### Values of the design -/

@[simp] theorem warpedCutoff_val (Wn : RealExpr) : (warpedCutoff Wn).val = Real.tan (Real.pi * Wn.val / 2) := by
  simp [warpedCutoff]

theorem digitalPole_val (n : Nat) (Wn : RealExpr) (k : Nat) : (digitalPole n Wn k).val = butterPole n Wn.val k := by
  have hangle : ((2 * k + n + 1 : ℚ) / (2 * n) : ℚ) * Real.pi = Real.pi * (2 * k + n + 1) / (2 * n) := by
    push_cast
    ring
  simp only [digitalPole, analogPole, Cplx.div_val, Cplx.add_val, Cplx.sub_val, Cplx.ofReal_val, Cplx.scale_val,
    Cplx.expj_val, warpedCutoff_val, RealExpr.scale_val, RealExpr.val_pi, hangle, butterPole, RealExpr.val_rat,
    Rat.cast_one, Complex.ofReal_one]

theorem butterPoly_eq (n : Nat) (Wn : ℝ) : butterPoly n Wn = polePoly (butterPole n Wn) n := rfl

theorem getD_butterDenominator_val (n : Nat) (Wn : RealExpr) (i : Nat) :
    ((denominator n Wn n).getD i .zero).val = (butterPoly n Wn.val).coeff (i + 1) := by
  simp only [getD_denominator_val, digitalPole_val]
  rfl

theorem valsOf_butterA (n : Nat) (Wn : RealExpr) :
    valsOf (butterA n Wn) = (List.range n).map fun i => butterAReal n Wn.val (i + 1) := by
  refine List.ext_getElem (by simp [valsOf]) fun i h _ => ?_
  have hi : i < n := by simpa [valsOf] using h
  have hcoeff := getD_butterDenominator_val n Wn i
  rw [List.getD_eq_getElem _ _ (by simpa using hi)] at hcoeff
  simp [valsOf, butterA, butterAReal, ← hcoeff]

theorem butterGain_val (n : Nat) (Wn : RealExpr) : (butterGain n Wn).val = butterGainReal n Wn.val := by
  have hsum := congrArg List.sum (valsOf_butterA n Wn)
  rw [valsOf, sum_map_range] at hsum
  simp [butterGain, butterGainReal, RealExpr.foldl_add_val, hsum]

theorem valsOf_butterB (n : Nat) (Wn : RealExpr) :
    valsOf (butterB n Wn) = (List.range (n + 1)).map fun i => butterGainReal n Wn.val * n.choose i := by
  simp [valsOf, butterB, butterGain_val]

theorem domainRefusal_lpfcfg_of_reference {s : State} {c fs : RealExpr} {n : Nat} (href : s.IsReference)
    (hfs : 0 < fs.val) (hn : 1 ≤ n) (hlow : 0 < c.val / (fs.val / 2)) (hhigh : c.val / (fs.val / 2) < 1) :
    domainRefusal (.lpfcfg c fs n) s = none := by
  rw [domainRefusal_of_reference href, parameterRefusal, href.arith_eq,
    if_pos (filterDomain_reference.2 ⟨hfs, hn, hlow, hhigh⟩)]

theorem valsOf_map_round (l : List RealExpr) : valsOf (l.map Numerics.reference.round) = valsOf l :=
  congrArg valsOf (List.map_id l)

/-- Settles O48, coefficient by coefficient. -/
theorem filterDesign : Obligations.FilterDesign := by
  intro s c fs n href hfs hn hlow hhigh
  have hexec := exec_lpfcfg (domainRefusal_lpfcfg_of_reference href hfs hn hlow hhigh)
  rw [href.arith_eq] at hexec
  refine ⟨_, hexec, rfl, rfl, ?_, ?_, rfl, rfl⟩
  · rw [designFilter, valsOf_map_round, valsOf_butterA, normalisedCutoff_reference_val]
  · rw [designFilter, valsOf_map_round, valsOf_butterB, normalisedCutoff_reference_val]

/-! ### The poles -/

/-- The angle of analog pole `k` of order `n`. -/
noncomputable def poleAngle (n k : Nat) : ℝ := Real.pi * (2 * k + n + 1) / (2 * n)

/-- The bilinear image of the number of modulus `Ω` and angle `θ`. -/
noncomputable def bilinear (Ω θ : ℝ) : ℂ :=
  (1 + Ω * Complex.exp (θ * Complex.I)) / (1 - Ω * Complex.exp (θ * Complex.I))

theorem butterPole_eq_bilinear (n : Nat) (Wn : ℝ) (k : Nat) :
    butterPole n Wn k = bilinear (Real.tan (Real.pi * Wn / 2)) (poleAngle n k) := rfl

theorem polar_re (Ω θ : ℝ) : (Ω * Complex.exp (θ * Complex.I)).re = Ω * Real.cos θ := by
  rw [Complex.re_ofReal_mul, Complex.exp_ofReal_mul_I_re]

theorem polar_im (Ω θ : ℝ) : (Ω * Complex.exp (θ * Complex.I)).im = Ω * Real.sin θ := by
  rw [Complex.im_ofReal_mul, Complex.exp_ofReal_mul_I_im]

theorem normSq_one_sub_polar (Ω θ : ℝ) :
    Complex.normSq (1 - Ω * Complex.exp (θ * Complex.I)) = 1 - 2 * Ω * Real.cos θ + Ω ^ 2 := by
  rw [Complex.normSq_apply, Complex.sub_re, Complex.sub_im, polar_re, polar_im, Complex.one_re, Complex.one_im]
  linear_combination Ω ^ 2 * Real.sin_sq_add_cos_sq θ

theorem normSq_one_add_polar (Ω θ : ℝ) :
    Complex.normSq (1 + Ω * Complex.exp (θ * Complex.I)) = 1 + 2 * Ω * Real.cos θ + Ω ^ 2 := by
  rw [Complex.normSq_apply, Complex.add_re, Complex.add_im, polar_re, polar_im, Complex.one_re, Complex.one_im]
  linear_combination Ω ^ 2 * Real.sin_sq_add_cos_sq θ

theorem normSq_bilinear (Ω θ : ℝ) :
    Complex.normSq (bilinear Ω θ) = (1 + 2 * Ω * Real.cos θ + Ω ^ 2) / (1 - 2 * Ω * Real.cos θ + Ω ^ 2) := by
  rw [bilinear, Complex.normSq_div, normSq_one_add_polar, normSq_one_sub_polar]

theorem bilinear_re (Ω θ : ℝ) : (bilinear Ω θ).re = (1 - Ω ^ 2) / (1 - 2 * Ω * Real.cos θ + Ω ^ 2) := by
  rw [bilinear, Complex.div_re, normSq_one_sub_polar, ← add_div]
  congr 1
  rw [Complex.sub_re, Complex.sub_im, Complex.add_re, Complex.add_im, polar_re, polar_im, Complex.one_re, Complex.one_im]
  linear_combination -Ω ^ 2 * Real.sin_sq_add_cos_sq θ

theorem conj_bilinear (Ω θ : ℝ) : (starRingEnd ℂ) (bilinear Ω θ) = bilinear Ω (-θ) := by
  have hpolar : (starRingEnd ℂ) (Ω * Complex.exp (θ * Complex.I)) = Ω * Complex.exp ((-θ : ℝ) * Complex.I) := by
    rw [map_mul, Complex.conj_ofReal, ← Complex.exp_conj, map_mul, Complex.conj_ofReal, Complex.conj_I]
    push_cast
    ring_nf
  rw [bilinear, bilinear, map_div₀, map_add, map_sub, map_one, hpolar]

theorem bilinear_add_two_pi (Ω θ : ℝ) : bilinear Ω (θ + 2 * Real.pi) = bilinear Ω θ := by
  have h : Complex.exp ((θ + 2 * Real.pi : ℝ) * Complex.I) = Complex.exp (θ * Complex.I) := by
    push_cast
    rw [add_mul, Complex.exp_periodic]
  rw [bilinear, bilinear, h]

/-- Poles come in pairs of conjugates, from both ends of the list. -/
theorem conj_butterPole {n k : Nat} (hk : k < n) (Wn : ℝ) :
    (starRingEnd ℂ) (butterPole n Wn k) = butterPole n Wn (n - 1 - k) := by
  have hn : (n : ℝ) ≠ 0 := by exact_mod_cast (by omega : n ≠ 0)
  have hcast : ((n - 1 - k : Nat) : ℝ) = n - 1 - k := by
    rw [Nat.cast_sub (by omega), Nat.cast_sub (by omega), Nat.cast_one]
  have hangle : poleAngle n (n - 1 - k) = -poleAngle n k + 2 * Real.pi := by
    rw [poleAngle, poleAngle, hcast]
    field_simp
    ring
  rw [butterPole_eq_bilinear, butterPole_eq_bilinear, conj_bilinear, hangle, bilinear_add_two_pi]

/-- The coefficients of the product over the poles are real. -/
theorem im_coeff_butterPoly (n : Nat) (Wn : ℝ) (i : Nat) : ((butterPoly n Wn).coeff i).im = 0 := by
  have hconj : (butterPoly n Wn).map (starRingEnd ℂ) = butterPoly n Wn := by
    rw [butterPoly, Polynomial.map_prod, ← Finset.prod_range_reflect]
    refine Finset.prod_congr rfl fun k hk => ?_
    rw [Finset.mem_range] at hk
    simp only [Polynomial.map_sub, Polynomial.map_one, Polynomial.map_mul, Polynomial.map_C, Polynomial.map_X]
    rw [conj_butterPole (by omega), show n - 1 - (n - 1 - k) = k by omega]
  rw [← Complex.conj_eq_iff_im, ← Polynomial.coeff_map, hconj]

/-- The analog poles lie in the left half plane. -/
theorem cos_poleAngle_neg {n k : Nat} (hk : k < n) : Real.cos (poleAngle n k) < 0 := by
  have hn : (0 : ℝ) < 2 * n := by exact_mod_cast (by omega : 0 < 2 * n)
  have hk' : (k : ℝ) + 1 ≤ n := by exact_mod_cast hk
  have hk0 : (0 : ℝ) ≤ k := Nat.cast_nonneg k
  refine Real.cos_neg_of_pi_div_two_lt_of_lt ?_ ?_
  · rw [poleAngle, lt_div_iff₀ hn]
    nlinarith [Real.pi_pos]
  · rw [poleAngle, div_lt_iff₀ hn]
    nlinarith [Real.pi_pos]

theorem tan_cutoff_pos {Wn : ℝ} (hlow : 0 < Wn) (hhigh : Wn < 1) : 0 < Real.tan (Real.pi * Wn / 2) :=
  Real.tan_pos_of_pos_of_lt_pi_div_two (by positivity) (by nlinarith [Real.pi_pos])

theorem norm_butterPole_lt_one {n k : Nat} (hk : k < n) {Wn : ℝ} (hlow : 0 < Wn) (hhigh : Wn < 1) :
    ‖butterPole n Wn k‖ < 1 := by
  have hcross : Real.tan (Real.pi * Wn / 2) * Real.cos (poleAngle n k) < 0 :=
    mul_neg_of_pos_of_neg (tan_cutoff_pos hlow hhigh) (cos_poleAngle_neg hk)
  rw [← sq_lt_one_iff₀ (norm_nonneg _), ← Complex.normSq_eq_norm_sq, butterPole_eq_bilinear, normSq_bilinear,
    div_lt_one (by nlinarith)]
  linarith

theorem sum_gain_choose (g : ℝ) (n : Nat) : ((List.range (n + 1)).map fun i => g * (n.choose i : ℝ)).sum = g * 2 ^ n := by
  rw [sum_map_range, ← Finset.mul_sum]
  congr 1
  exact_mod_cast Nat.sum_range_choose n

/-- Settles O49, by the pairs of conjugate poles, the sum of the binomials and the left half plane. -/
theorem filterDesignIsSound : Obligations.FilterDesignIsSound := by
  intro s c fs n href hfs hn hlow hhigh
  refine ⟨?_, fun z hz => ?_, fun k hk => ?_⟩
  · obtain ⟨l, hexec, -, -, ha, hb, -⟩ := filterDesign s c fs n href hfs hn hlow hhigh
    refine ⟨l, hexec, ?_⟩
    rw [ha, hb, sum_gain_choose, sum_map_range, butterGainReal, div_mul_cancel₀ _ (by positivity)]
  · obtain ⟨i, hi, rfl⟩ := List.getElem_of_mem hz
    rw [← List.getD_eq_getElem _ .zero hi, getD_butterDenominator_val, im_coeff_butterPoly]
  · rw [digitalPole_val, normalisedCutoff_reference_val]
    exact norm_butterPole_lt_one hk hlow hhigh

/-! ### Closed forms (44_conditioner.md R174) -/

section
variable {Wn Ω : ℝ}

theorem butterAReal_eq (n : Nat) (Wn : ℝ) (i : Nat) :
    butterAReal n Wn i = ((polePoly (butterPole n Wn) n).coeff i).re := rfl

theorem butterPole_re (hΩ : Ω = Real.tan (Real.pi * Wn / 2)) (n k : Nat) :
    (butterPole n Wn k).re = (1 - Ω ^ 2) / (1 - 2 * Ω * Real.cos (poleAngle n k) + Ω ^ 2) := by
  rw [butterPole_eq_bilinear, bilinear_re, hΩ]

theorem normSq_butterPole (hΩ : Ω = Real.tan (Real.pi * Wn / 2)) (n k : Nat) :
    Complex.normSq (butterPole n Wn k) =
      (1 + 2 * Ω * Real.cos (poleAngle n k) + Ω ^ 2) / (1 - 2 * Ω * Real.cos (poleAngle n k) + Ω ^ 2) := by
  rw [butterPole_eq_bilinear, normSq_bilinear, hΩ]

theorem cos_poleAngle_one : Real.cos (poleAngle 1 0) = -1 := by
  rw [show poleAngle 1 0 = Real.pi by rw [poleAngle]; push_cast; ring, Real.cos_pi]

theorem cos_poleAngle_two : Real.cos (poleAngle 2 0) = -(√2 / 2) := by
  rw [show poleAngle 2 0 = Real.pi - Real.pi / 4 by rw [poleAngle]; push_cast; ring, Real.cos_pi_sub, Real.cos_pi_div_four]

theorem cos_poleAngle_three : Real.cos (poleAngle 3 0) = -(1 / 2) := by
  rw [show poleAngle 3 0 = Real.pi - Real.pi / 3 by rw [poleAngle]; push_cast; ring, Real.cos_pi_sub,
    Real.cos_pi_div_three]

theorem cos_poleAngle_three_middle : Real.cos (poleAngle 3 1) = -1 := by
  rw [show poleAngle 3 1 = Real.pi by rw [poleAngle]; push_cast; ring, Real.cos_pi]

/-- The first coefficient of order 1. -/
theorem butterAReal_one (hΩ : Ω = Real.tan (Real.pi * Wn / 2)) (hpos : 0 < Ω) :
    butterAReal 1 Wn 1 = (Ω - 1) / (Ω + 1) := by
  rw [butterAReal_eq, coeff_succ_polePoly_succ, coeff_succ_polePoly_zero, coeff_zero_polePoly, mul_one, zero_sub,
    Complex.neg_re, butterPole_re hΩ, cos_poleAngle_one, show 1 - 2 * Ω * -1 + Ω ^ 2 = (Ω + 1) ^ 2 by ring]
  field_simp
  ring

/-- The coefficients of order 2, from one pair of conjugate poles. -/
theorem butterAReal_two (hΩ : Ω = Real.tan (Real.pi * Wn / 2)) :
    butterAReal 2 Wn 1 = 2 * (Ω ^ 2 - 1) / (1 + √2 * Ω + Ω ^ 2) ∧
      butterAReal 2 Wn 2 = (1 - √2 * Ω + Ω ^ 2) / (1 + √2 * Ω + Ω ^ 2) := by
  have hpair : butterPole 2 Wn 1 = (starRingEnd ℂ) (butterPole 2 Wn 0) := (conj_butterPole two_pos Wn).symm
  simp only [butterAReal_eq, coeff_succ_polePoly_succ, coeff_succ_polePoly_zero, coeff_zero_polePoly, hpair, mul_one,
    mul_zero, zero_sub, sub_zero, mul_neg, neg_neg, mul_comm _ (butterPole 2 Wn 0), Complex.mul_conj, Complex.ofReal_re,
    normSq_butterPole hΩ, Complex.sub_re, Complex.neg_re, Complex.conj_re, butterPole_re hΩ, cos_poleAngle_two]
  constructor <;> ring

/-- The coefficients of order 3 at half the band: one pole is 0 and the others are a pair. -/
theorem butterAReal_three (hΩ : (1 : ℝ) = Real.tan (Real.pi * Wn / 2)) :
    butterAReal 3 Wn 1 = 0 ∧ butterAReal 3 Wn 2 = 1 / 3 ∧ butterAReal 3 Wn 3 = 0 := by
  have hpair : butterPole 3 Wn 2 = (starRingEnd ℂ) (butterPole 3 Wn 0) := (conj_butterPole three_pos Wn).symm
  have hmiddle : butterPole 3 Wn 1 = 0 := by
    rw [← Complex.normSq_eq_zero, normSq_butterPole hΩ, cos_poleAngle_three_middle]
    norm_num
  have hre : (butterPole 3 Wn 0).re = 0 := by
    rw [butterPole_re hΩ]
    norm_num
  have hnormSq : Complex.normSq (butterPole 3 Wn 0) = 1 / 3 := by
    rw [normSq_butterPole hΩ, cos_poleAngle_three]
    norm_num
  simp [butterAReal_eq, coeff_succ_polePoly_succ, coeff_succ_polePoly_zero, hpair, hmiddle, hre,
    mul_comm _ (butterPole 3 Wn 0), Complex.mul_conj, hnormSq]

/-- Settles O50, by the coefficients of the denominator and the gain that follows from them. -/
theorem filterClosedForms : Obligations.FilterClosedForms := by
  intro s c fs Wn Ω href hfs hWn hlow hhigh hΩ
  have hpos : 0 < Ω := hΩ ▸ tan_cutoff_pos hlow hhigh
  have hdesign (n : Nat) (hn : 1 ≤ n) := filterDesign s c fs n href hfs hn (hWn ▸ hlow) (hWn ▸ hhigh)
  simp only [← hWn] at hdesign
  refine ⟨?_, ?_, fun hhalf => ?_⟩
  · obtain ⟨l, hexec, -, -, ha, hb, -⟩ := hdesign 1 le_rfl
    refine ⟨l, hexec, ?_, ?_⟩
    · have hgain : butterGainReal 1 Wn = Ω / (1 + Ω) := by
        rw [butterGainReal, Finset.sum_range_one, butterAReal_one hΩ hpos]
        field_simp
        ring
      simp [hb, hgain, List.range_succ]
    · simp [ha, butterAReal_one hΩ hpos]
  · obtain ⟨l, hexec, -, -, ha, hb, -⟩ := hdesign 2 one_le_two
    obtain ⟨h1, h2⟩ := butterAReal_two hΩ
    refine ⟨l, hexec, ?_, ?_⟩
    · have hgain : butterGainReal 2 Wn = Ω ^ 2 / (1 + √2 * Ω + Ω ^ 2) := by
        rw [butterGainReal, Finset.sum_range_succ, Finset.sum_range_one, h1, h2]
        field_simp
        ring
      simp [hb, hgain, List.range_succ]
      ring
    · simp [ha, h1, h2, List.range_succ]
  · obtain ⟨l, hexec, -, -, ha, hb, -⟩ := hdesign 3 (by decide)
    have hone : (1 : ℝ) = Real.tan (Real.pi * Wn / 2) := by
      rw [hhalf, show Real.pi * (1 / 2) / 2 = Real.pi / 4 by ring, Real.tan_pi_div_four]
    obtain ⟨h1, h2, h3⟩ := butterAReal_three hone
    refine ⟨l, hexec, ?_, ?_⟩
    · have hgain : butterGainReal 3 Wn = 1 / 6 := by
        rw [butterGainReal, Finset.sum_range_succ, Finset.sum_range_succ, Finset.sum_range_one, h1, h2, h3]
        norm_num
      simp [hb, hgain, List.range_succ, Nat.choose]
      norm_num
    · simp [ha, h1, h2, h3, List.range_succ]

end

end Sys2Proof.Proofs
end
